-- ==== Sys2Proof/Word.lean ====
section
/-! DEFINITION. The word types of the block: bytes, 32-bit values and the 68-bit host command word (00_scope.md R5, R11; 30_encoding.md R91). -/

namespace Sys2Proof

/-- `u8` of R11. -/
abbrev Byte := BitVec 8

/-- `u32` of R11: every host operand, address, length, index, count and result (R5, `XLEN` = 32).
Its `+`, `-`, `*` are modulo 2^32 (R12). -/
abbrev U32 := BitVec 32

/-- The 68-bit command word `{cmd_op, cmd_len, cmd_arg}` (R91). -/
abbrev CmdWord := BitVec 68

end Sys2Proof
end

