-- ==== Sys2Proof/Config.lean ====
section
/-! DEFINITION. The configuration record Cfg of 00_scope.md section 3 (R5 to R8), the constants the spec fixes, and the free values (opaque, no body). -/

namespace Sys2Proof

/-- `ADDRESS_WIDTH` (R5, R22): "Legal values are 3 and 4". A configuration with another value cannot be
written down: "refused when the model is built, not at run time". -/
inductive AddrWidth where
  | three
  | four
deriving DecidableEq, Repr

/-- How many address bytes a frame carries (R22, R100). -/
def AddrWidth.bytes : AddrWidth → Nat
  | .three => 3
  | .four => 4

/-- The parameters that a model takes "as one configuration record `Cfg`" (00_scope.md section 3) and whose
value the source does not give: the twelve opcode bytes (R8), the fast-read dummy byte and the position
of the write-enable-latch bit (R7), and the address width (R5). No operation writes it. -/
structure Cfg where
  opRdid : Byte
  opRdsr1 : Byte
  opRdsr2 : Byte
  opRsten : Byte
  opRst : Byte
  opWren : Byte
  opFastrd : Byte
  opPp : Byte
  opSe : Byte
  opBe32 : Byte
  opBe64 : Byte
  opCe : Byte
  /-- `DUMMY` (R7, D24). -/
  dummy : Byte
  /-- `WEL_BIT` (R7, D23). -/
  welBit : Fin 8
  /-- `ADDRESS_WIDTH` (R5, D19). -/
  addressWidth : AddrWidth
deriving DecidableEq, Repr

/-- The twelve opcode parameters in the order of R8's table. -/
def Cfg.opcodes (c : Cfg) : List Byte :=
  [c.opRdid, c.opRdsr1, c.opRdsr2, c.opRsten, c.opRst, c.opWren, c.opFastrd, c.opPp, c.opSe, c.opBe32,
    c.opBe64, c.opCe]

/-- No two of the twelve opcode bytes are equal. The rules do not ask for it ("The only constraint the rules
place on the twelve values is that they are bytes", R8): a claim that reads a frame's first byte back
(decoding, the mock chip) takes it as a premise. -/
abbrev Cfg.Distinct (c : Cfg) : Prop := c.opcodes.Nodup

/-- The defaults of R7 and R8. PRESUMED (unsafe): the opcode bytes and `WEL_BIT` are general knowledge
(G1, G2; entry 3), which is why they are fields of the state and not constants. -/
def Config.default : Cfg where
  opRdid := 0x9F
  opRdsr1 := 0x05
  opRdsr2 := 0x35
  opRsten := 0x66
  opRst := 0x99
  opWren := 0x06
  opFastrd := 0x0B
  opPp := 0x02
  opSe := 0x20
  opBe32 := 0x52
  opBe64 := 0xD8
  opCe := 0xC7
  dummy := 0xFF
  welBit := 1
  addressWidth := .three

/-- `FILL` (R7): "a fixed fill value (all-ones byte, 0xFF)". -/
def Config.fill : Byte := 0xFF

/-- `RESET_DELAY_US` (R7): "delay 30 microseconds". -/
def Config.resetDelayUs : U32 := 30

/-- `ERASED_WORD` (R7). -/
def Config.erasedWord : U32 := 0xFFFFFFFF

/-- `PAGE_SIZE` (R6). -/
def Config.pageSize : Nat := 256

/-- `SECTOR_SIZE` (R6). -/
def Config.sectorSize : Nat := 4096

/-- `BLOCK32_SIZE` (R6). -/
def Config.block32Size : Nat := 32768

/-- `BLOCK64_SIZE` (R6). -/
def Config.block64Size : Nat := 65536

/-- `CAPACITY` (R6): 2^24. -/
def Config.capacity : Nat := 16777216

/-- `N_SECTORS` (R6): the sectors that have an index inside the device. No operation checks an index (R61). -/
def Config.nSectors : Nat := 4096

/-- `N_BLOCK32` (R6). -/
def Config.nBlock32 : Nat := 512

/-- `N_BLOCK64` (R6). -/
def Config.nBlock64 : Nat := 256

/-- What an erased byte of the flash array reads as, and so what an address of the array that the memory does
not list reads as (R77: "every byte of the addressed unit ... is 0xFF"). -/
def Config.erasedByte : Byte := 0xFF

/-- FREE VALUE (no body): the level `SMP(MISO)` reads when neither a script nor a device supplies it. R10: "a
free input of the step ... no rule of the block constrains `v`". Entry 2; safe. -/
opaque Config.freeSample : Nat → Bool

/-- FREE VALUE (no body): `rsp_val` of a refused operation, which R30 and R202 leave unspecified. Entry 5; safe. -/
opaque Config.freeRspVal : Nat → U32

/-- FREE VALUE (no body): the byte of a host buffer at an index that the host did not supply (R227 makes
supplying it the host's duty). Entry 6; safe. -/
opaque Config.freeHostByte : Nat → Nat → Byte

end Sys2Proof
end

