-- ==== Sys2Proof/Syntax.lean ====
section
/-! DEFINITION. Instr: one constructor per row of spec/opcode_table.json, in the table's order. -/

namespace Sys2Proof

/-- The 45 rows of the opcode table. The first twelve are the host operations of R104 and the next four the
reserved codes of R107; then the twelve wire frames of R105; then the thirteen internal operations of R106 and
the four helper names. A field that R91 says is ignored is no argument. -/
inductive Instr where
  /-- `BEGIN hp` (R162). -/
  | beginOp (hp : U32)
  /-- `IDENT` (R186). -/
  | ident
  /-- `RD8 addr` (R175). -/
  | rd8 (addr : U32)
  /-- `RD16 addr` (R176). -/
  | rd16 (addr : U32)
  /-- `RD32 addr` (R177). -/
  | rd32 (addr : U32)
  /-- `RDBUF addr, len` (R174). -/
  | rdbuf (addr len : U32)
  /-- `WRBUF addr, len, [wbuf]` (R173). -/
  | wrbuf (addr len : U32)
  /-- `ERCHIP` (R179). -/
  | erchip
  /-- `ERSEC idx` (R180). -/
  | ersec (idx : U32)
  /-- `ERB32 idx` (R181). -/
  | erb32 (idx : U32)
  /-- `ERB64 idx` (R182). -/
  | erb64 (idx : U32)
  /-- `USED` (R184). -/
  | used
  /-- `cmd_op` = 0xC (R107). -/
  | reservedC
  /-- `cmd_op` = 0xD (R107). -/
  | reservedD
  /-- `cmd_op` = 0xE (R107). -/
  | reservedE
  /-- `cmd_op` = 0xF (R107). -/
  | reservedF
  /-- Wire frame `RDID`, format F1 with n = 3 (R95, R105). -/
  | rdid
  /-- Wire frame `RDSR1`, format F1 with n = 1 (R95, R105). -/
  | rdsr1
  /-- Wire frame `RDSR2`, format F1 with n = 1 (R95, R105). -/
  | rdsr2
  /-- Wire frame `RSTEN`, format F0 (R94, R105). -/
  | rsten
  /-- Wire frame `RST`, format F0 (R94, R105). -/
  | rst
  /-- Wire frame `WREN`, format F0 (R94, R105). -/
  | wren
  /-- Wire frame `FASTRD`, format F3, with `len` data exchanges (R97, R105). -/
  | fastrd (addr len : U32)
  /-- Wire frame `PP`, format F4, with its payload (R98, R105). -/
  | pp (addr : U32) (payload : List Byte)
  /-- Wire frame `SE`, format F2 (R96, R105). -/
  | se (addr : U32)
  /-- Wire frame `BE32`, format F2 (R96, R105). -/
  | be32 (addr : U32)
  /-- Wire frame `BE64`, format F2 (R96, R105). -/
  | be64 (addr : U32)
  /-- Wire frame `CE`, format F0 (R94, R105). -/
  | ce
  /-- `selectAssert()` (R120). -/
  | selectAssert
  /-- `selectDeassert()` (R121). -/
  | selectDeassert
  /-- `clockPulse()` (R122). -/
  | clockPulse
  /-- `transferByte(out)` (R124). -/
  | transferByte (out : Byte)
  /-- `transferBuffer(buf, count)` on the read buffer, the only buffer the block uses it on (R125, C4). -/
  | transferBuffer (count : U32)
  /-- `runCommand(opcode)` (R140). -/
  | runCommand (opcode : Byte)
  /-- `readCommand(opcode, length)` (R142). -/
  | readCommand (opcode : Byte) (length : U32)
  /-- `eraseCommand(opcode, address)` (R144). -/
  | eraseCommand (opcode : Byte) (address : U32)
  /-- `readMemory(address, length)` into rbuf (R148). -/
  | readMemory (address length : U32)
  /-- `writeMemory(address, data, length)`, the data being wbuf from `W.pos` on (R150). -/
  | writeMemory (address length : U32)
  /-- `waitUntilReady()` (R164). -/
  | waitUntilReady
  /-- `writeEnable()` (R166). -/
  | writeEnable
  /-- `configureLines()` (R163). -/
  | configureLines
  /-- `addressPhase(address)` (R146). -/
  | addressPhase (address : U32)
  /-- `readStatus1()` (R152). -/
  | readStatus1
  /-- `readStatus2()` (R153). -/
  | readStatus2
  /-- `readJEDEC()` (R154). -/
  | readJEDEC
deriving DecidableEq, Repr

end Sys2Proof
end

