-- ==== Sys2Proof/WellFormed.lean ====
section
/-! DEFINITION. Which instructions are well formed: a frame's address must fit into the address bytes the frame has (R100: at width 3 "`A[31:24]` is dropped without notice", so a frame cannot carry those bits), and a read frame's or program frame's length is a u32. -/

namespace Sys2Proof

/-- The address fits into `aw` address bytes (R50, R100). -/
def AddrWidth.fits (aw : AddrWidth) (a : U32) : Bool := a.toNat < 2 ^ (8 * aw.bytes)

/-- The check, instruction by instruction. Every operand value of a host operation is legal (R108: "every
address, length, index and half-period is accepted"), and so is every operand of an internal operation; a wire
frame is ill formed when it would have to carry address bits it has no byte for, or a payload longer than any
`u32` length. -/
def Instr.wf (aw : AddrWidth) : Instr → Bool
  | .beginOp _ => true
  | .ident => true
  | .rd8 _ => true
  | .rd16 _ => true
  | .rd32 _ => true
  | .rdbuf _ _ => true
  | .wrbuf _ _ => true
  | .erchip => true
  | .ersec _ => true
  | .erb32 _ => true
  | .erb64 _ => true
  | .used => true
  | .reservedC => true
  | .reservedD => true
  | .reservedE => true
  | .reservedF => true
  | .rdid => true
  | .rdsr1 => true
  | .rdsr2 => true
  | .rsten => true
  | .rst => true
  | .wren => true
  | .fastrd a _ => aw.fits a
  | .pp a payload => aw.fits a && decide (payload.length < 2 ^ 32)
  | .se a => aw.fits a
  | .be32 a => aw.fits a
  | .be64 a => aw.fits a
  | .ce => true
  | .selectAssert => true
  | .selectDeassert => true
  | .clockPulse => true
  | .transferByte _ => true
  | .transferBuffer _ => true
  | .runCommand _ => true
  | .readCommand _ _ => true
  | .eraseCommand _ _ => true
  | .readMemory _ _ => true
  | .writeMemory _ _ => true
  | .waitUntilReady => true
  | .writeEnable => true
  | .configureLines => true
  | .addressPhase _ => true
  | .readStatus1 => true
  | .readStatus2 => true
  | .readJEDEC => true

end Sys2Proof
end

