-- ==== Sys2Proof/Decode.lean ====
section
/-! DEFINITION. The two encodings of 30_encoding.md: the 68-bit host command word (R91, R104, R107) and the byte sequence of a wire frame (R93 to R98, R100, R105). First the decoder, total on any packet; then the encoder, from the same tables. -/

namespace Sys2Proof

/-- What can be decoded: a host command word, or the bytes of one frame, first-transmitted byte first (R15). -/
inductive Packet where
  | command (word : CmdWord)
  | frame (bytes : List Byte)
deriving DecidableEq, Repr

/-! ### Address bytes (R100) -/

/-- R100: `a_i = (A >> (8 * (aw - 1 - i))) & 0xFF`, for `i = 0 .. aw - 1`, `a_0` first. -/
def addressBytes (aw : AddrWidth) (a : U32) : List Byte :=
  (List.range aw.bytes).map fun i => ((a >>> (8 * (aw.bytes - 1 - i))) &&& 0xFF).setWidth 8

/-- Takes `aw` big-endian address bytes off the front (R54, R100), or refuses when there are fewer. -/
def takeAddress : AddrWidth → List Byte → Option (U32 × List Byte)
  | .three, a0 :: a1 :: a2 :: rest =>
    some ((a0.setWidth 32 <<< 16) ||| (a1.setWidth 32 <<< 8) ||| a2.setWidth 32, rest)
  | .four, a0 :: a1 :: a2 :: a3 :: rest =>
    some ((a0.setWidth 32 <<< 24) ||| (a1.setWidth 32 <<< 16) ||| (a2.setWidth 32 <<< 8) ||| a3.setWidth 32,
      rest)
  | _, _ => none

/-! ### The decoder -/

/-- R91: `cmd_op` in bits 67:64. -/
def cmdOp (w : CmdWord) : BitVec 4 := w.extractLsb' 64 4

/-- R91: `cmd_len` in bits 63:32. -/
def cmdLen (w : CmdWord) : U32 := w.extractLsb' 32 32

/-- R91: `cmd_arg` in bits 31:0. -/
def cmdArg (w : CmdWord) : U32 := w.extractLsb' 0 32

/-- R104, R107: the sixteen values of `cmd_op`; all are assigned, so nothing is rejected here. "An ignored field
may hold any value and has no effect" (R91). -/
def decodeCommand (w : CmdWord) : Instr :=
  match (cmdOp w).toNat with
  | 0x0 => .beginOp (cmdArg w)
  | 0x1 => .ident
  | 0x2 => .rd8 (cmdArg w)
  | 0x3 => .rd16 (cmdArg w)
  | 0x4 => .rd32 (cmdArg w)
  | 0x5 => .rdbuf (cmdArg w) (cmdLen w)
  | 0x6 => .wrbuf (cmdArg w) (cmdLen w)
  | 0x7 => .erchip
  | 0x8 => .ersec (cmdArg w)
  | 0x9 => .erb32 (cmdArg w)
  | 0xA => .erb64 (cmdArg w)
  | 0xB => .used
  | 0xC => .reservedC
  | 0xD => .reservedD
  | 0xE => .reservedE
  | _ => .reservedF

/-- A format with a fixed number of bytes after the opcode (F0, F1: R94, R95, R105). -/
def bare (n : Nat) (i : Instr) (rest : List Byte) : Option Instr :=
  if rest.length = n then some i else none

/-- Format F2 (R96): exactly the address bytes. -/
def addressed (aw : AddrWidth) (mk : U32 → Instr) (rest : List Byte) : Option Instr :=
  match takeAddress aw rest with
  | some (a, []) => some (mk a)
  | _ => none

/-- Format F3 (R97): the address bytes, one dummy byte, then one byte for each data exchange. -/
def fastRead (aw : AddrWidth) (rest : List Byte) : Option Instr :=
  match takeAddress aw rest with
  | some (a, _ :: fills) => if fills.length < 2 ^ 32 then some (.fastrd a (BitVec.ofNat 32 fills.length)) else none
  | _ => none

/-- Format F4 (R98): the address bytes, then the payload. -/
def pageProgram (aw : AddrWidth) (rest : List Byte) : Option Instr :=
  match takeAddress aw rest with
  | some (a, payload) => if payload.length < 2 ^ 32 then some (.pp a payload) else none
  | none => none

/-- R105: "The first byte selects the row." The bytes are read as the chip reads them: the value of a fill or
dummy byte carries no information (R75, G5) and is not looked at; the number of bytes is. A byte sequence
that is none of the twelve frames is rejected (R109). -/
def decodeFrame (c : Cfg) (aw : AddrWidth) : List Byte → Option Instr
  | [] => none
  | op :: rest =>
    if op = c.opRdid then bare 3 .rdid rest
    else if op = c.opRdsr1 then bare 1 .rdsr1 rest
    else if op = c.opRdsr2 then bare 1 .rdsr2 rest
    else if op = c.opRsten then bare 0 .rsten rest
    else if op = c.opRst then bare 0 .rst rest
    else if op = c.opWren then bare 0 .wren rest
    else if op = c.opFastrd then fastRead aw rest
    else if op = c.opPp then pageProgram aw rest
    else if op = c.opSe then addressed aw .se rest
    else if op = c.opBe32 then addressed aw .be32 rest
    else if op = c.opBe64 then addressed aw .be64 rest
    else if op = c.opCe then bare 0 .ce rest
    else none

/-- The decoder: total, and `none` for what has no encoding in the spec. -/
def decode (c : Cfg) (aw : AddrWidth) : Packet → Option Instr
  | .command w => some (decodeCommand w)
  | .frame bytes => decodeFrame c aw bytes

/-! ### The encoder -/

/-- R91: the concatenation `{cmd_op, cmd_len, cmd_arg}`. -/
def commandWord (op : BitVec 4) (len arg : U32) : CmdWord :=
  (op.setWidth 68 <<< 64) ||| (len.setWidth 68 <<< 32) ||| arg.setWidth 68

/-- A host command; an ignored field is sent as 0. -/
def encodeCommand (op : BitVec 4) (arg len : U32) : Option Packet := some (.command (commandWord op len arg))

/-- The transmitted bytes of a frame. -/
def encodeFrame (bytes : List Byte) : Option Packet := some (.frame bytes)

/-- The encoder: R104's codes for the host operations, R94 to R98 and R105 for the wire frames. An internal
operation has no encoding (R106). -/
def encode (c : Cfg) (aw : AddrWidth) : Instr → Option Packet
  | .beginOp hp => encodeCommand 0x0 hp 0
  | .ident => encodeCommand 0x1 0 0
  | .rd8 a => encodeCommand 0x2 a 0
  | .rd16 a => encodeCommand 0x3 a 0
  | .rd32 a => encodeCommand 0x4 a 0
  | .rdbuf a n => encodeCommand 0x5 a n
  | .wrbuf a n => encodeCommand 0x6 a n
  | .erchip => encodeCommand 0x7 0 0
  | .ersec k => encodeCommand 0x8 k 0
  | .erb32 k => encodeCommand 0x9 k 0
  | .erb64 k => encodeCommand 0xA k 0
  | .used => encodeCommand 0xB 0 0
  | .reservedC => encodeCommand 0xC 0 0
  | .reservedD => encodeCommand 0xD 0 0
  | .reservedE => encodeCommand 0xE 0 0
  | .reservedF => encodeCommand 0xF 0 0
  | .rdid => encodeFrame (c.opRdid :: List.replicate 3 Config.fill)
  | .rdsr1 => encodeFrame (c.opRdsr1 :: List.replicate 1 Config.fill)
  | .rdsr2 => encodeFrame (c.opRdsr2 :: List.replicate 1 Config.fill)
  | .rsten => encodeFrame [c.opRsten]
  | .rst => encodeFrame [c.opRst]
  | .wren => encodeFrame [c.opWren]
  | .fastrd a n => encodeFrame (c.opFastrd :: (addressBytes aw a ++ c.dummy :: List.replicate n.toNat Config.fill))
  | .pp a payload => encodeFrame (c.opPp :: (addressBytes aw a ++ payload))
  | .se a => encodeFrame (c.opSe :: addressBytes aw a)
  | .be32 a => encodeFrame (c.opBe32 :: addressBytes aw a)
  | .be64 a => encodeFrame (c.opBe64 :: addressBytes aw a)
  | .ce => encodeFrame [c.opCe]
  | .selectAssert => none
  | .selectDeassert => none
  | .clockPulse => none
  | .transferByte _ => none
  | .transferBuffer _ => none
  | .runCommand _ => none
  | .readCommand _ _ => none
  | .eraseCommand _ _ => none
  | .readMemory _ _ => none
  | .writeMemory _ _ => none
  | .waitUntilReady => none
  | .writeEnable => none
  | .configureLines => none
  | .addressPhase _ => none
  | .readStatus1 => none
  | .readStatus2 => none
  | .readJEDEC => none

/-! ### The rows of the opcode table -/

/-- How many bytes the shortest frame has after an opcode byte (R105 at data length 0). -/
def bytesAfter (c : Cfg) (aw : AddrWidth) (op : Byte) : Nat :=
  if op = c.opRdid then 3
  else if op = c.opRdsr1 then 1
  else if op = c.opRdsr2 then 1
  else if op = c.opFastrd then aw.bytes + 1
  else if op ∈ [c.opPp, c.opSe, c.opBe32, c.opBe64] then aw.bytes
  else 0

/-- The packet of an opcode-table word: a row of at most 8 bits is the first byte of a wire frame, the bytes
after it zero; a row of the 68-bit command word is a host command. Rows of any other width do not exist. -/
def tablePacket (c : Cfg) (aw : AddrWidth) (nbits w : Nat) : Option Packet :=
  if nbits ≤ 8 then
    if w < 2 ^ 8 then
      let op : Byte := BitVec.ofNat 8 w
      some (.frame (op :: List.replicate (bytesAfter c aw op) 0))
    else none
  else if 64 < nbits ∧ nbits ≤ 72 then
    if w < 2 ^ 68 then some (.command (BitVec.ofNat 68 w)) else none
  else none

/-- What the decoder reads from a word of the opcode table, at the spec's default parameters (R8). -/
def decodeTableWord (nbits w : Nat) : Option Instr :=
  match tablePacket Config.default Config.default.addressWidth nbits w with
  | some p => decode Config.default Config.default.addressWidth p
  | none => none

end Sys2Proof
end

