-- ==== Sys2Proof/Machine/State.lean ====
section
/-! DEFINITION. The state of the block and of what stands around it, as plain data: the Device Handle, the working registers, the host buffers, the trace, the host's requests, what answers data-in, and the state after block reset (10_state.md, 00_scope.md R9 and R10, 95_test_vectors.md section 3). -/

namespace Sys2Proof.Machine

/-! ### Lines and events (R9, R24, R25) -/

/-- The six logical lines (R24). -/
inductive Line where
  | cs
  | sck
  | mosi
  | miso
  | wp
  | hold
deriving DecidableEq, Repr

/-- The modes of a `DIR` event (R9). -/
inductive Mode where
  | out
  | inPullup
deriving DecidableEq, Repr

/-- The event alphabet (R9): the whole of what the block does to the outside world. -/
inductive Event where
  /-- `DIR(l, m)` -/
  | dir (l : Line) (m : Mode)
  /-- `DRV(l, v)` -/
  | drv (l : Line) (v : Bool)
  /-- `SMP(l) = v` -/
  | smp (l : Line) (v : Bool)
  /-- `DLY(n)`, in microseconds -/
  | dly (n : U32)
  /-- `YLD` -/
  | yld
deriving DecidableEq, Repr

/-- `H.line[l].dir` (R25). -/
inductive LineDir where
  | unconfigured
  | out
  | inPullup
deriving DecidableEq, Repr

/-- `H.line[l]` (R25): the last direction and the last level the block emitted for the line; no level before the
first `DRV` (R40). -/
structure LineState where
  dir : LineDir
  level : Option Bool
deriving DecidableEq, Repr

/-- `H.line`, one entry for each of the six lines. -/
structure Lines where
  cs : LineState
  sck : LineState
  mosi : LineState
  miso : LineState
  wp : LineState
  hold : LineState
deriving DecidableEq, Repr

/-- R40: "the block has emitted no `DIR`" and no `DRV` for any line. -/
def Lines.reset : Lines where
  cs := ⟨.unconfigured, none⟩
  sck := ⟨.unconfigured, none⟩
  mosi := ⟨.unconfigured, none⟩
  miso := ⟨.unconfigured, none⟩
  wp := ⟨.unconfigured, none⟩
  hold := ⟨.unconfigured, none⟩

/-! ### The Device Handle (R20) -/

/-- `H.jedec_id[0..2]` (R23): manufacturer, device type, capacity code. -/
structure Jedec where
  id0 : Byte
  id1 : Byte
  id2 : Byte
deriving DecidableEq, Repr

/-- The Device Handle (R20 to R29) but for `H.line`, which stands in `Bus`. -/
structure Handle where
  /-- R21 -/
  clockHalfPeriod : U32
  /-- R22 -/
  addressWidth : AddrWidth
  /-- R23 -/
  jedec : Jedec
  /-- R26 -/
  initialized : Bool
  /-- R29 -/
  busy : Bool
deriving DecidableEq, Repr

/-- The handle after block reset (R40). `jedec_id` is "unspecified: any value; not readable": DESIGN CHOICE
(unsafe) 00 00 00, entry 4. -/
def Handle.reset (c : Cfg) : Handle where
  clockHalfPeriod := 0
  addressWidth := c.addressWidth
  jedec := ⟨0, 0, 0⟩
  initialized := false
  busy := false

/-- The working registers of R27 but for `W.sr` and `W.i`, which the bit transport uses and `Bus` holds. -/
structure Work where
  addr : U32
  rem : U32
  chunk : BitVec 9
  pos : U32
  status : Byte
  word : U32
deriving DecidableEq, Repr

/-- `W.*` after block reset: "unspecified" (R40); DESIGN CHOICE (unsafe) zero, entry 4. -/
def Work.reset : Work where
  addr := 0
  rem := 0
  chunk := 0
  pos := 0
  status := 0
  word := 0

/-! ### Memory and the flash chip -/

/-- Memory: (address, byte) pairs in the canonical form of `Memory.wf`. It holds the chip's array of CAPACITY
bytes (R50, R65); an address it does not list reads as an erased byte (R77). -/
abbrev Memory := List Host.Cell

/-- The mock flash device of 95_test_vectors.md section 3: the hidden state of R34, and the serial receiver that
turns line events into bytes and bytes into answers (R67, R68). PRESUMED where it goes beyond the device
contract (D28, G3 to G7; entry 10). -/
structure Chip where
  /-- The chip's own command set and address width; a claim takes it equal to the block's. -/
  cfg : Cfg
  id : Jedec
  mem : Memory
  wip : Bool
  wel : Bool
  sus : Bool
  rsten : Bool
  cnt : Nat
  nProg : Nat
  nErase : Nat
  /-- select is low -/
  sel : Bool
  /-- the clock level last driven -/
  clk : Bool
  /-- the data-out level last driven -/
  din : Bool
  /-- the level the chip drives on data-in, `none` when it drives nothing; it changes at a falling clock edge and with
  select (R67, R69, G3) -/
  miso : Option Bool
  /-- the bits of the byte under way, and how many there are -/
  shift : Byte
  nbits : Nat
  /-- the complete bytes of the frame under way, first byte first -/
  rx : List Byte
deriving DecidableEq, Repr

/-- What answers `SMP(MISO)` (R10): the environment, which "takes no step inside the block". -/
inductive Env where
  /-- A script of answers; past its end every answer is a free value. -/
  | draws (script : List Bool)
  /-- No chip: nothing drives data-in and the pull-up makes every sample 1 (R69, R236). -/
  | absent
  /-- The mock device. -/
  | mock (c : Chip)
deriving DecidableEq, Repr

/-- What the bit transport acts on: the lines, the trace, the shift register and the environment. -/
structure Bus where
  /-- `H.line` (R25) -/
  line : Lines
  /-- `T` (R10), oldest event first -/
  trace : List Event
  /-- `W.sr` (R27) -/
  sr : Byte
  /-- `W.i` (R27) -/
  i : BitVec 3
  env : Env
  /-- The model's own counter: it makes each free value a new one (entry 2). -/
  fresh : Nat
deriving DecidableEq, Repr

/-! ### Control and interface -/

/-- `rsp_code` (R30, R92): 0 = DONE, 1 = REFUSED. -/
inductive RspCode where
  | done
  | refused
deriving DecidableEq, Repr

/-- A response (R90). -/
structure Rsp where
  code : RspCode
  val : U32
deriving DecidableEq, Repr

/-- A step of an operation's pseudocode that may have to be taken up again at the next step: the model's
"position inside the pseudocode of the operation in progress" (R28) is a list of these. -/
inductive Task where
  /-- `begin`'s first loop: poll until WIP = 0 (R162). -/
  | pollWip
  /-- `begin`'s second loop: poll until SUS = 0 (R162). -/
  | pollSus
  /-- `waitUntilReady()` (R164). -/
  | gate
  /-- `OP_RSTEN`, `OP_RST`, `DLY(30)` (R162). -/
  | chipReset
  /-- `H.initialized <- 1; return 1` (R162). -/
  | finishBegin
  /-- `read8` after its wait (R175). -/
  | read8 (addr : U32)
  /-- `read16` after its wait (R176). -/
  | read16 (addr : U32)
  /-- `read32` after its wait (R177). -/
  | read32 (addr : U32)
  /-- `readBuffer` after its wait (R174). -/
  | readBuffer (addr len : U32)
  /-- The loop of `writeBuffer` and its `return len - W.rem` (R173). -/
  | writeLoop (len : U32)
  /-- The common erase sequence after its wait, with an address (R178). -/
  | eraseUnit (opcode : Byte) (addr : U32)
  /-- The same with `runCommand(OP_CE)` (R178, R179). -/
  | eraseAll
  /-- The loop of `getUsedMemory` (R184). -/
  | scan
deriving DecidableEq, Repr

/-- What the outside presents to the block. The list of these in State is the outside as data, not a queue of
the block ("There is no queue", R90; entries 7 and 8). -/
inductive Request where
  /-- A host operation (R90): its command word, the write buffer and the read buffer the host puts beside it, if
  any, and whether the caller is the blocked host (who waits while an operation is in progress) or another
  context, or code run during `YLD`, that does not wait (R202, R235). -/
  | command (word : CmdWord) (wbuf rbuf : Option (List Byte)) (blocking : Bool)
  /-- The bytes of one frame handed to the Command Framer on its own (entry 8); no host operation does this. -/
  | framer (bytes : List Byte)
deriving DecidableEq, Repr

/-- The state of the machine. -/
structure State where
  /-- `Cfg` (00_scope.md section 3); no operation writes it. -/
  cfg : Cfg
  /-- `H` (R20) -/
  h : Handle
  /-- `W` (R27) -/
  w : Work
  /-- `H.line`, `T`, `W.sr`, `W.i` and the environment. -/
  bus : Bus
  /-- `resp` (R142): what the last `readCommand` returned. -/
  resp : List Byte
  /-- `rsp_code` (R30, R92) -/
  rspCode : RspCode
  /-- `rsp_val` (R30, R92) -/
  rspVal : U32
  /-- The host's read buffer (R36). -/
  rbuf : List Byte
  /-- The host's write buffer (R36). -/
  wbuf : List Byte
  /-- The position inside the operation in progress (R28); empty when there is none. -/
  todo : List Task
  /-- The responses delivered so far, oldest first: what the host has been given (R90; entry 17). -/
  rsps : List Rsp
  /-- What the outside will present, in order (entry 7). -/
  host : List Request
  /-- Block reset "may be applied at any time" (R220): for each coming step, whether it arrives during that step and
  after how many of its events; never again where the list ends (entry 12). -/
  resets : List (Option Nat)
deriving DecidableEq, Repr

/-- Why a step could fault: never. R200: "The set of synchronous exceptions is empty." Nothing raises one, so the
type has no constructor (entry 13; safe). -/
inductive Fault where
deriving DecidableEq, Repr

/-- Why a step is refused. -/
inductive Refusal where
  /-- An arm of `exec` without a meaning; no arm is. Safe. -/
  | notModelled (mnemonic : String)
  /-- Raised by `step` alone: the bytes handed to the framer are none of the twelve frames of R105. The block never
  builds such a frame (R109), so no host operation leads here. Safe (entry 8). -/
  | undecodableFrame
deriving DecidableEq, Repr

/-- The state after block reset (R40, R223), nothing presented yet and nothing known about the chip. -/
def State.reset : State where
  cfg := Config.default
  h := Handle.reset Config.default
  w := Work.reset
  bus := { line := Lines.reset, trace := [], sr := 0, i := 0, env := .draws [], fresh := 0 }
  resp := []
  rspCode := .done
  rspVal := 0
  rbuf := []
  wbuf := []
  todo := []
  rsps := []
  host := []
  resets := []

end Sys2Proof.Machine
end

