-- ==== Sys2Proof/Machine/Memory.lean ====
section
/-! DEFINITION. The flash array as canonical (address, byte) pairs: reading, writing and erasing, and the canonical form (R50, R65, R77). -/

namespace Sys2Proof.Machine

/-- The byte at an address; one that is not listed is erased (R77). -/
def Memory.read : Memory → Nat → Byte
  | [], _ => Config.erasedByte
  | (k, v) :: m, a => if k = a then v else Memory.read m a

/-- Puts a listed byte in its place, keeping the addresses rising. -/
def Memory.insert : Memory → Nat → Byte → Memory
  | [], a, b => [(a, b)]
  | (k, v) :: m, a, b =>
    if a < k then (a, b) :: (k, v) :: m
    else if a = k then (a, b) :: m
    else (k, v) :: Memory.insert m a b

/-- Drops the entries of the `n` addresses from `lo` on: erasing them (R77). -/
def Memory.eraseRange (m : Memory) (lo n : Nat) : Memory :=
  m.filter fun c => !(decide (lo ≤ c.1) && decide (c.1 < lo + n))

/-- Writes one byte; writing the erased byte removes the entry. -/
def Memory.write (m : Memory) (a : Nat) (b : Byte) : Memory :=
  if b = Config.erasedByte then Memory.eraseRange m a 1 else Memory.insert m a b

/-- The canonical form: addresses strictly rising and inside the device (R50), and no entry equal to what an
unlisted address reads as. -/
abbrev Memory.wf (m : Memory) : Prop :=
  m.Pairwise (fun x y => x.1 < y.1) ∧ ∀ c ∈ m, c.1 < Config.capacity ∧ c.2 ≠ Config.erasedByte

end Sys2Proof.Machine
end

