-- ==== Sys2Proof/Machine/Device.lean ====
section
/-! DEFINITION. The environment behind the lines: what a sample of data-in reads and how the mock flash device of 95_test_vectors.md section 3 follows the events. It meets the device contract R67 to R79; what it adds is D28 (entry 10). -/

namespace Sys2Proof.Machine

/-! ### The mock's answers -/

/-- Byte `k` of the ID, from `k = 0`, repeating (section 3: `ID[(k-1) mod 3]`). -/
def Jedec.byte (j : Jedec) (k : Nat) : Byte :=
  match k % 3 with
  | 0 => j.id0
  | 1 => j.id1
  | _ => j.id2

/-- The primary status register: WIP in bit 0, WEL in bit `WEL_BIT` (R31). -/
def Chip.status1 (c : Chip) : Byte :=
  (if c.wip then 1 else 0) ||| (if c.wel then 1 <<< c.cfg.welBit.val else 0)

/-- The secondary status register: SUS in bit 7 (R32). -/
def Chip.status2 (c : Chip) : Byte := if c.sus then 0x80 else 0

/-- The response byte of the next exchange, fixed by the bytes of the exchanges before it (R68, R73 to R75); `none` when
the mock does not drive data-in. How the mock stands at address width 4 is the model's own choice (DESIGN CHOICE,
entry 20): it takes four address bytes without a mode command and keeps the array of CAPACITY bytes. -/
def Chip.respond (c : Chip) : List Byte → Option Byte
  | [] => none
  | op :: rest =>
    if op = c.cfg.opRdid then some (c.id.byte rest.length)
    else if op = c.cfg.opRdsr1 then some c.status1
    else if op = c.cfg.opRdsr2 then some c.status2
    else if op = c.cfg.opFastrd then
      match takeAddress c.cfg.addressWidth rest with
      | some (a, _ :: fills) =>
        if c.wip then none else some (c.mem.read ((a.toNat + fills.length) % Config.capacity))
      | _ => none
    else none

/-- The chip puts the bit of its response that is due on data-in, bit 7 of a byte first (R53), or releases it. -/
def Chip.drive (c : Chip) : Chip := { c with miso := (c.respond c.rx).map (·.getMsbD c.nbits) }

/-- The level on data-in: what the chip drives while select is low, and the pull-up's 1 when nothing drives it (R69). -/
def Chip.answer (c : Chip) : Bool := if c.sel then c.miso.getD true else true

/-! ### The mock's reaction to a frame -/

/-- `busy(n)` of section 3. -/
def Chip.startBusy (c : Chip) (n : Nat) : Chip :=
  if n = 0 then { c with wip := false, wel := false } else { c with wip := true, wel := true, cnt := n }

/-- The address that byte `i` of a program frame at `a` goes to: within the page of `a` (section 3, G6). -/
def programAddress (a : U32) (i : Nat) : Nat :=
  (a.toNat / Config.pageSize * Config.pageSize + (a.toNat + i) % Config.pageSize) % Config.capacity

/-- Programs the payload from byte `i` on: the AND of old and new (R76, G6). -/
def programBytes (a : U32) : Nat → List Byte → Memory → Memory
  | _, [], m => m
  | i, d :: ds, m =>
    let t := programAddress a i
    programBytes a (i + 1) ds (m.write t (m.read t &&& d))

/-- The first address of the unit that an erase frame at `a` erases (section 3, G6). -/
def eraseBase (unit : Nat) (a : U32) : Nat := (a.toNat - a.toNat % unit) % Config.capacity

/-- A status frame counts a busy period down (section 3). -/
def Chip.countPoll (c : Chip) : Chip :=
  match c.cnt with
  | 0 => c
  | 1 => { c with cnt := 0, wip := false, wel := false }
  | n + 2 => { c with cnt := n + 1 }

/-- A page-program frame, accepted with the latch set and at least one payload byte (R76, section 3). -/
def Chip.program (c : Chip) (rest : List Byte) : Chip :=
  match takeAddress c.cfg.addressWidth rest with
  | some (a, d :: ds) =>
    if c.wel then { c with mem := programBytes a 0 (d :: ds) c.mem, rsten := false }.startBusy c.nProg else c
  | _ => c

/-- An erase frame with an address, accepted with the latch set (R77, section 3). -/
def Chip.eraseUnit (c : Chip) (unit : Nat) (rest : List Byte) : Chip :=
  match takeAddress c.cfg.addressWidth rest with
  | some (a, []) =>
    if c.wel then { c with mem := c.mem.eraseRange (eraseBase unit a) unit, rsten := false }.startBusy c.nErase
    else c
  | _ => c

/-- A whole-chip erase frame (R77, section 3). -/
def Chip.eraseAll (c : Chip) (rest : List Byte) : Chip :=
  if c.wel ∧ rest = [] then { c with mem := [], rsten := false }.startBusy c.nErase else c

/-- The reset frame, effective only after enable-reset (R78, G7, section 3). -/
def Chip.resetIfEnabled (c : Chip) : Chip :=
  if c.rsten then { c with wip := false, wel := false, sus := false, cnt := 0, rsten := false } else c

/-- What the mock does with a frame when select is deasserted (section 3). -/
def Chip.accept (c : Chip) : List Byte → Chip
  | [] => c
  | op :: rest =>
    if op = c.cfg.opRdsr1 then (if rest = [] then c else c.countPoll)
    else if c.wip then c
    else if op = c.cfg.opWren then (if rest = [] then { c with wel := true, rsten := false } else c)
    else if op = c.cfg.opRsten then (if rest = [] then { c with rsten := true } else c)
    else if op = c.cfg.opRst then (if rest = [] then c.resetIfEnabled else c)
    else if op = c.cfg.opPp then c.program rest
    else if op = c.cfg.opSe then c.eraseUnit Config.sectorSize rest
    else if op = c.cfg.opBe32 then c.eraseUnit Config.block32Size rest
    else if op = c.cfg.opBe64 then c.eraseUnit Config.block64Size rest
    else if op = c.cfg.opCe then c.eraseAll rest
    else if op ∈ [c.cfg.opRdid, c.cfg.opRdsr2, c.cfg.opFastrd] then { c with rsten := false }
    else c

/-! ### The serial receiver -/

/-- Select driven low: a frame begins (R67), and the first bit of the response is presented before the first clock
edge (G3, R128). -/
def Chip.select (c : Chip) : Chip :=
  if c.sel then c else { c with sel := true, shift := 0, nbits := 0, rx := [] }.drive

/-- Select driven high: the frame ends and takes effect (R67, G6). In the middle of a byte (a `BEGIN` after a block
reset inside a frame) the spec does not say what the chip does: DESIGN CHOICE (entry 21), the bits of the byte
under way are dropped and the complete bytes are taken as the frame. -/
def Chip.deselect (c : Chip) : Chip :=
  if c.sel then { c.accept c.rx with sel := false, miso := none, shift := 0, nbits := 0, rx := [] } else c

/-- One bit in, at a rising clock edge while select is low (R67, G3); the eighth completes a byte. -/
def Chip.shiftIn (c : Chip) : Chip :=
  let b : Byte := (c.shift <<< 1) ||| (if c.din then 1 else 0)
  if c.nbits = 7 then { c with shift := 0, nbits := 0, rx := c.rx ++ [b] } else { c with shift := b, nbits := c.nbits + 1 }

/-- The clock driven to `v` (R67, G3): while select is low the chip takes data-out at a rising edge and changes data-in
at a falling edge; a level driven again is no edge. -/
def Chip.clock (c : Chip) (v : Bool) : Chip :=
  { (if c.sel && v && !c.clk then c.shiftIn else if c.sel && !v && c.clk then c.drive else c) with clk := v }

/-- The mock follows one event of the block. -/
def Chip.observe (c : Chip) : Event → Chip
  | .drv .cs true => c.deselect
  | .drv .cs false => c.select
  | .drv .sck v => c.clock v
  | .drv .mosi v => { c with din := v }
  | .drv .miso _ => c
  | .drv .wp _ => c
  | .drv .hold _ => c
  | .dir _ _ => c
  | .smp _ _ => c
  | .dly _ => c
  | .yld => c

/-! ### The environment -/

/-- The environment follows one event of the block. -/
def Env.observe (e : Env) (ev : Event) : Env :=
  match e with
  | .draws script => .draws script
  | .absent => .absent
  | .mock c => .mock (c.observe ev)

/-- What `SMP(MISO)` reads now (R10, R69). -/
def Env.answer (e : Env) (fresh : Nat) : Bool :=
  match e with
  | .draws [] => Config.freeSample fresh
  | .draws (b :: _) => b
  | .absent => true
  | .mock c => c.answer

/-- The environment after an answer: a script moves on. -/
def Env.advance : Env → Env
  | .draws script => .draws script.tail
  | .absent => .absent
  | .mock c => .mock c

/-- The environment after a whole run of events (used when block reset cuts a run short, R220). -/
def Env.replay (e : Env) : List Event → Env
  | [] => e
  | .smp l v :: evs => Env.replay (e.observe (.smp l v)).advance evs
  | .dir l m :: evs => Env.replay (e.observe (.dir l m)) evs
  | .drv l v :: evs => Env.replay (e.observe (.drv l v)) evs
  | .dly n :: evs => Env.replay (e.observe (.dly n)) evs
  | .yld :: evs => Env.replay (e.observe .yld) evs

end Sys2Proof.Machine
end

