-- ==== Sys2Proof/Machine/Flags.lean ====
section
/-! DEFINITION. The status bits the block looks at (R31, R32, R162, R164, R165). The block has no condition codes and no operation sets a flag by arithmetic (R33). -/

namespace Sys2Proof.Machine

/-- `W.status[WIP_BIT] = 0`, bit 0 of the primary status register (R7, R31). -/
def wipClear (status : Byte) : Bool := !status.getLsbD 0

/-- `W.status[SUS_BIT] = 0`, bit 7 of the secondary status register (R7, R32). -/
def susClear (status : Byte) : Bool := !status.getLsbD 7

/-- `(1 << WIP_BIT) | (1 << WEL_BIT)` (R164). -/
def readyMask (c : Cfg) : Byte := 1 ||| (1 <<< c.welBit.val)

/-- The ready predicate (R164, R165): WIP and WEL both 0 in one primary status byte. -/
def isReady (c : Cfg) (status : Byte) : Bool := status &&& readyMask c == 0

/-- The success flag of a DONE response that carries one (R33, R92): always 1 (R203). -/
def successFlag : U32 := 1

end Sys2Proof.Machine
end

