-- ==== Sys2Proof/Machine/Operands.lean ====
section
/-! DEFINITION. The operand computations of the operations: erase addresses (R102), the chunk law (R172), typed-read assembly (R55), JEDEC composition (R56), bytes of the write buffer (R36), and the bits of a byte in wire order (R53). -/

namespace Sys2Proof.Machine

/-- R102: `A = (index * unit) mod 2^32`. -/
def eraseAddress (unit : Nat) (idx : U32) : U32 := idx * BitVec.ofNat 32 unit

/-- R172: `chunk = min(remaining, 256 - (address mod 256))`. -/
def chunkSize (addr rem : U32) : BitVec 9 :=
  BitVec.ofNat 9 (min rem.toNat (Config.pageSize - addr.toNat % Config.pageSize))

/-- R175: `zext_32(t[0])`. -/
def loadByte (t : List Byte) : U32 := (t.getD 0 0).setWidth 32

/-- R176, R55: `zext_32(t[0] | t[1] << 8)`. -/
def loadHalf (t : List Byte) : U32 := (t.getD 0 0).setWidth 32 ||| ((t.getD 1 0).setWidth 32 <<< 8)

/-- R177, R55: `t[0] | t[1] << 8 | t[2] << 16 | t[3] << 24`. -/
def loadWord (t : List Byte) : U32 :=
  (t.getD 0 0).setWidth 32 ||| ((t.getD 1 0).setWidth 32 <<< 8) ||| ((t.getD 2 0).setWidth 32 <<< 16) |||
    ((t.getD 3 0).setWidth 32 <<< 24)

/-- R186, R56: `ID[0]<<16 | ID[1]<<8 | ID[2]`, bits 31:24 zero. -/
def Jedec.compose (j : Jedec) : U32 :=
  (j.id0.setWidth 32 <<< 16) ||| (j.id1.setWidth 32 <<< 8) ||| j.id2.setWidth 32

/-- The three bytes of `readJEDEC` as an ID, in the order received (R154, R162). -/
def Jedec.ofBytes (t : List Byte) : Jedec := ⟨t.getD 0 0, t.getD 1 0, t.getD 2 0⟩

/-- `wbuf[i]` (R13); a byte the host did not supply is a free value (R227; entry 6). -/
def hostByte (buf : List Byte) (fresh i : Nat) : Byte := (buf[i]?).getD (Config.freeHostByte fresh i)

/-- `buf[pos .. pos + n - 1]` (R125, R150). An index past `2^32 - 1`, where R12 would wrap `pos + k` and R150's prose
counts on, is not settled by the spec: DESIGN CHOICE (entry 22), the index is a natural number and counts on. -/
def hostBytes (buf : List Byte) (fresh pos n : Nat) : List Byte :=
  (List.range n).map fun k => hostByte buf fresh (pos + k)

/-- R36: the received bytes go to `rbuf[0 .. n-1]`; "bytes of `rbuf` at index `n` and above are unchanged". -/
def storeAtFront (data buf : List Byte) : List Byte := data ++ buf.drop data.length

/-- The bits of a byte in wire order, bit 7 first (R53). -/
def byteBits (b : Byte) : List Bool := (List.range 8).map b.getMsbD

/-- The bits of a byte sequence in wire order. -/
def wireBits (bs : List Byte) : List Bool := bs.flatMap byteBits

end Sys2Proof.Machine
end

