-- ==== Sys2Proof/Machine/Trace.lean ====
section
/-! DEFINITION. What a bit cell, a byte exchange and a frame look like in the trace (R15, R93, R122 to R124): the event sequences of the spec's frame notation [t0 t1 ...] -> [r0 r1 ...], written down apart from the machine that emits them. -/

namespace Sys2Proof.Machine

/-- The delay after a clock edge: none when the half-period is 0 (R122). -/
def delayEvents (hp : U32) : List Event := if hp = 0 then [] else [.dly hp]

/-- R122: high, delay, low, delay. -/
def pulseEvents (hp : U32) : List Event :=
  .drv .sck true :: (delayEvents hp ++ .drv .sck false :: delayEvents hp)

/-- R123: one bit each way, the sample before the clock pulse. -/
def cellEvents (hp : U32) (out inp : Bool) : List Event := .drv .mosi out :: .smp .miso inp :: pulseEvents hp

/-- R124: eight bit cells, bit 7 first. -/
def byteEvents (hp : U32) (tx rx : Byte) : List Event :=
  (List.range 8).flatMap fun i => cellEvents hp (tx.getMsbD i) (rx.getMsbD i)

/-- Byte exchanges in order. -/
def exchangeEvents (hp : U32) : List Byte → List Byte → List Event
  | t :: ts, r :: rs => byteEvents hp t r ++ exchangeEvents hp ts rs
  | _, _ => []

/-- R15: a frame, from `DRV(CS, 0)` to `DRV(CS, 1)`. -/
def frameEvents (hp : U32) (tx rx : List Byte) : List Event :=
  .drv .cs false :: (exchangeEvents hp tx rx ++ [.drv .cs true])

/-- R163: the eleven events of `configureLines`, in the order of D5. -/
def configEvents : List Event :=
  [.dir .cs .out, .drv .cs true, .dir .sck .out, .drv .sck false, .dir .mosi .out, .drv .mosi false,
    .dir .miso .inPullup, .dir .wp .out, .drv .wp true, .dir .hold .out, .drv .hold true]

end Sys2Proof.Machine
end

