-- ==== Sys2Proof/Machine/Ops.lean ====
section
/-! DEFINITION. The shared operations: emitting an event, sampling, the bit transport (R120 to R125), frames (R94 to R98, R140 to R154), and accepting, finishing and refusing a host operation (R90, R202). The block raises no exception (R200): a refusal is the nearest thing, and it saves nothing and returns nowhere. -/

namespace Sys2Proof.Machine

/-! ### Lines and events -/

/-- `H.line[l]`. -/
def Lines.get (x : Lines) : Line → LineState
  | .cs => x.cs
  | .sck => x.sck
  | .mosi => x.mosi
  | .miso => x.miso
  | .wp => x.wp
  | .hold => x.hold

/-- `H.line[l] <- v`. -/
def Lines.set (x : Lines) (l : Line) (v : LineState) : Lines :=
  match l with
  | .cs => { x with cs := v }
  | .sck => { x with sck := v }
  | .mosi => { x with mosi := v }
  | .miso => { x with miso := v }
  | .wp => { x with wp := v }
  | .hold => { x with hold := v }

/-- The direction a `DIR` event gives a line. -/
def Mode.dir : Mode → LineDir
  | .out => .out
  | .inPullup => .inPullup

/-- R25: `H.line[l]` is "the argument of the last `DIR(l, m)` and of the last `DRV(l, v)`". -/
def Lines.after (x : Lines) : Event → Lines
  | .dir l m => x.set l { x.get l with dir := m.dir }
  | .drv l v => x.set l { x.get l with level := some v }
  | .smp _ _ => x
  | .dly _ => x
  | .yld => x

/-- `emit e` (R10): the trace grows by `e`, the line state follows, and the environment sees it. -/
def Bus.emit (e : Event) (b : Bus) : Bus :=
  { b with trace := b.trace ++ [e], line := b.line.after e, env := b.env.observe e }

/-- `emit` for each event of a list, in order. -/
def Bus.emitAll (es : List Event) (b : Bus) : Bus := es.foldl (fun b e => b.emit e) b

/-- The level that `sample(MISO)` reads (R10). -/
def Bus.level (b : Bus) : Bool := b.env.answer b.fresh

/-- `v <- sample(MISO)` (R10) emits `SMP(MISO) = v`; the environment moves on. -/
def Bus.sample (b : Bus) : Bus :=
  let b' := b.emit (.smp .miso b.level)
  { b' with env := b'.env.advance, fresh := b'.fresh + 1 }

/-! ### Bit Transport (40_bit_transport.md) -/

/-- R120. -/
def Bus.selectAssert (b : Bus) : Bus := b.emit (.drv .cs false)

/-- R121. -/
def Bus.selectDeassert (b : Bus) : Bus := b.emit (.drv .cs true)

/-- The delay after a clock edge (R122): "if hp != 0 then emit DLY(hp)". -/
def Bus.halfCycle (hp : U32) (b : Bus) : Bus := if hp = 0 then b else b.emit (.dly hp)

/-- R122. -/
def Bus.clockPulse (hp : U32) (b : Bus) : Bus :=
  (((b.emit (.drv .sck true)).halfCycle hp).emit (.drv .sck false)).halfCycle hp

/-- `W.sr <- v`. -/
def Bus.setSr (v : Byte) (b : Bus) : Bus := { b with sr := v }

/-- R123, R124: one bit cell: drive the top bit, shift left, sample, OR into the vacated low bit, pulse. -/
def Bus.bitCell (hp : U32) (i : BitVec 3) (b : Bus) : Bus :=
  let b1 := { b with i := i }.emit (.drv .mosi b.sr.msb)
  let b2 := b1.setSr (b1.sr <<< 1)
  let b3 := b2.sample
  (b3.setSr (b3.sr ||| (if b2.level then 1 else 0))).clockPulse hp

/-- `for W.i in 0 .. 7` (R124). -/
def cellIndices : List (BitVec 3) := [0, 1, 2, 3, 4, 5, 6, 7]

/-- R124: the byte received is left in `W.sr`. -/
def Bus.transferByte (hp : U32) (out : Byte) (b : Bus) : Bus :=
  cellIndices.foldl (fun b i => b.bitCell hp i) (b.setSr out)

/-- Consecutive byte exchanges: the bytes received, in order, and the bus after them. -/
def Bus.exchange (hp : U32) : List Byte → Bus → List Byte × Bus
  | [], b => ([], b)
  | t :: ts, b =>
    let b1 := b.transferByte hp t
    let r := Bus.exchange hp ts b1
    (b1.sr :: r.1, r.2)

/-- A frame (R15, R93): select asserted, the byte exchanges, select deasserted; the bytes received and the bus. -/
def Bus.frame (hp : U32) (tx : List Byte) (b : Bus) : List Byte × Bus :=
  let r := Bus.exchange hp tx b.selectAssert
  (r.1, r.2.selectDeassert)

/-! ### The same on the state -/

/-- Emits one event. -/
def State.emit (e : Event) (s : State) : State := { s with bus := s.bus.emit e }

/-- `hp` of R122. -/
def State.hp (s : State) : U32 := s.h.clockHalfPeriod

/-- Byte exchanges without select (R125, R146). -/
def State.exchange (tx : List Byte) (s : State) : List Byte × State :=
  let r := s.bus.exchange s.hp tx
  (r.1, { s with bus := r.2 })

/-- A frame of the Command Framer: the bytes received and the state after it. -/
def State.frame (tx : List Byte) (s : State) : List Byte × State :=
  let r := s.bus.frame s.hp tx
  (r.1, { s with bus := r.2 })

/-! ### Command Framer (41_command_framer.md) -/

/-- `runCommand(opcode)` (R140), format F0 (R94). -/
def runCommand (op : Byte) (s : State) : State := (s.frame [op]).2

/-- The bytes of format F1 (R95). -/
def responseFrame (op : Byte) (n : Nat) : List Byte := op :: List.replicate n Config.fill

/-- `readCommand(opcode, length)` (R142), format F1 (R95): the response is left in `resp`. -/
def readCommand (op : Byte) (n : Nat) (s : State) : State :=
  let r := s.frame (responseFrame op n)
  { r.2 with resp := r.1.drop 1 }

/-- The bytes of format F2 (R96). -/
def addressFrame (aw : AddrWidth) (op : Byte) (a : U32) : List Byte := op :: addressBytes aw a

/-- `eraseCommand(opcode, address)` (R144), format F2 (R96). -/
def eraseCommand (op : Byte) (a : U32) (s : State) : State := (s.frame (addressFrame s.h.addressWidth op a)).2

/-- The bytes of format F3 (R97). -/
def readFrame (c : Cfg) (aw : AddrWidth) (a : U32) (n : Nat) : List Byte :=
  c.opFastrd :: (addressBytes aw a ++ c.dummy :: List.replicate n Config.fill)

/-- `readMemory` into a buffer of the caller's (R148), format F3 (R97): the data bytes and the state. -/
def readBytes (a : U32) (n : Nat) (s : State) : List Byte × State :=
  let r := s.frame (readFrame s.cfg s.h.addressWidth a n)
  (r.1.drop (s.h.addressWidth.bytes + 2), r.2)

/-- `readMemory(address, length)` into `rbuf` (R148, R36). -/
def readMemory (a : U32) (n : Nat) (s : State) : State :=
  let r := readBytes a n s
  { r.2 with rbuf := storeAtFront r.1 r.2.rbuf }

/-- The bytes of format F4 (R98). -/
def programFrame (c : Cfg) (aw : AddrWidth) (a : U32) (payload : List Byte) : List Byte :=
  c.opPp :: (addressBytes aw a ++ payload)

/-- `writeMemory` with a payload (R150), format F4 (R98); the responses are discarded and no buffer changes. -/
def programBuffer (a : U32) (payload : List Byte) (s : State) : State :=
  (s.frame (programFrame s.cfg s.h.addressWidth a payload)).2

/-- `wbuf[pos .. pos + n - 1]` now (R150; past `2^32 - 1` the indices count on, DESIGN CHOICE, entry 22). -/
def State.payload (s : State) (n : Nat) : List Byte := hostBytes s.wbuf s.bus.fresh s.w.pos.toNat n

/-- `writeMemory(address, wbuf[W.pos ..], length)` (R150). -/
def writeMemory (a : U32) (n : Nat) (s : State) : State := programBuffer a (s.payload n) s

/-- `readStatus1()` (R152); the byte is also `W.status`, "the last status byte read" (R27). -/
def readStatus1 (s : State) : State :=
  let s1 := readCommand s.cfg.opRdsr1 1 s
  { s1 with w := { s1.w with status := s1.resp.getD 0 0 } }

/-- `readStatus2()` (R153). -/
def readStatus2 (s : State) : State :=
  let s1 := readCommand s.cfg.opRdsr2 1 s
  { s1 with w := { s1.w with status := s1.resp.getD 0 0 } }

/-- `readJEDEC()` (R154). -/
def readJedec (s : State) : State := readCommand s.cfg.opRdid 3 s

/-- `writeEnable()` (R166). -/
def writeEnable (s : State) : State := runCommand s.cfg.opWren s

/-- `configureLines()` (R163). -/
def configureLines (s : State) : State := { s with bus := s.bus.emitAll configEvents }

/-! ### Accepting, finishing, refusing (R90, R202) -/

/-- Delivers a response (R30, R90). -/
def State.respond (code : RspCode) (v : U32) (s : State) : State :=
  { s with rspCode := code, rspVal := v, rsps := s.rsps ++ [⟨code, v⟩] }

/-- `return v` of a host operation: the DONE response, and `H.busy` is cleared (R90). -/
def finish (v : U32) (s : State) : State :=
  { s.respond .done v with h := { s.h with busy := false } }

/-- R202: `rsp_code` = REFUSED, `rsp_val` unspecified (a free value, entry 5), no event, nothing else changes. -/
def refuse (s : State) : State :=
  let s1 := s.respond .refused (Config.freeRspVal s.bus.fresh)
  { s1 with bus := { s1.bus with fresh := s1.bus.fresh + 1 } }

/-- R202's tests for an operation whose code is not reserved, in order: busy, then uninitialised (which `BEGIN`
is exempt from). An accepted operation sets `H.busy` and runs its body (R90). -/
def acceptOp (needsInit : Bool) (body : State → State) (s : State) : State :=
  if s.h.busy then refuse s
  else if needsInit && !s.h.initialized then refuse s
  else body { s with h := { s.h with busy := true } }

end Sys2Proof.Machine
end

