-- ==== Sys2Proof/Machine/Frames.lean ====
section
/-! DEFINITION. The twelve wire frames of R105, each emitted on its own. -/

namespace Sys2Proof.Machine

/-- Frame `RDID` (R105, R154): the three ID bytes are left in `resp`; storing them is `begin`'s (R23). -/
def execRdid (s : State) : Host.Outcome State Fault Refusal := .next (readCommand s.cfg.opRdid 3 s)

/-- Frame `RDSR1` (R105, R152). -/
def execRdsr1 (s : State) : Host.Outcome State Fault Refusal := .next (readStatus1 s)

/-- Frame `RDSR2` (R105, R153). -/
def execRdsr2 (s : State) : Host.Outcome State Fault Refusal := .next (readStatus2 s)

/-- Frame `RSTEN` (R105, R140). -/
def execRsten (s : State) : Host.Outcome State Fault Refusal := .next (runCommand s.cfg.opRsten s)

/-- Frame `RST` (R105, R140). -/
def execRst (s : State) : Host.Outcome State Fault Refusal := .next (runCommand s.cfg.opRst s)

/-- Frame `WREN` (R105, R166). -/
def execWren (s : State) : Host.Outcome State Fault Refusal := .next (runCommand s.cfg.opWren s)

/-- Frame `FASTRD` (R105, R148): the data bytes go to `rbuf` (R97). -/
def execFastrd (a n : U32) (s : State) : Host.Outcome State Fault Refusal := .next (readMemory a n.toNat s)

/-- Frame `PP` (R105, R150). -/
def execPp (a : U32) (payload : List Byte) (s : State) : Host.Outcome State Fault Refusal :=
  .next (programBuffer a payload s)

/-- Frame `SE` (R105, R144). -/
def execSe (a : U32) (s : State) : Host.Outcome State Fault Refusal := .next (eraseCommand s.cfg.opSe a s)

/-- Frame `BE32` (R105, R144). -/
def execBe32 (a : U32) (s : State) : Host.Outcome State Fault Refusal := .next (eraseCommand s.cfg.opBe32 a s)

/-- Frame `BE64` (R105, R144). -/
def execBe64 (a : U32) (s : State) : Host.Outcome State Fault Refusal := .next (eraseCommand s.cfg.opBe64 a s)

/-- Frame `CE` (R105, R140). -/
def execCe (s : State) : Host.Outcome State Fault Refusal := .next (runCommand s.cfg.opCe s)

end Sys2Proof.Machine
end

