-- ==== Sys2Proof/Machine/Sequencer.lean ====
section
/-! DEFINITION. The Sequencer (42_sequencer.md): its loops and the steps after them, the twelve host operations and the four reserved codes. A step of the machine runs an operation until it has delivered its response or has made one more pass of one of the four loops that have no bound (R161): it stops there and the next step takes the loop up again, so a hang is an infinite execution (R206; entry 1). -/

namespace Sys2Proof.Machine

/-- The result of a task: go on with the next one, or wait and take this one up again at the next step. -/
inductive Progress where
  | goOn (s : State)
  | wait (s : State)
deriving DecidableEq, Repr

/-- One pass of `waitUntilReady()` (R164): poll, test, yield when not ready. -/
def pollReady (s : State) : Progress :=
  let s1 := readStatus1 s
  if isReady s1.cfg s1.w.status then .goOn s1 else .wait (s1.emit .yld)

/-- One pass of `begin`'s first loop (R162): no yield. -/
def pollWip (s : State) : Progress :=
  let s1 := readStatus1 s
  if wipClear s1.w.status then .goOn s1 else .wait s1

/-- One pass of `begin`'s second loop (R162): no yield. -/
def pollSus (s : State) : Progress :=
  let s1 := readStatus2 s
  if susClear s1.w.status then .goOn s1 else .wait s1

/-- Enable-reset, reset, 30 microseconds (R162). -/
def chipReset (s : State) : State :=
  (runCommand s.cfg.opRst (runCommand s.cfg.opRsten s)).emit (.dly Config.resetDelayUs)

/-- `W.chunk <- min(W.rem, PAGE_SIZE - (W.addr mod PAGE_SIZE))` (R173). -/
def setChunk (s : State) : State := { s with w := { s.w with chunk := chunkSize s.w.addr s.w.rem } }

/-- The body of `writeBuffer`'s loop after its wait (R173): write-enable, one program frame, advance. -/
def writeChunk (s : State) : State :=
  let s1 := writeMemory s.w.addr s.w.chunk.toNat (writeEnable s)
  let n := s1.w.chunk.setWidth 32
  { s1 with w := { s1.w with addr := s1.w.addr + n, pos := s1.w.pos + n, rem := s1.w.rem - n } }

/-- `while W.rem != 0` of `writeBuffer`, then `return len - W.rem` (R173). Each pass writes at least one byte, so
as many passes as `W.rem` says are enough; the bound is the model's recursion, not the block's. -/
def writeLoop (len : U32) : Nat → State → Progress
  | 0, s => .goOn (finish (len - s.w.rem) s)
  | n + 1, s =>
    if s.w.rem = 0 then .goOn (finish (len - s.w.rem) s)
    else
      match pollReady (setChunk s) with
      | .wait s1 => .wait s1
      | .goOn s1 => writeLoop len n (writeChunk s1)

/-- One pass of `getUsedMemory`'s loop (R184): a `read32` with its own wait; the address of the first all-ones
word is the result, and otherwise the scan goes on at the next step. -/
def scanWord (s : State) : Progress :=
  match pollReady s with
  | .wait s1 => .wait s1
  | .goOn s1 =>
    let r := readBytes s1.w.addr 4 s1
    let s2 := { r.2 with w := { r.2.w with word := loadWord r.1 } }
    if s2.w.word = Config.erasedWord then .goOn (finish s2.w.addr s2)
    else .wait { s2 with w := { s2.w with addr := s2.w.addr + 4 } }

/-- Runs one task. -/
def runTask : Task → State → Progress
  | .pollWip, s => pollWip s
  | .pollSus, s => pollSus s
  | .gate, s => pollReady s
  | .chipReset, s => .goOn (chipReset s)
  | .finishBegin, s => .goOn (finish successFlag { s with h := { s.h with initialized := true } })
  | .read8 a, s =>
    let r := readBytes a 1 s
    .goOn (finish (loadByte r.1) r.2)
  | .read16 a, s =>
    let r := readBytes a 2 s
    .goOn (finish (loadHalf r.1) r.2)
  | .read32 a, s =>
    let r := readBytes a 4 s
    .goOn (finish (loadWord r.1) r.2)
  | .readBuffer a n, s => .goOn (finish n (readMemory a n.toNat s))
  | .writeLoop len, s => writeLoop len s.w.rem.toNat s
  | .eraseUnit op a, s => .goOn (finish successFlag (eraseCommand op a (writeEnable s)))
  | .eraseAll, s => .goOn (finish successFlag (runCommand s.cfg.opCe (writeEnable s)))
  | .scan, s => scanWord s

/-- Runs the tasks in order. One that has to wait is left, with those after it, in front of `todo`. -/
def runTasks : List Task → State → State
  | [], s => s
  | t :: ts, s =>
    match runTask t s with
    | .goOn s1 => runTasks ts s1
    | .wait s1 => { s1 with todo := t :: (ts ++ s1.todo) }

/-- Takes the operation in progress up again; with none, the block waits and nothing changes (R224). -/
def resume (s : State) : State := runTasks s.todo { s with todo := [] }

/-- An operation is in progress (R28, R29). -/
def State.inProgress (s : State) : Bool := s.h.busy || !s.todo.isEmpty

/-! ### The host operations -/

/-- Everything of `begin` before its first loop (R162): the half-period first, then the lines, then the ID. -/
def bringUp (hp : U32) (s : State) : State :=
  let s1 := readJedec (configureLines { s with h := { s.h with clockHalfPeriod := hp } })
  { s1 with h := { s1.h with jedec := Jedec.ofBytes s1.resp } }

/-- What is left of `begin` after `bringUp` (R162, R226). -/
def beginTasks : List Task := [.pollWip, .pollSus, .chipReset, .gate, .finishBegin]

/-- `BEGIN hp` (R162). -/
def execBegin (hp : U32) (s : State) : Host.Outcome State Fault Refusal :=
  .next (acceptOp false (fun s => runTasks beginTasks (bringUp hp s)) s)

/-- `IDENT` (R186): no event. -/
def execIdent (s : State) : Host.Outcome State Fault Refusal :=
  .next (acceptOp true (fun s => finish s.h.jedec.compose s) s)

/-- `RD8 addr` (R175). -/
def execRd8 (a : U32) (s : State) : Host.Outcome State Fault Refusal :=
  .next (acceptOp true (runTasks [.gate, .read8 a]) s)

/-- `RD16 addr` (R176). -/
def execRd16 (a : U32) (s : State) : Host.Outcome State Fault Refusal :=
  .next (acceptOp true (runTasks [.gate, .read16 a]) s)

/-- `RD32 addr` (R177). -/
def execRd32 (a : U32) (s : State) : Host.Outcome State Fault Refusal :=
  .next (acceptOp true (runTasks [.gate, .read32 a]) s)

/-- `RDBUF addr, len` (R174). -/
def execRdbuf (a n : U32) (s : State) : Host.Outcome State Fault Refusal :=
  .next (acceptOp true (runTasks [.gate, .readBuffer a n]) s)

/-- `W.addr <- addr; W.pos <- 0; W.rem <- len` (R173). -/
def startWrite (a n : U32) (s : State) : State := { s with w := { s.w with addr := a, pos := 0, rem := n } }

/-- `WRBUF addr, len, [wbuf]` (R173). -/
def execWrbuf (a n : U32) (s : State) : Host.Outcome State Fault Refusal :=
  .next (acceptOp true (fun s => runTasks [.writeLoop n] (startWrite a n s)) s)

/-- `ERCHIP` (R179). -/
def execErchip (s : State) : Host.Outcome State Fault Refusal :=
  .next (acceptOp true (runTasks [.gate, .eraseAll]) s)

/-- `ERSEC idx` (R180). -/
def execErsec (k : U32) (s : State) : Host.Outcome State Fault Refusal :=
  .next (acceptOp true (runTasks [.gate, .eraseUnit s.cfg.opSe (eraseAddress Config.sectorSize k)]) s)

/-- `ERB32 idx` (R181). -/
def execErb32 (k : U32) (s : State) : Host.Outcome State Fault Refusal :=
  .next (acceptOp true (runTasks [.gate, .eraseUnit s.cfg.opBe32 (eraseAddress Config.block32Size k)]) s)

/-- `ERB64 idx` (R182). -/
def execErb64 (k : U32) (s : State) : Host.Outcome State Fault Refusal :=
  .next (acceptOp true (runTasks [.gate, .eraseUnit s.cfg.opBe64 (eraseAddress Config.block64Size k)]) s)

/-- `USED` (R184): `W.addr <- 0`, then the scan. -/
def execUsed (s : State) : Host.Outcome State Fault Refusal :=
  .next (acceptOp true (fun s => runTasks [.scan] { s with w := { s.w with addr := 0 } }) s)

/-- `cmd_op` = 0xC (R107): refused, whatever the state (R202). -/
def execReservedC (s : State) : Host.Outcome State Fault Refusal := .next (refuse s)

/-- `cmd_op` = 0xD (R107). -/
def execReservedD (s : State) : Host.Outcome State Fault Refusal := .next (refuse s)

/-- `cmd_op` = 0xE (R107). -/
def execReservedE (s : State) : Host.Outcome State Fault Refusal := .next (refuse s)

/-- `cmd_op` = 0xF (R107). -/
def execReservedF (s : State) : Host.Outcome State Fault Refusal := .next (refuse s)

end Sys2Proof.Machine
end

