-- ==== Sys2Proof/Machine/Internal.lean ====
section
/-! DEFINITION. The thirteen internal operations of R106 and the four helper names, each run on its own. They are called from inside the block; the host cannot issue them, so none tests H.busy or H.initialized. -/

namespace Sys2Proof.Machine

/-- `selectAssert()` (R120). -/
def execSelectAssert (s : State) : Host.Outcome State Fault Refusal := .next { s with bus := s.bus.selectAssert }

/-- `selectDeassert()` (R121). -/
def execSelectDeassert (s : State) : Host.Outcome State Fault Refusal := .next { s with bus := s.bus.selectDeassert }

/-- `clockPulse()` (R122). -/
def execClockPulse (s : State) : Host.Outcome State Fault Refusal := .next { s with bus := s.bus.clockPulse s.hp }

/-- `transferByte(out)` (R124): the byte received is `W.sr`. -/
def execTransferByte (out : Byte) (s : State) : Host.Outcome State Fault Refusal :=
  .next { s with bus := s.bus.transferByte s.hp out }

/-- `transferBuffer(rbuf, count)` (R125): in place; `W.pos` runs from 0 to `count - 1`. -/
def execTransferBuffer (count : U32) (s : State) : Host.Outcome State Fault Refusal :=
  let r := s.exchange (hostBytes s.rbuf s.bus.fresh 0 count.toNat)
  .next { r.2 with
    rbuf := storeAtFront r.1 r.2.rbuf
    w := { r.2.w with pos := if count = 0 then r.2.w.pos else count - 1 } }

/-- `runCommand(opcode)` (R140). -/
def execRunCommand (op : Byte) (s : State) : Host.Outcome State Fault Refusal := .next (runCommand op s)

/-- `readCommand(opcode, length)` (R142). -/
def execReadCommand (op : Byte) (n : U32) (s : State) : Host.Outcome State Fault Refusal :=
  .next (readCommand op n.toNat s)

/-- `eraseCommand(opcode, address)` (R144). -/
def execEraseCommand (op : Byte) (a : U32) (s : State) : Host.Outcome State Fault Refusal :=
  .next (eraseCommand op a s)

/-- `readMemory(address, length)` (R148). -/
def execReadMemory (a n : U32) (s : State) : Host.Outcome State Fault Refusal := .next (readMemory a n.toNat s)

/-- `writeMemory(address, data, length)` (R150). -/
def execWriteMemory (a n : U32) (s : State) : Host.Outcome State Fault Refusal := .next (writeMemory a n.toNat s)

/-- `waitUntilReady()` (R164): one pass; when the chip is not ready it is taken up again at the next step. -/
def execWaitUntilReady (s : State) : Host.Outcome State Fault Refusal := .next (runTasks [.gate] s)

/-- `writeEnable()` (R166). -/
def execWriteEnable (s : State) : Host.Outcome State Fault Refusal := .next (writeEnable s)

/-- `configureLines()` (R163). -/
def execConfigureLines (s : State) : Host.Outcome State Fault Refusal := .next (configureLines s)

/-- `addressPhase(address)` (R146): the address bytes without select, the responses discarded. -/
def execAddressPhase (a : U32) (s : State) : Host.Outcome State Fault Refusal :=
  .next (s.exchange (addressBytes s.h.addressWidth a)).2

/-- `readStatus1()` (R152). -/
def execReadStatus1 (s : State) : Host.Outcome State Fault Refusal := .next (readStatus1 s)

/-- `readStatus2()` (R153). -/
def execReadStatus2 (s : State) : Host.Outcome State Fault Refusal := .next (readStatus2 s)

/-- `readJEDEC()` (R154). -/
def execReadJedec (s : State) : Host.Outcome State Fault Refusal := .next (readJedec s)

end Sys2Proof.Machine
end

