-- ==== Sys2Proof/Machine/Dispatch.lean ====
section
/-! DEFINITION. exec: one arm per row of the opcode table. -/

namespace Sys2Proof.Machine

def exec (i : Instr) (s : State) : Host.Outcome State Fault Refusal :=
  match i with
  -- host operations (R104)
  | .beginOp hp => Sys2Proof.Machine.execBegin hp s
  | .ident => Sys2Proof.Machine.execIdent s
  | .rd8 addr => Sys2Proof.Machine.execRd8 addr s
  | .rd16 addr => Sys2Proof.Machine.execRd16 addr s
  | .rd32 addr => Sys2Proof.Machine.execRd32 addr s
  | .rdbuf addr len => Sys2Proof.Machine.execRdbuf addr len s
  | .wrbuf addr len => Sys2Proof.Machine.execWrbuf addr len s
  | .erchip => Sys2Proof.Machine.execErchip s
  | .ersec idx => Sys2Proof.Machine.execErsec idx s
  | .erb32 idx => Sys2Proof.Machine.execErb32 idx s
  | .erb64 idx => Sys2Proof.Machine.execErb64 idx s
  | .used => Sys2Proof.Machine.execUsed s
  -- reserved codes (R107)
  | .reservedC => Sys2Proof.Machine.execReservedC s
  | .reservedD => Sys2Proof.Machine.execReservedD s
  | .reservedE => Sys2Proof.Machine.execReservedE s
  | .reservedF => Sys2Proof.Machine.execReservedF s
  -- wire frames (R105)
  | .rdid => Sys2Proof.Machine.execRdid s
  | .rdsr1 => Sys2Proof.Machine.execRdsr1 s
  | .rdsr2 => Sys2Proof.Machine.execRdsr2 s
  | .rsten => Sys2Proof.Machine.execRsten s
  | .rst => Sys2Proof.Machine.execRst s
  | .wren => Sys2Proof.Machine.execWren s
  | .fastrd addr len => Sys2Proof.Machine.execFastrd addr len s
  | .pp addr payload => Sys2Proof.Machine.execPp addr payload s
  | .se addr => Sys2Proof.Machine.execSe addr s
  | .be32 addr => Sys2Proof.Machine.execBe32 addr s
  | .be64 addr => Sys2Proof.Machine.execBe64 addr s
  | .ce => Sys2Proof.Machine.execCe s
  -- internal operations and helpers (R106)
  | .selectAssert => Sys2Proof.Machine.execSelectAssert s
  | .selectDeassert => Sys2Proof.Machine.execSelectDeassert s
  | .clockPulse => Sys2Proof.Machine.execClockPulse s
  | .transferByte out => Sys2Proof.Machine.execTransferByte out s
  | .transferBuffer count => Sys2Proof.Machine.execTransferBuffer count s
  | .runCommand opcode => Sys2Proof.Machine.execRunCommand opcode s
  | .readCommand opcode length => Sys2Proof.Machine.execReadCommand opcode length s
  | .eraseCommand opcode address => Sys2Proof.Machine.execEraseCommand opcode address s
  | .readMemory address length => Sys2Proof.Machine.execReadMemory address length s
  | .writeMemory address length => Sys2Proof.Machine.execWriteMemory address length s
  | .waitUntilReady => Sys2Proof.Machine.execWaitUntilReady s
  | .writeEnable => Sys2Proof.Machine.execWriteEnable s
  | .configureLines => Sys2Proof.Machine.execConfigureLines s
  | .addressPhase address => Sys2Proof.Machine.execAddressPhase address s
  | .readStatus1 => Sys2Proof.Machine.execReadStatus1 s
  | .readStatus2 => Sys2Proof.Machine.execReadStatus2 s
  | .readJEDEC => Sys2Proof.Machine.execReadJedec s

end Sys2Proof.Machine
end

