-- ==== Sys2Proof/Machine/Fetch.lean ====
section
/-! DEFINITION. Taking the next request from outside, and block reset at any moment of a run (R90, R220). -/

namespace Sys2Proof.Machine

/-- The host's buffers beside a command: they become `wbuf` and `rbuf`, unless an operation is in progress, which is
not disturbed (R36, R90, R202). -/
def takeBuffers (wb rb : Option (List Byte)) (s : State) : State :=
  if s.h.busy then s else { s with wbuf := wb.getD s.wbuf, rbuf := rb.getD s.rbuf }

/-- The request to deal with now, if any, and the state without it: a blocking caller waits while an operation
is in progress (R90), any other request is taken at once. -/
def fetch (s : State) : Option (Packet × State) :=
  match s.host with
  | [] => none
  | .command word wb rb blocking :: rest =>
    if blocking && s.inProgress then none else some (.command word, takeBuffers wb rb { s with host := rest })
  | .framer bytes :: rest => some (.frame bytes, { s with host := rest })

/-- The state in which the step's run begins: the request that is due, taken. -/
def State.taken (s : State) : State :=
  match fetch s with
  | none => s
  | some (_, s1) => s1

/-- The request that presents a packet at once. -/
def Request.ofPacket : Packet → Request
  | .command w => .command w none none false
  | .frame bytes => .framer bytes

/-! ### Block reset (R40, R220) -/

/-- When block reset arrives during the coming step, if it does. -/
def State.resetDue (s : State) : Option Nat :=
  match s.resets with
  | [] => none
  | r :: _ => r

/-- The list of block resets moves on by one step. -/
def State.tick (s : State) : State := { s with resets := s.resets.tail }

/-- R40: the block's own state to its reset values, no event. What is not the block's stays: the buffers, the chip,
the trace, the host, and the model's record of responses (entry 12). -/
def blockReset (s : State) : State :=
  { s with
    h := Handle.reset s.cfg
    w := Work.reset
    bus := { s.bus with line := Lines.reset, sr := 0, i := 0 }
    resp := []
    rspCode := .done
    rspVal := 0
    todo := [] }

/-- How many events have followed the last select assertion. -/
def openEvents (evs : List Event) : Nat := evs.foldl (fun n e => if e = .drv .cs false then 0 else n + 1) 0

/-- How many data bytes of a fast-read frame are complete: a byte exchange is 32 events at half-period 0 and 48
otherwise (R124), and the data follow the header (R97). -/
def dataBytesDone (hp : U32) (aw : AddrWidth) (evs : List Event) : Nat :=
  openEvents evs / (if hp = 0 then 32 else 48) - (aw.bytes + 2)

/-- The run from `s` to `t` cut after `n` of its events: the trace, the environment, the bytes of `rbuf` received
so far; no response (R220: "applied in the middle of a frame it leaves the lines at whatever levels the last
events set"). -/
def cutRun (s t : State) (n : Nat) : State :=
  let evs := (t.bus.trace.drop s.bus.trace.length).take n
  let k := dataBytesDone s.hp s.h.addressWidth evs
  { t with
    bus := { t.bus with trace := s.bus.trace ++ evs, env := s.bus.env.replay evs }
    rbuf := t.rbuf.take k ++ s.rbuf.drop k
    rsps := s.rsps }

/-- The events a run added to the trace. -/
def newEvents (s t : State) : Nat := t.bus.trace.length - s.bus.trace.length

/-- What a run from `s` to `t` becomes when block reset arrives after `n` of its events: before its response while
the run has that many events, behind its end otherwise. -/
def afterReset (n : Nat) (s t : State) : State :=
  if n ≤ newEvents s t then blockReset (cutRun s t n) else blockReset t

/-- Block reset applied to the outcome of a step from `s`, when one is due. -/
def applyReset (s : State) (o : Host.Outcome State Fault Refusal) : Host.Outcome State Fault Refusal :=
  match s.resetDue with
  | none => o
  | some n =>
    match o with
    | .next t => .next (afterReset n s.taken t)
    | .fault f => .fault f
    | .refused r => .refused r

end Sys2Proof.Machine
end

