-- ==== Sys2Proof/Machine/Step.lean ====
section
/-! DEFINITION. The step: a request that is due is decoded and executed; otherwise the operation in progress goes on; otherwise the block waits. Then block reset, when due. -/

namespace Sys2Proof.Machine

/-- The step before block reset is looked at. -/
def stepCore (s : State) : Host.Outcome State Fault Refusal :=
  match fetch s with
  | none => .next (resume s)
  | some (p, s1) =>
    match decode s1.cfg s1.h.addressWidth p with
    | some i => exec i s1
    | none => .refused .undecodableFrame

/-- One step of the machine. -/
def step (s : State) : Host.Outcome State Fault Refusal := applyReset s (stepCore s.tick)

/-- The state in which the next step takes exactly this opcode-table word: its packet is the first request, and no
block reset comes during it. A width that no row has leaves the state as it is. -/
def State.withFetchWord (s : State) (nbits w : Nat) : State :=
  match tablePacket s.cfg s.h.addressWidth nbits w with
  | some p => { s with host := Request.ofPacket p :: s.host, resets := none :: s.resets }
  | none => s

end Sys2Proof.Machine
end

