-- ==== Sys2Proof/Safety.lean ====
section
/-! DEFINITION. What a safe run is, in the terms the statements use: what a stretch of events does to the lines and the environment (R9, R10, R25), idle lines (R35), coherent control (R28, R29), the grammar of the trace (R156), the readiness gate (R82, R166) and which frames the block may emit (R59, R60, R105). -/

namespace Sys2Proof.Machine

/-! ### A stretch of events -/

/-- How many samples a stretch of events holds. -/
def samples : List Event → Nat
  | [] => 0
  | .smp _ _ :: evs => samples evs + 1
  | .dir _ _ :: evs => samples evs
  | .drv _ _ :: evs => samples evs
  | .dly _ :: evs => samples evs
  | .yld :: evs => samples evs

/-- Every sample of the stretch reads data-in and has the value that the environment answers at that point (R10). -/
def Env.Explains (e : Env) (fresh : Nat) : List Event → Prop
  | [] => True
  | .smp l v :: evs =>
    l = .miso ∧ v = e.answer fresh ∧ Env.Explains (e.observe (.smp l v)).advance (fresh + 1) evs
  | .dir l m :: evs => Env.Explains (e.observe (.dir l m)) fresh evs
  | .drv l v :: evs => Env.Explains (e.observe (.drv l v)) fresh evs
  | .dly n :: evs => Env.Explains (e.observe (.dly n)) fresh evs
  | .yld :: evs => Env.Explains (e.observe .yld) fresh evs

/-- From `b` to `b'` exactly the events `evs` were emitted: the trace grew by them, the lines and the environment
are what the events make them, and every sample is the environment's answer. -/
structure Bus.Emitted (b b' : Bus) (evs : List Event) : Prop where
  trace : b'.trace = b.trace ++ evs
  line : b'.line = evs.foldl Lines.after b.line
  env : b'.env = b.env.replay evs
  fresh : b'.fresh = b.fresh + samples evs
  explained : b.env.Explains b.fresh evs

/-- From `b` to `b'` exactly one frame was emitted: `tx` transmitted, `rx` received (R15). -/
def Bus.Framed (hp : U32) (tx rx : List Byte) (b b' : Bus) : Prop :=
  rx.length = tx.length ∧ b.Emitted b' (frameEvents hp tx rx)

/-- The status byte that a poll now would read (R152). -/
def State.polled (s : State) : Byte := (readStatus1 s).w.status

/-- The secondary status byte that a poll now would read (R153). -/
def State.polled2 (s : State) : Byte := (readStatus2 s).w.status

/-- A poll now would find the chip ready (R165). -/
def State.pollsReady (s : State) : Bool := isReady s.cfg s.polled

/-- The word that a `read32` of address `a` would return now, after a poll (R177, R184). -/
def State.wordAt (s : State) (a : U32) : U32 := loadWord (readBytes a 4 (readStatus1 s)).1

/-- The number that bytes stand for when the first one is the least significant (R55). -/
def littleEndian : List Byte → Nat
  | [] => 0
  | b :: bs => b.toNat + 256 * littleEndian bs

/-- The `n` bytes that the array holds from address `a` on, modulo the capacity: `MemRead(a, n)` of R13. -/
def Memory.readFrom (m : Memory) (a n : Nat) : List Byte :=
  (List.range n).map fun k => m.read ((a + k) % Config.capacity)

/-! ### Lines and control -/

/-- R35: the lines between frames, once `begin` has configured them. -/
abbrev Lines.Idle (x : Lines) : Prop :=
  x.cs = ⟨.out, some true⟩ ∧ x.sck = ⟨.out, some false⟩ ∧ x.mosi.dir = .out ∧ x.miso.dir = .inPullup ∧
    x.wp = ⟨.out, some true⟩ ∧ x.hold = ⟨.out, some true⟩

/-- R35, R206: the lines are idle at the end of every step once bring-up has begun. -/
abbrev State.IdleLines (s : State) : Prop := (s.h.initialized || s.inProgress) → s.bus.line.Idle

/-- An erase frame that is still to be sent is one of the three of R105, at a multiple of its unit (R60). -/
def soundErase (c : Cfg) (op : Byte) (a : U32) : Bool :=
  (op == c.opSe && a.toNat % Config.sectorSize == 0) || (op == c.opBe32 && a.toNat % Config.block32Size == 0) ||
    (op == c.opBe64 && a.toNat % Config.block64Size == 0)

/-- What can be left of `begin` when it waits at one of its three polls (R162). -/
def beginTails : List (List Task) :=
  [beginTasks, [.pollSus, .chipReset, .gate, .finishBegin], [.gate, .finishBegin]]

/-- What can come after the readiness wait of a read or an erase (R174 to R182). -/
def gatedTask (c : Cfg) : Task → Bool
  | .read8 _ | .read16 _ | .read32 _ | .readBuffer _ _ | .eraseAll => true
  | .eraseUnit op a => soundErase c op a
  | .pollWip | .pollSus | .gate | .chipReset | .finishBegin | .writeLoop _ | .scan => false

/-- What can be left of another host operation when it waits at its loop: the readiness wait before a read or an
erase, a wait inside `writeBuffer`, the scan (R161). -/
def AccessTail (c : Cfg) (ts : List Task) : Prop :=
  (∃ t, ts = [.gate, t] ∧ gatedTask c t = true) ∨ (∃ len, ts = [.writeLoop len]) ∨ ts = [.scan]

/-- R28, R29, R161, R202: either no operation is in progress, or `H.busy` is 1 and what is left is an operation
waiting at one of the unbounded loops; and before bring-up has completed that can only be `begin` itself. -/
def State.Coherent (s : State) : Prop :=
  (s.h.busy = false ∧ s.todo = []) ∨
    (s.h.busy = true ∧ (s.todo ∈ beginTails ∨ (AccessTail s.cfg s.todo ∧ s.h.initialized = true)))

/-- The flash array, when a mock is attached, is in canonical form. -/
def State.FlashWf (s : State) : Prop := ∀ c, s.bus.env = .mock c → c.mem.wf

/-- The coming step takes no request (none is presented, or the caller is blocked by the operation in progress, R90)
and no block reset arrives during it. -/
def State.Undisturbed (s : State) : Prop :=
  s.resetDue = none ∧
    (s.host = [] ∨ ∃ w wb rb rest, s.host = .command w wb rb true :: rest ∧ s.inProgress = true)

/-- Only host operations are waiting to be presented (R106: the host cannot issue anything else). -/
abbrev State.HostOnly (s : State) : Prop := ∀ r ∈ s.host, ∃ w wb rb bl, r = .command w wb rb bl

/-! ### The grammar of the trace (R156) -/

/-- A piece of a trace: the configuration of the lines, a complete frame, a yield, a delay outside a frame. -/
inductive Segment where
  | config
  | frame (tx rx : List Byte)
  | yield
  | delay (n : U32)
deriving DecidableEq, Repr

/-- The events of a piece. -/
def Segment.events (hp : U32) : Segment → List Event
  | .config => configEvents
  | .frame tx rx => frameEvents hp tx rx
  | .yield => [.yld]
  | .delay n => [.dly n]

/-- The events of a sequence of pieces. -/
def segmentEvents (hp : U32) (segs : List Segment) : List Event := segs.flatMap (Segment.events hp)

/-- A frame instruction that the block emits (R105) is sent within its limits: a program frame holds 1 to 256 bytes
and stays in one page (R59, R103), an erase address is a multiple of the unit (R60). -/
def emittable : Instr → Bool
  | .rdid | .rdsr1 | .rdsr2 | .rsten | .rst | .wren | .fastrd _ _ | .ce => true
  | .pp a payload => decide (0 < payload.length) && decide (a.toNat % Config.pageSize + payload.length ≤ Config.pageSize)
  | .se a => decide (a.toNat % Config.sectorSize = 0)
  | .be32 a => decide (a.toNat % Config.block32Size = 0)
  | .be64 a => decide (a.toNat % Config.block64Size = 0)
  | .beginOp _ | .ident | .rd8 _ | .rd16 _ | .rd32 _ | .rdbuf _ _ | .wrbuf _ _ | .erchip | .ersec _ | .erb32 _
  | .erb64 _ | .used | .reservedC | .reservedD | .reservedE | .reservedF | .selectAssert | .selectDeassert
  | .clockPulse | .transferByte _ | .transferBuffer _ | .runCommand _ | .readCommand _ _ | .eraseCommand _ _
  | .readMemory _ _ | .writeMemory _ _ | .waitUntilReady | .writeEnable | .configureLines | .addressPhase _
  | .readStatus1 | .readStatus2 | .readJEDEC => false

/-- A piece is allowed: a frame is one of the twelve of R105 within its limits, a delay outside a frame is the 30
microseconds of `begin` (R167). -/
def Segment.Allowed (c : Cfg) (aw : AddrWidth) : Segment → Prop
  | .config => True
  | .frame tx rx =>
    rx.length = tx.length ∧ ∃ i : Instr, i.wf aw ∧ emittable i ∧ encode c aw i = some (.frame tx)
  | .yield => True
  | .delay n => n = Config.resetDelayUs

/-! ### The readiness gate (R82, R166) -/

/-- What the last frame allows: nothing, an array access (the last frame was a poll that found the chip ready), or
a program or erase (then write-enable followed directly). -/
inductive Gate where
  | closed
  | ready
  | enabled
deriving DecidableEq, Repr

/-- The array frames of R82 that need the latch (R71, R231). -/
def latched (c : Cfg) : List Byte := [c.opPp, c.opSe, c.opBe32, c.opBe64, c.opCe]

/-- Whether a piece may come now. -/
def Gate.admits (c : Cfg) (g : Gate) : Segment → Bool
  | .frame (op :: _) _ =>
    if op = c.opFastrd then g == .ready
    else if op = c.opWren then g == .ready
    else if op ∈ latched c then g == .enabled
    else true
  | .frame [] _ | .config | .yield | .delay _ => true

/-- The gate after a piece. -/
def Gate.after (c : Cfg) (g : Gate) : Segment → Gate
  | .frame (op :: _) rx =>
    if op = c.opRdsr1 then (if isReady c (rx.getD 1 0) then .ready else .closed)
    else if op = c.opWren then (if g = .ready then .enabled else .closed)
    else .closed
  | .frame [] _ | .config | .yield | .delay _ => .closed

/-- Every array frame of the sequence stands directly behind a poll that found the chip ready, with exactly one
write-enable between when it programs or erases (R82, R166). -/
def gated (c : Cfg) : Gate → List Segment → Bool
  | _, [] => true
  | g, x :: xs => g.admits c x && gated c (g.after c x) xs

/-- Whether select is low after an event. -/
def selectAfter (sel : Bool) : Event → Bool
  | .drv .cs v => !v
  | .drv .sck _ | .drv .mosi _ | .drv .miso _ | .drv .wp _ | .drv .hold _ | .dir _ _ | .smp _ _ | .dly _ | .yld => sel

/-- The event does not raise the clock while select is high. -/
def clockAllowed (sel : Bool) : Event → Bool
  | .drv .sck v => sel || !v
  | .drv .cs _ | .drv .mosi _ | .drv .miso _ | .drv .wp _ | .drv .hold _ | .dir _ _ | .smp _ _ | .dly _ | .yld => true

/-- R42: the clock rises only while select is low; `sel` says whether it is low at the start. -/
def clockedUnderSelect : Bool → List Event → Bool
  | _, [] => true
  | sel, e :: evs => clockAllowed sel e && clockedUnderSelect (selectAfter sel e) evs

/-- The event is a delay. -/
def isDelay : Event → Bool
  | .dly _ => true
  | .dir _ _ | .drv _ _ | .smp _ _ | .yld => false

/-- The trace without its delays (R214). -/
def withoutDelays (evs : List Event) : List Event := evs.filter fun e => !isDelay e

/-- Two states that differ in the half-period and in the delays of their traces alone (R214). -/
def State.SameButDelays (s t : State) : Prop :=
  t = { s with
    h := { s.h with clockHalfPeriod := t.h.clockHalfPeriod }
    bus := { s.bus with trace := t.bus.trace } } ∧
  withoutDelays t.bus.trace = withoutDelays s.bus.trace

/-! ### The chunks of a buffered write (R172) -/

/-- The chunks (address, size) that R172 gives a write of `rem` bytes at `addr`, for at most `fuel` chunks. -/
def chunksFrom : Nat → Nat → Nat → List (Nat × Nat)
  | 0, _, _ => []
  | fuel + 1, addr, rem =>
    if rem = 0 then []
    else
      let n := min rem (Config.pageSize - addr % Config.pageSize)
      (addr, n) :: chunksFrom fuel (addr + n) (rem - n)

/-- The chunks of a write of `len` bytes at `addr`. -/
def chunks (addr len : Nat) : List (Nat × Nat) := chunksFrom len addr len

/-- The pieces of one pass of `writeBuffer` over its chunks against a chip that answers only zeros: a poll,
write-enable, the program frame (R173). -/
def chunkSegments (c : Cfg) (aw : AddrWidth) (buf : List Byte) : Nat → List (Nat × Nat) → List Segment
  | _, [] => []
  | pos, (a, n) :: rest =>
    let poll := responseFrame c.opRdsr1 1
    let prog := programFrame c aw (BitVec.ofNat 32 a) ((buf.drop pos).take n)
    .frame poll (poll.map fun _ => 0) :: .frame [c.opWren] [0] :: .frame prog (prog.map fun _ => 0) ::
      chunkSegments c aw buf (pos + n) rest

/-! ### The host operations -/

/-- The rows of R104 and R107: what the host can present. -/
def isHostOp : Instr → Bool
  | .beginOp _ | .ident | .rd8 _ | .rd16 _ | .rd32 _ | .rdbuf _ _ | .wrbuf _ _ | .erchip | .ersec _ | .erb32 _
  | .erb64 _ | .used | .reservedC | .reservedD | .reservedE | .reservedF => true
  | .rdid | .rdsr1 | .rdsr2 | .rsten | .rst | .wren | .fastrd _ _ | .pp _ _ | .se _ | .be32 _ | .be64 _ | .ce
  | .selectAssert | .selectDeassert | .clockPulse | .transferByte _ | .transferBuffer _ | .runCommand _
  | .readCommand _ _ | .eraseCommand _ _ | .readMemory _ _ | .writeMemory _ _ | .waitUntilReady | .writeEnable
  | .configureLines | .addressPhase _ | .readStatus1 | .readStatus2 | .readJEDEC => false

/-- The reserved codes of R107. -/
def isReserved : Instr → Bool
  | .reservedC | .reservedD | .reservedE | .reservedF => true
  | .beginOp _ | .ident | .rd8 _ | .rd16 _ | .rd32 _ | .rdbuf _ _ | .wrbuf _ _ | .erchip | .ersec _ | .erb32 _
  | .erb64 _ | .used | .rdid | .rdsr1 | .rdsr2 | .rsten | .rst | .wren | .fastrd _ _ | .pp _ _ | .se _
  | .be32 _ | .be64 _ | .ce | .selectAssert | .selectDeassert | .clockPulse | .transferByte _
  | .transferBuffer _ | .runCommand _ | .readCommand _ _ | .eraseCommand _ _ | .readMemory _ _
  | .writeMemory _ _ | .waitUntilReady | .writeEnable | .configureLines | .addressPhase _ | .readStatus1
  | .readStatus2 | .readJEDEC => false

/-- What a read or an erase does once its readiness wait is over (R174 to R182). -/
def afterGate (c : Cfg) : Instr → Option Task
  | .rd8 a => some (.read8 a)
  | .rd16 a => some (.read16 a)
  | .rd32 a => some (.read32 a)
  | .rdbuf a n => some (.readBuffer a n)
  | .erchip => some .eraseAll
  | .ersec k => some (.eraseUnit c.opSe (eraseAddress Config.sectorSize k))
  | .erb32 k => some (.eraseUnit c.opBe32 (eraseAddress Config.block32Size k))
  | .erb64 k => some (.eraseUnit c.opBe64 (eraseAddress Config.block64Size k))
  | .beginOp _ | .ident | .wrbuf _ _ | .used | .reservedC | .reservedD | .reservedE | .reservedF | .rdid
  | .rdsr1 | .rdsr2 | .rsten | .rst | .wren | .fastrd _ _ | .pp _ _ | .se _ | .be32 _ | .be64 _ | .ce
  | .selectAssert | .selectDeassert | .clockPulse | .transferByte _ | .transferBuffer _ | .runCommand _
  | .readCommand _ _ | .eraseCommand _ _ | .readMemory _ _ | .writeMemory _ _ | .waitUntilReady | .writeEnable
  | .configureLines | .addressPhase _ | .readStatus1 | .readStatus2 | .readJEDEC => none

/-- The operations that emit no program and no erase frame: they read, identify, poll or reset the chip, or move the
lines without completing a frame. -/
def leavesFlash : Instr → Bool
  | .beginOp _ | .ident | .rd8 _ | .rd16 _ | .rd32 _ | .rdbuf _ _ | .used | .reservedC | .reservedD | .reservedE
  | .reservedF | .rdid | .rdsr1 | .rdsr2 | .rsten | .rst | .wren | .fastrd _ _ | .readMemory _ _ | .waitUntilReady
  | .writeEnable | .readStatus1 | .readStatus2 | .readJEDEC | .configureLines | .selectAssert | .selectDeassert
  | .clockPulse | .transferByte _ | .transferBuffer _ | .addressPhase _ => true
  | .wrbuf _ _ | .erchip | .ersec _ | .erb32 _ | .erb64 _ | .pp _ _ | .se _ | .be32 _ | .be64 _ | .ce
  | .runCommand _ | .readCommand _ _ | .eraseCommand _ _ | .writeMemory _ _ => false

/-- The operations that store received bytes into `rbuf` (R36). -/
def fillsRbuf : Instr → Bool
  | .rdbuf _ _ | .fastrd _ _ | .readMemory _ _ | .transferBuffer _ => true
  | .beginOp _ | .ident | .rd8 _ | .rd16 _ | .rd32 _ | .wrbuf _ _ | .erchip | .ersec _ | .erb32 _ | .erb64 _
  | .used | .reservedC | .reservedD | .reservedE | .reservedF | .rdid | .rdsr1 | .rdsr2 | .rsten | .rst | .wren
  | .pp _ _ | .se _ | .be32 _ | .be64 _ | .ce | .selectAssert | .selectDeassert | .clockPulse | .transferByte _
  | .runCommand _ | .readCommand _ _ | .eraseCommand _ _ | .writeMemory _ _ | .waitUntilReady | .writeEnable
  | .configureLines | .addressPhase _ | .readStatus1 | .readStatus2 | .readJEDEC => false

/-- The operations that configure the lines (R162, R163). -/
def configures : Instr → Bool
  | .beginOp _ | .configureLines => true
  | .ident | .rd8 _ | .rd16 _ | .rd32 _ | .rdbuf _ _ | .wrbuf _ _ | .erchip | .ersec _ | .erb32 _ | .erb64 _
  | .used | .reservedC | .reservedD | .reservedE | .reservedF | .rdid | .rdsr1 | .rdsr2 | .rsten | .rst | .wren
  | .fastrd _ _ | .pp _ _ | .se _ | .be32 _ | .be64 _ | .ce | .selectAssert | .selectDeassert | .clockPulse
  | .transferByte _ | .transferBuffer _ | .runCommand _ | .readCommand _ _ | .eraseCommand _ _
  | .readMemory _ _ | .writeMemory _ _ | .waitUntilReady | .writeEnable | .addressPhase _ | .readStatus1
  | .readStatus2 | .readJEDEC => false

/-- How many bytes the frames of a sequence of pieces exchange. -/
def segmentBytes : List Segment → Nat
  | [] => 0
  | .frame tx _ :: xs => tx.length + segmentBytes xs
  | .config :: xs => segmentBytes xs
  | .yield :: xs => segmentBytes xs
  | .delay _ :: xs => segmentBytes xs

/-- The mock stands ready between frames and speaks the block's command set: the premise of the statements about
the device contract. -/
structure Chip.Attached (c : Chip) (s : State) : Prop where
  env : s.bus.env = .mock c
  commands : c.cfg = s.cfg
  width : s.h.addressWidth = s.cfg.addressWidth
  distinct : s.cfg.Distinct
  deselected : c.sel = false
  clockLow : c.clk = false
  notBusy : c.wip = false
  latchClear : c.wel = false

end Sys2Proof.Machine
end

