-- ==== Sys2Proof/Certificates/Slice0/Obligations.lean ====
section
/-! DEFINITION. The statements for the provers. Each says which rule of spec/ it states; `next` is the only outcome of an operation (R200), so a result statement has the form: exec answers next t, and t is this. -/

open Sys2Proof Sys2Proof.Machine

/-! ### Encodings -/

/-- R91, R100, R104, R105, R107: words and frames written out from the spec's tables (30_encoding.md; T-F2a, T-F3a,
T-F4a, P2 of 95_test_vectors.md) decode to the operations they stand for, the frames at the default opcode bytes
of R8, which are general knowledge and not the source's (entry 3, G1, D22); bytes that are no frame decode to nothing
(R109, entry 8). -/
def Obligations.SpecWordsDecode : Prop :=
  decodeCommand 0x00000000000000003 = .beginOp 3 ∧
  decodeCommand 0x10000000000000000 = .ident ∧
  decodeCommand 0x50000000A000010FA = .rdbuf 0x10FA 10 ∧
  decodeCommand 0x60000000A000010FA = .wrbuf 0x10FA 10 ∧
  decodeCommand 0x80000000000000001 = .ersec 1 ∧
  decodeCommand 0xF0000000000000000 = .reservedF ∧
  decodeFrame Config.default .three [0x9F, 0xFF, 0xFF, 0xFF] = some .rdid ∧
  decodeFrame Config.default .three [0x06] = some .wren ∧
  decodeFrame Config.default .three [0x20, 0x00, 0x10, 0x00] = some (.se 0x1000) ∧
  decodeFrame Config.default .three [0x0B, 0x00, 0x10, 0xFB, 0xFF, 0xFF, 0xFF] = some (.fastrd 0x10FB 2) ∧
  decodeFrame Config.default .three [0x02, 0x00, 0x10, 0xFA, 1, 2, 3, 4, 5, 6] = some (.pp 0x10FA [1, 2, 3, 4, 5, 6]) ∧
  decodeFrame Config.default .three [0x01, 0x00] = none

/-- R91, R104, R94 to R98, R100, R105: for every instruction that has an encoding, with every operand at every
value the encoding admits, decoding the encoding gives the instruction back. -/
def Obligations.DecodeOfEncodeIsTheInstruction : Prop :=
  ∀ (c : Cfg) (aw : AddrWidth) (i : Instr) (p : Packet),
    c.Distinct → i.wf aw → encode c aw i = some p → decode c aw p = some i

/-- R100, R239: the `aw` big-endian address bytes carry exactly the low `8 * aw` bits of the address; at width 3
two addresses that differ by a multiple of 2^24 give the same bytes. -/
def Obligations.AddressBytesCarryTheLowBits : Prop :=
  ∀ (aw : AddrWidth) (a : U32) (rest : List Byte),
    takeAddress aw (addressBytes aw a ++ rest) = some (BitVec.ofNat 32 (a.toNat % 2 ^ (8 * aw.bytes)), rest) ∧
    ∀ b : U32, addressBytes aw a = addressBytes aw b ↔
      a.toNat % 2 ^ (8 * aw.bytes) = b.toNat % 2 ^ (8 * aw.bytes)

/-! ### The step -/

/-- R90: a step takes the request that is due and runs the operation it decodes to: a host command word, with the
buffers the host puts beside it, or the bytes of a frame handed to the framer (entries 7 and 8); bytes that are
no frame are refused by name. (`tick` only moves the list of block resets on by this step, entry 12.) -/
def Obligations.StepRunsTheDecodedInstruction : Prop :=
  (∀ (s : State) (w : CmdWord) (wb rb : Option (List Byte)) (blocking : Bool) (rest : List Request),
    s.resetDue = none → s.host = .command w wb rb blocking :: rest → (blocking = false ∨ s.inProgress = false) →
    step s = exec (decodeCommand w) (takeBuffers wb rb { s.tick with host := rest })) ∧
  (∀ (s : State) (wb rb : Option (List Byte)), s.h.busy = false →
    takeBuffers wb rb s = { s with wbuf := wb.getD s.wbuf, rbuf := rb.getD s.rbuf }) ∧
  (∀ (s : State) (wb rb : Option (List Byte)), s.h.busy = true → takeBuffers wb rb s = s) ∧
  (∀ (s : State) (bytes : List Byte) (rest : List Request) (i : Instr),
    s.resetDue = none → s.host = .framer bytes :: rest → decodeFrame s.cfg s.h.addressWidth bytes = some i →
    step s = exec i { s.tick with host := rest }) ∧
  (∀ (s : State) (bytes : List Byte) (rest : List Request),
    s.resetDue = none → s.host = .framer bytes :: rest → decodeFrame s.cfg s.h.addressWidth bytes = none →
    step s = .refused .undecodableFrame)

/-- R90, R224: with nothing presented, or with the host blocked by an operation in progress, a step takes that
operation up again; with no operation in progress nothing changes (but the list of block resets, which moves
on by one step). -/
def Obligations.StepContinuesOrWaits : Prop :=
  ∀ s : State,
    (s.Undisturbed → step s = .next (resume s.tick)) ∧
    (s.resetDue = none → s.host = [] → s.todo = [] → step s = .next s.tick)

/-- R200: the set of synchronous exceptions is empty; no operation faults, and none is refused by the model. -/
def Obligations.NoOperationFaults : Prop :=
  ∀ (i : Instr) (s : State), ∃ t, exec i s = .next t

/-! ### Block reset -/

/-- R40, R223: block reset, in any state, gives the handle its reset values, unconfigures the lines, emits no event
and leaves the host's buffers alone; and the model's reset state has them. -/
def Obligations.BlockResetGivesTheResetValues : Prop :=
  ∀ s : State, ∀ t ∈ [blockReset s, State.reset],
    t.h.clockHalfPeriod = 0 ∧ t.h.addressWidth = t.cfg.addressWidth ∧ t.h.initialized = false ∧ t.h.busy = false ∧
    (∀ l : Line, t.bus.line.get l = ⟨.unconfigured, none⟩) ∧ t.todo = [] ∧
    (blockReset s).bus.trace = s.bus.trace ∧ (blockReset s).rbuf = s.rbuf ∧ (blockReset s).wbuf = s.wbuf ∧
    (blockReset s).cfg = s.cfg ∧ (blockReset s).host = s.host ∧ (blockReset s).resets = s.resets ∧
    (blockReset s).rsps = s.rsps ∧ (blockReset s).bus.env = s.bus.env ∧ State.reset.h.addressWidth = .three

/-- R220, R40: block reset may arrive at any time of any step: after `n` of its events, before its response, when the
run has that many, and behind the end of the step otherwise. Exactly the events before it have happened; a run
cut short delivers no response and leaves in `rbuf` exactly the data bytes whose exchange was complete
(`dataBytesDone` of the frame that was open, entry 12), and above them what was there; the handle has its reset
values, the lines are unconfigured, nothing is in progress, and `wbuf`, the requests and the later block resets are
as the run left them. -/
def Obligations.BlockResetCutsARunShort : Prop :=
  ∀ (s t : State) (n : Nat), s.resetDue = some n → stepCore s.tick = .next t →
    ∃ r, step s = .next r ∧ r.h.clockHalfPeriod = 0 ∧ r.h.addressWidth = s.cfg.addressWidth ∧
      r.h.initialized = false ∧ r.h.busy = false ∧ r.bus.line = Lines.reset ∧ r.todo = [] ∧ r.cfg = s.cfg ∧
      r.wbuf = t.wbuf ∧ r.host = t.host ∧ r.resets = s.resets.tail ∧
      (n ≤ newEvents s t →
        let evs := (t.bus.trace.drop s.bus.trace.length).take n
        let k := dataBytesDone s.hp s.h.addressWidth evs
        r.bus.trace = s.bus.trace ++ evs ∧ r.rsps = s.rsps ∧ r.rbuf = t.rbuf.take k ++ s.taken.rbuf.drop k) ∧
      (newEvents s t < n → r.bus.trace = t.bus.trace ∧ r.rsps = t.rsps ∧ r.rbuf = t.rbuf)

/-! ### Bit Transport (40_bit_transport.md) -/

/-- R120, R121: select is asserted low and deasserted high, one event each, and nothing else changes. -/
def Obligations.SelectDrivesTheSelectLine : Prop :=
  ∀ s : State,
    (∃ b, exec .selectAssert s = .next { s with bus := b } ∧ s.bus.Emitted b [.drv .cs false] ∧
      b.line.cs.level = some false ∧ b.sr = s.bus.sr ∧ b.i = s.bus.i) ∧
    (∃ b, exec .selectDeassert s = .next { s with bus := b } ∧ s.bus.Emitted b [.drv .cs true] ∧
      b.line.cs.level = some true ∧ b.sr = s.bus.sr ∧ b.i = s.bus.i)

/-- R122: the clock goes high then low, each edge followed by the half-period delay when it is not 0. -/
def Obligations.ClockPulseIsHighThenLow : Prop :=
  ∀ s : State, ∃ b, exec .clockPulse s = .next { s with bus := b } ∧ b.sr = s.bus.sr ∧ b.i = s.bus.i ∧
    b.line.sck.level = some false ∧
    (s.h.clockHalfPeriod = 0 → s.bus.Emitted b [.drv .sck true, .drv .sck false]) ∧
    (s.h.clockHalfPeriod ≠ 0 → s.bus.Emitted b
      [.drv .sck true, .dly s.h.clockHalfPeriod, .drv .sck false, .dly s.h.clockHalfPeriod])

/-- R124: the eight levels driven on data-out are `out[7] .. out[0]`, the byte left in `W.sr` is made of the eight
samples in time order, bit 7 first; the clock is low after it, data-out is `out[0]`, select is unchanged. -/
def Obligations.TransferByteShiftsEightBitsEachWay : Prop :=
  ∀ (out : Byte) (s : State), ∃ b, exec (.transferByte out) s = .next { s with bus := b } ∧
    s.bus.Emitted b
      ((List.range 8).flatMap fun k => [Event.drv .mosi (out.getLsbD (7 - k)), .smp .miso (b.sr.getLsbD (7 - k))] ++
        pulseEvents s.h.clockHalfPeriod) ∧
    b.line.sck.level = some false ∧ b.line.mosi.level = some (out.getLsbD 0) ∧ b.line.cs = s.bus.line.cs

/-- R124, R10: when the environment answers the eight samples with the bits of a byte, the exchange receives that
byte, whatever is sent. -/
def Obligations.TransferByteReceivesWhatIsAnswered : Prop :=
  ∀ (out r : Byte) (rest : List Bool) (s : State), s.bus.env = .draws (byteBits r ++ rest) →
    ∃ b, exec (.transferByte out) s = .next { s with bus := b } ∧ b.sr = r ∧ b.env = .draws rest ∧
      b.fresh = s.bus.fresh + 8

/-- R125: `transferBuffer` sends `count` bytes, those of the buffer in index order, and overwrites each byte with the
one received while it was sent; the rest of the buffer is unchanged, and nothing else changes but the index
`W.pos`. (A byte that the host did not supply is sent as a free value, entry 6.) -/
def Obligations.TransferBufferWorksInPlace : Prop :=
  ∀ (count : U32) (s : State),
    ∃ tx rx b pos, exec (.transferBuffer count) s = .next { s with
        bus := b, rbuf := rx ++ s.rbuf.drop count.toNat, w := { s.w with pos := pos } } ∧
      (count = 0 → pos = s.w.pos) ∧ (∀ k : U32, count = k + 1 → count ≠ 0 → pos = k) ∧
      tx.length = count.toNat ∧ (∀ k < s.rbuf.length, k < count.toNat → tx[k]? = s.rbuf[k]?) ∧
      rx.length = count.toNat ∧ s.bus.Emitted b (exchangeEvents s.hp tx rx)

/-- R163: `configureLines` is eleven events, and after them the lines are as the rule says; the order of the events
(D5) is not stated. -/
def Obligations.ConfigureLinesSetsTheIdleLevels : Prop :=
  ∀ s : State, ∃ b evs, exec .configureLines s = .next { s with bus := b } ∧ s.bus.Emitted b evs ∧
    evs.length = 11 ∧ b.line.cs = ⟨.out, some true⟩ ∧ b.line.sck = ⟨.out, some false⟩ ∧
    b.line.mosi.dir = .out ∧ b.line.miso.dir = .inPullup ∧ b.line.wp = ⟨.out, some true⟩ ∧
    b.line.hold = ⟨.out, some true⟩

/-- R99: a frame of `m` bytes is `32 m + 2` events at half-period 0 and `48 m + 2` otherwise, with `8 m` samples and
`8 m` rising clock edges. -/
def Obligations.FrameCost : Prop :=
  ∀ (hp : U32) (tx rx : List Byte), rx.length = tx.length →
    (frameEvents hp tx rx).length = (if hp = 0 then 32 else 48) * tx.length + 2 ∧
    samples (frameEvents hp tx rx) = 8 * tx.length ∧
    (frameEvents hp tx rx).count (.drv .sck true) = 8 * tx.length

/-! ### Command Framer (41_command_framer.md) and the wire frames (R105) -/

/-- R140, R94: one opcode byte between select low and select high; nothing outside the bus changes. The frames
`RSTEN`, `RST`, `WREN`, `CE` (R105) and `writeEnable` (R166) are this with their opcode parameter. -/
def Obligations.OpcodeOnlyFrames : Prop :=
  ∀ (op : Byte) (s : State), ∀ x ∈ [(Instr.runCommand op, op), (.rsten, s.cfg.opRsten), (.rst, s.cfg.opRst),
      (.wren, s.cfg.opWren), (.ce, s.cfg.opCe), (.writeEnable, s.cfg.opWren)],
    ∃ r b, exec x.1 s = .next { s with bus := b } ∧ Bus.Framed s.hp [x.2] [r] s.bus b

/-- R142, R95: the opcode, then `length` fill bytes; the bytes received in those exchanges are the response. -/
def Obligations.ReadCommandCapturesTheResponse : Prop :=
  ∀ (op : Byte) (n : U32) (s : State),
    ∃ r resp b, exec (.readCommand op n) s = .next { s with bus := b, resp := resp } ∧ resp.length = n.toNat ∧
      Bus.Framed s.hp (op :: List.replicate n.toNat 0xFF) (r :: resp) s.bus b

/-- R152, R153, R154, R105: `readStatus1`, `readStatus2` and the frames `RDSR1`, `RDSR2` read one status byte, which
becomes `W.status`; `readJEDEC` and the frame `RDID` read three bytes. -/
def Obligations.StatusAndIdFrames : Prop :=
  ∀ s : State,
    (∀ x ∈ [(Instr.readStatus1, s.cfg.opRdsr1), (.rdsr1, s.cfg.opRdsr1), (.readStatus2, s.cfg.opRdsr2),
        (.rdsr2, s.cfg.opRdsr2)],
      ∃ r st b, exec x.1 s = .next { s with bus := b, resp := [st], w := { s.w with status := st } } ∧
        Bus.Framed s.hp [x.2, 0xFF] [r, st] s.bus b) ∧
    (∀ i ∈ [Instr.readJEDEC, .rdid],
      ∃ r a0 a1 a2 b, exec i s = .next { s with bus := b, resp := [a0, a1, a2] } ∧
        Bus.Framed s.hp [s.cfg.opRdid, 0xFF, 0xFF, 0xFF] [r, a0, a1, a2] s.bus b)

/-- R144, R96, R100, R105: the opcode and the address bytes, most significant first. The frames `SE`, `BE32`, `BE64`
are this with their opcode parameter. -/
def Obligations.AddressFrames : Prop :=
  ∀ (op : Byte) (a : U32) (s : State), ∀ x ∈ [(Instr.eraseCommand op a, op), (.se a, s.cfg.opSe),
      (.be32 a, s.cfg.opBe32), (.be64 a, s.cfg.opBe64)],
    ∃ rx b, exec x.1 s = .next { s with bus := b } ∧
      Bus.Framed s.hp (x.2 :: (List.range s.h.addressWidth.bytes).map fun k =>
        ((a >>> (8 * (s.h.addressWidth.bytes - 1 - k))) &&& 0xFF).setWidth 8) rx s.bus b

/-- R146: the address phase alone, the same bytes without select. -/
def Obligations.AddressPhaseSendsTheAddressBytes : Prop :=
  ∀ (a : U32) (s : State), ∃ rx b, exec (.addressPhase a) s = .next { s with bus := b } ∧
    rx.length = s.h.addressWidth.bytes ∧
    s.bus.Emitted b (exchangeEvents s.hp ((List.range s.h.addressWidth.bytes).map fun k =>
      ((a >>> (8 * (s.h.addressWidth.bytes - 1 - k))) &&& 0xFF).setWidth 8) rx)

/-- R148, R97, R36, R105: fast read: opcode, address bytes, dummy byte, then `length` fill bytes; the bytes received
in those go to `rbuf[0 .. length-1]`, the rest of `rbuf` is unchanged. `readMemory` and the frame `FASTRD`. -/
def Obligations.FastReadFillsTheReadBuffer : Prop :=
  ∀ (a n : U32) (s : State), ∀ i ∈ [Instr.readMemory a n, .fastrd a n],
    ∃ hdr data b, exec i s = .next { s with bus := b, rbuf := data ++ s.rbuf.drop n.toNat } ∧
      hdr.length = s.h.addressWidth.bytes + 2 ∧ data.length = n.toNat ∧
      Bus.Framed s.hp (s.cfg.opFastrd :: (addressBytes s.h.addressWidth a ++ s.cfg.dummy ::
        List.replicate n.toNat 0xFF)) (hdr ++ data) s.bus b

/-- R150, R98, R105: page program: opcode, address bytes, then the payload in buffer order; every response is
discarded and no buffer changes. `writeMemory` takes the payload from `wbuf` at `W.pos`, the frame `PP` has it
as its operand. Also for a payload that crosses a page or is empty: the framer "performs no boundary check".
(That an index `W.pos + k` past `2^32 - 1` counts on and does not wrap is the model's choice, entry 22.) -/
def Obligations.PageProgramSendsThePayload : Prop :=
  ∀ (a n : U32) (payload : List Byte) (s : State),
    (∃ rx b, exec (.pp a payload) s = .next { s with bus := b } ∧
      Bus.Framed s.hp (s.cfg.opPp :: (addressBytes s.h.addressWidth a ++ payload)) rx s.bus b) ∧
    (∃ data rx b, exec (.writeMemory a n) s = .next { s with bus := b } ∧ data.length = n.toNat ∧
      (∀ k < n.toNat, s.w.pos.toNat + k < s.wbuf.length → data[k]? = s.wbuf[s.w.pos.toNat + k]?) ∧
      Bus.Framed s.hp (s.cfg.opPp :: (addressBytes s.h.addressWidth a ++ data)) rx s.bus b)

/-! ### Readiness (R164 to R166) -/

/-- R164, R165: one pass of `waitUntilReady`: one status frame; if WIP and WEL are both 0 in the byte it reads, it is
over; otherwise one yield, and the wait goes on at the next step. -/
def Obligations.WaitUntilReadyPollsThenYields : Prop :=
  ∀ s : State,
    ((s.polled.getLsbD 0 = false ∧ s.polled.getLsbD s.cfg.welBit.val = false) →
      ∃ r b, exec .waitUntilReady s = .next { s with
          bus := b, resp := [s.polled], w := { s.w with status := s.polled } } ∧
        Bus.Framed s.hp [s.cfg.opRdsr1, 0xFF] [r, s.polled] s.bus b) ∧
    ((s.polled.getLsbD 0 = true ∨ s.polled.getLsbD s.cfg.welBit.val = true) →
      ∃ r b b', exec .waitUntilReady s = .next { s with
          bus := b', resp := [s.polled], w := { s.w with status := s.polled }, todo := .gate :: s.todo } ∧
        Bus.Framed s.hp [s.cfg.opRdsr1, 0xFF] [r, s.polled] s.bus b ∧ b.Emitted b' [.yld])

/-- R164, R82, R206, R161: a step that takes up an operation waiting at the gate. When the poll finds the chip not
ready: one more status frame and one more yield, and the operation still waits, `H.busy` as it was. When it finds
it ready, what stands behind the gate is run: a read or an erase does exactly what it does when it is presented
anew to the block that is not busy, and the last wait of `BEGIN` ends it, `H.initialized` set and DONE with the
success flag. No step of such a wait is a stop. -/
def Obligations.WaitingStepPollsOnceMore : Prop :=
  ∀ (s : State) (ts : List Task), s.Undisturbed → s.todo = .gate :: ts →
    (s.pollsReady = false →
      ∃ r b b', step s = .next { s.tick with bus := b', resp := [s.polled], w := { s.w with status := s.polled } } ∧
        Bus.Framed s.hp [s.cfg.opRdsr1, 0xFF] [r, s.polled] s.bus b ∧ b.Emitted b' [.yld]) ∧
    (s.pollsReady = true →
      ∃ r b, Bus.Framed s.hp [s.cfg.opRdsr1, 0xFF] [r, s.polled] s.bus b ∧
        step s = .next (resume { s.tick with
          bus := b, resp := [s.polled], w := { s.w with status := s.polled }, todo := ts })) ∧
    (∀ (i : Instr) (task : Task), afterGate s.cfg i = some task → ts = [task] → s.h.busy = true →
      s.h.initialized = true → step s = exec i { s.tick with todo := [], h := { s.h with busy := false } }) ∧
    (ts = [.finishBegin] → s.pollsReady = true →
      ∃ r b, Bus.Framed s.hp [s.cfg.opRdsr1, 0xFF] [r, s.polled] s.bus b ∧
        step s = .next { s.tick with
          bus := b, resp := [s.polled], w := { s.w with status := s.polled }, todo := []
          h := { s.h with initialized := true, busy := false }
          rspCode := .done, rspVal := 1, rsps := s.rsps ++ [⟨.done, 1⟩] })

/-- R82, R90, R173, R184: a read, a write, an erase or a scan that finds the chip not ready has emitted one status
frame and one yield, is in progress with `H.busy` = 1, has delivered no response, and has everything after the
wait still before it; so has a later chunk of a write and a later pass of the scan. -/
def Obligations.AccessWaitsForAReadyChip : Prop :=
  ∀ s : State, s.pollsReady = false →
    ∃ r b b', Bus.Framed s.hp [s.cfg.opRdsr1, 0xFF] [r, s.polled] s.bus b ∧ b.Emitted b' [.yld] ∧
      (s.h.busy = false → s.h.initialized = true →
        (∀ (i : Instr) (task : Task), afterGate s.cfg i = some task → exec i s = .next { s with
          bus := b', resp := [s.polled], w := { s.w with status := s.polled }, h := { s.h with busy := true }
          todo := .gate :: task :: s.todo }) ∧
        (∀ a n : U32, n ≠ 0 → exec (.wrbuf a n) s = .next { s with
          bus := b', resp := [s.polled], h := { s.h with busy := true }, todo := .writeLoop n :: s.todo
          w := { s.w with addr := a, pos := 0, rem := n, chunk := chunkSize a n, status := s.polled } }) ∧
        exec .used s = .next { s with
          bus := b', resp := [s.polled], h := { s.h with busy := true }, todo := .scan :: s.todo
          w := { s.w with addr := 0, status := s.polled } }) ∧
      (s.Undisturbed →
        (∀ len, s.todo = [.writeLoop len] → s.w.rem ≠ 0 → step s = .next { s.tick with
          bus := b', resp := [s.polled]
          w := { s.w with chunk := chunkSize s.w.addr s.w.rem, status := s.polled } }) ∧
        (s.todo = [.scan] → step s = .next { s.tick with
          bus := b', resp := [s.polled], w := { s.w with status := s.polled } }))

/-! ### The host operations (42_sequencer.md) -/

/-- R202, R107, R108: refused while busy (any operation), with a reserved code (always), and before bring-up (any
operation but `BEGIN`): REFUSED is delivered, no event is emitted, and nothing changes but the response. -/
def Obligations.RefusalChangesNothing : Prop :=
  ∀ (i : Instr) (s : State), isHostOp i →
    (s.h.busy = true ∨ isReserved i ∨ (s.h.initialized = false ∧ ∀ hp, i ≠ .beginOp hp)) →
    ∃ v, exec i s = .next { s with
      rspCode := .refused, rspVal := v, rsps := s.rsps ++ [⟨.refused, v⟩]
      bus := { s.bus with fresh := s.bus.fresh + 1 } }

/-- R162, R226: `BEGIN` against a chip whose three polls are answered ready: the half-period is stored first, then
the lines are configured, then the frames RDID, RDSR1, RDSR2, RSTEN, RST, the 30 microseconds and the last poll;
the ID received is stored, `H.initialized` is set and the response is DONE with the success flag; the lines are
idle, data-out at bit 0 of the last byte sent, which is 1 (R35). (That the half-period is stored first, and the
order of the eleven configuration events in the trace, are the spec's decision D5, entry 15.) -/
def Obligations.BeginBringsAReadyChipUp : Prop :=
  ∀ (hp : U32) (s : State) (x0 i0 i1 i2 x1 st1 x2 st2 x3 x4 x5 st3 : Byte) (rest : List Bool),
    s.h.busy = false →
    s.bus.env = .draws (wireBits [x0, i0, i1, i2, x1, st1, x2, st2, x3, x4, x5, st3] ++ rest) →
    st1.getLsbD 0 = false → st2.getLsbD 7 = false → isReady s.cfg st3 →
    ∃ t, exec (.beginOp hp) s = .next t ∧
      t.h = { clockHalfPeriod := hp, addressWidth := s.h.addressWidth, jedec := ⟨i0, i1, i2⟩, initialized := true,
              busy := false } ∧
      t.rspCode = .done ∧ t.rspVal = 1 ∧ t.rsps = s.rsps ++ [⟨.done, 1⟩] ∧ t.todo = s.todo ∧
      t.bus.trace = s.bus.trace ++ configEvents ++
        frameEvents hp [s.cfg.opRdid, 0xFF, 0xFF, 0xFF] [x0, i0, i1, i2] ++
        frameEvents hp [s.cfg.opRdsr1, 0xFF] [x1, st1] ++ frameEvents hp [s.cfg.opRdsr2, 0xFF] [x2, st2] ++
        frameEvents hp [s.cfg.opRsten] [x3] ++ frameEvents hp [s.cfg.opRst] [x4] ++ [.dly 30] ++
        frameEvents hp [s.cfg.opRdsr1, 0xFF] [x5, st3] ∧
      t.bus.line.Idle ∧ t.bus.line.mosi.level = some true ∧ t.bus.env = .draws rest ∧ t.cfg = s.cfg ∧ t.rbuf = s.rbuf ∧ t.wbuf = s.wbuf

/-- R162, R23, R164, R206, R221: the waits of `BEGIN`. When the first poll finds WIP set, the ID received is stored all
the same, no yield is emitted, and `begin` is at its first loop, busy; when WIP is clear and SUS is set, it is at its
second loop. When both polls pass, enable-reset, reset and the 30 microseconds follow, and a last poll that finds WIP
or WEL set ends in one yield, with `begin` at the general wait, busy, `H.initialized` as it was and no response. A later
pass of either loop that does not end it is one more status frame, without a yield, and nothing else; one that ends it
goes on with what follows, which after the second loop is enable-reset, reset and the 30 microseconds, and then the
rest. (The order of the configuration events in the trace, and the half-period being stored first, are the spec's
decision D5; the two loops are D8; the test before the yield is D9; a pass a step is entry 1.) -/
def Obligations.BeginPollsWithoutYield : Prop :=
  (∀ (hp : U32) (s : State) (x0 i0 i1 i2 x1 st1 : Byte) (rest : List Bool),
    s.h.busy = false → s.bus.env = .draws (wireBits [x0, i0, i1, i2, x1, st1] ++ rest) → st1.getLsbD 0 = true →
    ∃ t, exec (.beginOp hp) s = .next t ∧
      t.h = { clockHalfPeriod := hp, addressWidth := s.h.addressWidth, jedec := ⟨i0, i1, i2⟩,
              initialized := s.h.initialized, busy := true } ∧
      t.todo = beginTasks ++ s.todo ∧ t.rsps = s.rsps ∧
      t.bus.trace = s.bus.trace ++ configEvents ++
        frameEvents hp [s.cfg.opRdid, 0xFF, 0xFF, 0xFF] [x0, i0, i1, i2] ++
        frameEvents hp [s.cfg.opRdsr1, 0xFF] [x1, st1] ∧
      t.bus.env = .draws rest) ∧
  (∀ (hp : U32) (s : State) (x0 i0 i1 i2 x1 st1 x2 st2 : Byte) (rest : List Bool),
    s.h.busy = false → s.bus.env = .draws (wireBits [x0, i0, i1, i2, x1, st1, x2, st2] ++ rest) →
    st1.getLsbD 0 = false → st2.getLsbD 7 = true →
    ∃ t, exec (.beginOp hp) s = .next t ∧
      t.h = { clockHalfPeriod := hp, addressWidth := s.h.addressWidth, jedec := ⟨i0, i1, i2⟩,
              initialized := s.h.initialized, busy := true } ∧
      t.todo = beginTasks.drop 1 ++ s.todo ∧ t.rsps = s.rsps ∧
      t.bus.trace = s.bus.trace ++ configEvents ++
        frameEvents hp [s.cfg.opRdid, 0xFF, 0xFF, 0xFF] [x0, i0, i1, i2] ++
        frameEvents hp [s.cfg.opRdsr1, 0xFF] [x1, st1] ++ frameEvents hp [s.cfg.opRdsr2, 0xFF] [x2, st2] ∧
      t.bus.env = .draws rest) ∧
  (∀ (hp : U32) (s : State) (x0 i0 i1 i2 x1 st1 x2 st2 x3 x4 x5 st3 : Byte) (rest : List Bool),
    s.h.busy = false →
    s.bus.env = .draws (wireBits [x0, i0, i1, i2, x1, st1, x2, st2, x3, x4, x5, st3] ++ rest) →
    st1.getLsbD 0 = false → st2.getLsbD 7 = false → (st3.getLsbD 0 = true ∨ st3.getLsbD s.cfg.welBit.val = true) →
    ∃ t, exec (.beginOp hp) s = .next t ∧
      t.h = { clockHalfPeriod := hp, addressWidth := s.h.addressWidth, jedec := ⟨i0, i1, i2⟩,
              initialized := s.h.initialized, busy := true } ∧
      t.todo = [.gate, .finishBegin] ++ s.todo ∧ t.rsps = s.rsps ∧ t.rspCode = s.rspCode ∧ t.rspVal = s.rspVal ∧
      t.w.status = st3 ∧
      t.bus.trace = s.bus.trace ++ configEvents ++
        frameEvents hp [s.cfg.opRdid, 0xFF, 0xFF, 0xFF] [x0, i0, i1, i2] ++
        frameEvents hp [s.cfg.opRdsr1, 0xFF] [x1, st1] ++ frameEvents hp [s.cfg.opRdsr2, 0xFF] [x2, st2] ++
        frameEvents hp [s.cfg.opRsten] [x3] ++ frameEvents hp [s.cfg.opRst] [x4] ++ [.dly 30] ++
        frameEvents hp [s.cfg.opRdsr1, 0xFF] [x5, st3] ++ [.yld] ∧
      t.bus.line.Idle ∧ t.bus.env = .draws rest ∧ t.cfg = s.cfg ∧ t.rbuf = s.rbuf ∧ t.wbuf = s.wbuf) ∧
  (∀ (s : State) (ts : List Task), s.Undisturbed → s.todo = .pollWip :: ts →
    ∃ r b, Bus.Framed s.hp [s.cfg.opRdsr1, 0xFF] [r, s.polled] s.bus b ∧
      (s.polled.getLsbD 0 = true →
        step s = .next { s.tick with bus := b, resp := [s.polled], w := { s.w with status := s.polled } }) ∧
      (s.polled.getLsbD 0 = false →
        step s = .next (resume { s.tick with
          bus := b, resp := [s.polled], w := { s.w with status := s.polled }, todo := ts }))) ∧
  (∀ (s : State) (ts : List Task), s.Undisturbed → s.todo = .pollSus :: ts →
    ∃ r b, Bus.Framed s.hp [s.cfg.opRdsr2, 0xFF] [r, s.polled2] s.bus b ∧
      (s.polled2.getLsbD 7 = true →
        step s = .next { s.tick with bus := b, resp := [s.polled2], w := { s.w with status := s.polled2 } }) ∧
      (s.polled2.getLsbD 7 = false →
        step s = .next (resume { s.tick with
          bus := b, resp := [s.polled2], w := { s.w with status := s.polled2 }, todo := ts })) ∧
      (∀ ts' : List Task, ts = .chipReset :: ts' → s.polled2.getLsbD 7 = false →
        ∃ r1 b1 r2 b2 b3, Bus.Framed s.hp [s.cfg.opRsten] [r1] b b1 ∧ Bus.Framed s.hp [s.cfg.opRst] [r2] b1 b2 ∧
          b2.Emitted b3 [.dly 30] ∧
          step s = .next (resume { s.tick with
            bus := b3, resp := [s.polled2], w := { s.w with status := s.polled2 }, todo := ts' })))

/-- R186, R56: `IDENT` returns the stored ID, first byte most significant, bits 31:24 zero, and emits no event. -/
def Obligations.IdentReturnsTheStoredId : Prop :=
  ∀ s : State, s.h.busy = false → s.h.initialized = true →
    ∃ v : U32, exec .ident s = .next { s with rspCode := .done, rspVal := v, rsps := s.rsps ++ [⟨.done, v⟩] } ∧
      v.toNat = s.h.jedec.id0.toNat * 65536 + s.h.jedec.id1.toNat * 256 + s.h.jedec.id2.toNat

/-- R175, R176, R177, R55: a typed read polls, then sends one fast-read frame of 1, 2 or 4 data bytes; its result is
the bytes received, the first one least significant, zero-extended; `rbuf` and every other part of the state
are as before. -/
def Obligations.TypedReadsAreLittleEndian : Prop :=
  ∀ (a : U32) (s : State), s.h.busy = false → s.h.initialized = true → s.pollsReady = true →
    ∀ x ∈ [(Instr.rd8 a, 1), (.rd16 a, 2), (.rd32 a, 4)],
      ∃ r b1 hdr data b2, ∃ v : U32,
        exec x.1 s = .next { s with
          bus := b2, resp := [s.polled], w := { s.w with status := s.polled }
          rspCode := .done, rspVal := v, rsps := s.rsps ++ [⟨.done, v⟩] } ∧
        Bus.Framed s.hp [s.cfg.opRdsr1, 0xFF] [r, s.polled] s.bus b1 ∧
        hdr.length = s.h.addressWidth.bytes + 2 ∧ data.length = x.2 ∧
        Bus.Framed s.hp (s.cfg.opFastrd :: (addressBytes s.h.addressWidth a ++ s.cfg.dummy :: List.replicate x.2 0xFF))
          (hdr ++ data) b1 b2 ∧
        v.toNat = littleEndian data

/-- R174, R36: `RDBUF` polls, then sends one fast-read frame whatever the length and alignment; `rbuf[0 .. len-1]`
holds the bytes received, the rest of `rbuf` is as before, and the result is `len`. -/
def Obligations.ReadBufferIsOneFrame : Prop :=
  ∀ (a n : U32) (s : State), s.h.busy = false → s.h.initialized = true → s.pollsReady = true →
    ∃ r b1 hdr data b2,
      exec (.rdbuf a n) s = .next { s with
        bus := b2, resp := [s.polled], w := { s.w with status := s.polled }, rbuf := data ++ s.rbuf.drop n.toNat
        rspCode := .done, rspVal := n, rsps := s.rsps ++ [⟨.done, n⟩] } ∧
      Bus.Framed s.hp [s.cfg.opRdsr1, 0xFF] [r, s.polled] s.bus b1 ∧
      hdr.length = s.h.addressWidth.bytes + 2 ∧ data.length = n.toNat ∧
      Bus.Framed s.hp (s.cfg.opFastrd :: (addressBytes s.h.addressWidth a ++ s.cfg.dummy ::
        List.replicate n.toNat 0xFF)) (hdr ++ data) b1 b2

/-- R178 to R182, R102, R166: an erase polls, sends write-enable and its erase frame, with nothing between, and
returns the success flag; the address is the index times the unit, modulo 2^32, and is not checked. -/
def Obligations.EraseIsPollEnableErase : Prop :=
  ∀ (k : U32) (s : State), s.h.busy = false → s.h.initialized = true → s.pollsReady = true →
    ∀ x ∈ [(Instr.ersec k, s.cfg.opSe :: addressBytes s.h.addressWidth (BitVec.ofNat 32 (k.toNat * 4096))),
        (.erb32 k, s.cfg.opBe32 :: addressBytes s.h.addressWidth (BitVec.ofNat 32 (k.toNat * 32768))),
        (.erb64 k, s.cfg.opBe64 :: addressBytes s.h.addressWidth (BitVec.ofNat 32 (k.toNat * 65536))),
        (.erchip, [s.cfg.opCe])],
      ∃ r b1 r' b2 rx b3,
        exec x.1 s = .next { s with
          bus := b3, resp := [s.polled], w := { s.w with status := s.polled }
          rspCode := .done, rspVal := 1, rsps := s.rsps ++ [⟨.done, 1⟩] } ∧
        Bus.Framed s.hp [s.cfg.opRdsr1, 0xFF] [r, s.polled] s.bus b1 ∧
        Bus.Framed s.hp [s.cfg.opWren] [r'] b1 b2 ∧ Bus.Framed s.hp x.2 rx b2 b3

/-- R173, R172: `WRBUF` sends, for each chunk of the law, a poll, write-enable and one program frame with exactly the
chunk's bytes of `wbuf`, and returns `len`. Against answers that are all zero, which pass every poll (R236), the
whole run is stated; with `len` = 0 it emits nothing. Against any other environment: `WRBUF` is its loop from
`W.addr` = address, `W.pos` = 0, `W.rem` = `len`; a pass that finds the chip ready sends one chunk and goes on from
the registers advanced by it (modulo 2^32); with nothing left the loop ends with the response; a pass that finds it
not ready is stated in `AccessWaitsForAReadyChip`. `wbuf` and `rbuf` are as before. (That an index `W.pos + k` past
`2^32 - 1`, which no run of `WRBUF` from its start has, counts on and does not wrap is the model's choice, entry 22.) -/
def Obligations.WriteBufferSendsEveryChunk : Prop :=
  (∀ (a n : U32) (s : State) (rest : List Bool),
    let segs := chunkSegments s.cfg s.h.addressWidth s.wbuf 0 (chunks a.toNat n.toNat)
    s.h.busy = false → s.h.initialized = true → n.toNat ≤ s.wbuf.length →
    s.bus.env = .draws (List.replicate (8 * segmentBytes segs) false ++ rest) →
    ∃ t, exec (.wrbuf a n) s = .next t ∧ t.rspCode = .done ∧ t.rspVal = n ∧ t.rsps = s.rsps ++ [⟨.done, n⟩] ∧
      t.h = s.h ∧ t.todo = s.todo ∧ t.wbuf = s.wbuf ∧ t.rbuf = s.rbuf ∧ t.cfg = s.cfg ∧
      t.bus.trace = s.bus.trace ++ segmentEvents s.hp segs ∧ t.bus.env = .draws rest) ∧
  (∀ (a n : U32) (s : State), s.h.busy = false → s.h.initialized = true → s.todo = [] →
    exec (.wrbuf a n) s = .next (resume { s with
      h := { s.h with busy := true }, w := { s.w with addr := a, pos := 0, rem := n }, todo := [.writeLoop n] })) ∧
  (∀ (len : U32) (s : State), s.todo = [.writeLoop len] → s.w.rem = 0 →
    resume s = { s with
      todo := [], h := { s.h with busy := false }
      rspCode := .done, rspVal := len, rsps := s.rsps ++ [⟨.done, len⟩] }) ∧
  (∀ (len : U32) (s : State), s.todo = [.writeLoop len] → s.w.rem ≠ 0 → s.pollsReady = true →
    let n := chunkSize s.w.addr s.w.rem
    ∃ r b1 r' b2 data rx b3,
      resume s = resume { s with
        bus := b3, resp := [s.polled]
        w := { s.w with
          status := s.polled, chunk := n, addr := s.w.addr + n.setWidth 32, pos := s.w.pos + n.setWidth 32
          rem := s.w.rem - n.setWidth 32 } } ∧
      data.length = n.toNat ∧
      (∀ k < n.toNat, s.w.pos.toNat + k < s.wbuf.length → data[k]? = s.wbuf[s.w.pos.toNat + k]?) ∧
      Bus.Framed s.hp [s.cfg.opRdsr1, 0xFF] [r, s.polled] s.bus b1 ∧
      Bus.Framed s.hp [s.cfg.opWren] [r'] b1 b2 ∧
      Bus.Framed s.hp (s.cfg.opPp :: (addressBytes s.h.addressWidth s.w.addr ++ data)) rx b2 b3)

/-- R173: a write that stays in one page, against any environment: with `len` = 0 no event and result 0; otherwise a
poll, and when the chip is ready write-enable and one program frame with the bytes of `wbuf`, then the result
`len`, with nothing left to write. -/
def Obligations.WriteBufferWithinAPage : Prop :=
  ∀ (a n : U32) (s : State), s.h.busy = false → s.h.initialized = true → a.toNat % 256 + n.toNat ≤ 256 →
    (n = 0 → exec (.wrbuf a n) s = .next { s with
      w := { s.w with addr := a, pos := 0, rem := 0 }, rspCode := .done, rspVal := 0, rsps := s.rsps ++ [⟨.done, 0⟩] }) ∧
    (n ≠ 0 → s.pollsReady = true →
      ∃ r b1 r' b2 data rx b3,
        exec (.wrbuf a n) s = .next { s with
          bus := b3, resp := [s.polled]
          w := { s.w with status := s.polled, addr := a + n, pos := n, rem := 0, chunk := n.setWidth 9 }
          rspCode := .done, rspVal := n, rsps := s.rsps ++ [⟨.done, n⟩] } ∧
        data.length = n.toNat ∧ (∀ k < n.toNat, k < s.wbuf.length → data[k]? = s.wbuf[k]?) ∧
        Bus.Framed s.hp [s.cfg.opRdsr1, 0xFF] [r, s.polled] s.bus b1 ∧
        Bus.Framed s.hp [s.cfg.opWren] [r'] b1 b2 ∧
        Bus.Framed s.hp (s.cfg.opPp :: (addressBytes s.h.addressWidth a ++ data)) rx b2 b3)

/-- R172: the chunks of a write of `n` bytes at `a` are consecutive and sum to `n`, each is 1 to 256 bytes inside one
page, and there are `ceil(((a mod 256) + n) / 256)` of them, none for `n` = 0. -/
def Obligations.ChunksCoverTheRangeWithinPages : Prop :=
  ∀ a n : Nat,
    ((chunks a n).map Prod.snd).sum = n ∧
    (∀ c ∈ chunks a n, 0 < c.2 ∧ c.1 % 256 + c.2 ≤ 256 ∧ a ≤ c.1 ∧ c.1 + c.2 ≤ a + n) ∧
    (chunks a n).IsChain (fun c d => c.1 + c.2 = d.1 ∧ d.1 % 256 = 0) ∧
    (chunks a n).length = (if n = 0 then 0 else (a % 256 + n + 255) / 256)

/-- R173, R172: the chunk the block computes is the one of the law: `min(remaining, 256 - (address mod 256))`, at
least 1 when anything remains, at most 256. -/
def Obligations.ChunkSizeFollowsTheLaw : Prop :=
  ∀ a rem : U32,
    (chunkSize a rem).toNat = min rem.toNat (256 - a.toNat % 256) ∧ (chunkSize a rem).toNat ≤ 256 ∧
    (rem ≠ 0 → 0 < (chunkSize a rem).toNat)

/-- R184: `USED` starts at address 0: a poll and one fast-read frame of four data bytes; an all-ones word ends it
with result 0, any other word leaves it busy at address 4. -/
def Obligations.UsedReadsTheFirstWord : Prop :=
  ∀ s : State, s.h.busy = false → s.h.initialized = true → s.pollsReady = true →
    ∃ r b1 hdr data b2,
      Bus.Framed s.hp [s.cfg.opRdsr1, 0xFF] [r, s.polled] s.bus b1 ∧
      hdr.length = s.h.addressWidth.bytes + 2 ∧ data.length = 4 ∧
      Bus.Framed s.hp (s.cfg.opFastrd :: (addressBytes s.h.addressWidth 0 ++ s.cfg.dummy :: List.replicate 4 0xFF))
        (hdr ++ data) b1 b2 ∧
      (s.wordAt 0).toNat = littleEndian data ∧
      (s.wordAt 0 = 0xFFFFFFFF → exec .used s = .next { s with
        bus := b2, resp := [s.polled], w := { s.w with status := s.polled, addr := 0, word := s.wordAt 0 }
        rspCode := .done, rspVal := 0, rsps := s.rsps ++ [⟨.done, 0⟩] }) ∧
      (s.wordAt 0 ≠ 0xFFFFFFFF → exec .used s = .next { s with
        bus := b2, resp := [s.polled], w := { s.w with status := s.polled, addr := 4, word := s.wordAt 0 }
        h := { s.h with busy := true }, todo := .scan :: s.todo })

/-- R184: a later pass of the scan, at the address in `W.addr`: an all-ones word ends it with that address as the
result and `H.busy` clear, any other word moves it on by 4, modulo 2^32; it has no bound. -/
def Obligations.UsedScansOnByFour : Prop :=
  ∀ s : State, s.Undisturbed → s.todo = [.scan] → s.pollsReady = true →
    ∃ r b1 hdr data b2,
      Bus.Framed s.hp [s.cfg.opRdsr1, 0xFF] [r, s.polled] s.bus b1 ∧
      hdr.length = s.h.addressWidth.bytes + 2 ∧ data.length = 4 ∧
      Bus.Framed s.hp (s.cfg.opFastrd :: (addressBytes s.h.addressWidth s.w.addr ++ s.cfg.dummy ::
        List.replicate 4 0xFF)) (hdr ++ data) b1 b2 ∧
      (s.wordAt s.w.addr).toNat = littleEndian data ∧
      (s.wordAt s.w.addr = 0xFFFFFFFF → step s = .next { s.tick with
        bus := b2, resp := [s.polled], w := { s.w with status := s.polled, word := s.wordAt s.w.addr }
        h := { s.h with busy := false }, todo := []
        rspCode := .done, rspVal := s.w.addr, rsps := s.rsps ++ [⟨.done, s.w.addr⟩] }) ∧
      (s.wordAt s.w.addr ≠ 0xFFFFFFFF → step s = .next { s.tick with
        bus := b2, resp := [s.polled]
        w := { s.w with status := s.polled, addr := s.w.addr + 4, word := s.wordAt s.w.addr } })

/-- R57, R55: a `read16` sees the bytes of two `read8`, the first in bits 7:0, and a `read32` sees `read16(A)` in bits
15:0 and `read16(A + 2)` in bits 31:16, when the bytes are the same. -/
def Obligations.MixedWidthsSeeTheSameBytes : Prop :=
  ∀ b0 b1 b2 b3 : Byte,
    (loadHalf [b0, b1]).toNat = (loadByte [b0]).toNat + 256 * (loadByte [b1]).toNat ∧
    (loadWord [b0, b1, b2, b3]).toNat = (loadHalf [b0, b1]).toNat + 65536 * (loadHalf [b2, b3]).toNat

/-! ### What an operation leaves alone -/

/-- R170, R21, R22, R23, R26: `BEGIN` is the only operation that writes handle state; no operation writes the
configuration or the address width; the host's script and the pending resets are not the operations' either. An
operation taken up again keeps all of these, but for `H.initialized` when what is left of it is `BEGIN`'s. -/
def Obligations.OnlyBeginWritesTheHandle : Prop :=
  (∀ (i : Instr) (s t : State), exec i s = .next t →
    t.cfg = s.cfg ∧ t.h.addressWidth = s.h.addressWidth ∧ t.host = s.host ∧ t.resets = s.resets ∧
    ((∀ hp, i ≠ .beginOp hp) → t.h.clockHalfPeriod = s.h.clockHalfPeriod ∧ t.h.jedec = s.h.jedec ∧
      t.h.initialized = s.h.initialized)) ∧
  ∀ s : State,
    (resume s).cfg = s.cfg ∧ (resume s).h.addressWidth = s.h.addressWidth ∧ (resume s).host = s.host ∧
    (resume s).resets = s.resets ∧ (resume s).h.clockHalfPeriod = s.h.clockHalfPeriod ∧
    (resume s).h.jedec = s.h.jedec ∧ (.finishBegin ∉ s.todo → (resume s).h.initialized = s.h.initialized)

/-- R36, R24, R163, R127: no operation changes `wbuf`; only `RDBUF`, the fast-read frame, `readMemory` and
`transferBuffer` change `rbuf`; only `BEGIN` and `configureLines` give a line a direction or drive write-protect
or hold. An operation taken up again keeps all of these, but for `rbuf` when an `RDBUF` is left. -/
def Obligations.BuffersAndLinesFrame : Prop :=
  (∀ (i : Instr) (s t : State), exec i s = .next t →
    t.wbuf = s.wbuf ∧ (fillsRbuf i = false → t.rbuf = s.rbuf) ∧
    (configures i = false → (∀ l, (t.bus.line.get l).dir = (s.bus.line.get l).dir) ∧
      t.bus.line.miso = s.bus.line.miso ∧ t.bus.line.wp = s.bus.line.wp ∧ t.bus.line.hold = s.bus.line.hold)) ∧
  ∀ s : State,
    (resume s).wbuf = s.wbuf ∧ ((∀ a n, .readBuffer a n ∉ s.todo) → (resume s).rbuf = s.rbuf) ∧
    (∀ l, ((resume s).bus.line.get l).dir = (s.bus.line.get l).dir) ∧
    (resume s).bus.line.miso = s.bus.line.miso ∧ (resume s).bus.line.wp = s.bus.line.wp ∧
    (resume s).bus.line.hold = s.bus.line.hold

/-- R27: the working registers of the buffered write are written by `WRBUF` alone, but for `W.addr`, which `USED`
writes, and `W.pos`, which `transferBuffer` writes; `W.word` is written by `USED` alone; and the response
registers and the handle are written by host operations alone. An operation taken up again keeps to the same; and
it either waits again, busy and with no response, or is over, with exactly one DONE response (R29, R90). -/
def Obligations.WorkingRegistersFrame : Prop :=
  (∀ (i : Instr) (s t : State), exec i s = .next t →
    ((∀ a n, i ≠ .wrbuf a n) → t.w.rem = s.w.rem ∧ t.w.chunk = s.w.chunk ∧
      ((∀ n, i ≠ .transferBuffer n) → t.w.pos = s.w.pos) ∧ (i ≠ .used → t.w.addr = s.w.addr)) ∧
    (i ≠ .used → t.w.word = s.w.word) ∧
    (isHostOp i = false → t.rspCode = s.rspCode ∧ t.rspVal = s.rspVal ∧ t.rsps = s.rsps ∧ t.h = s.h)) ∧
  (∀ s : State,
    ((∀ len, .writeLoop len ∉ s.todo) →
      (resume s).w.rem = s.w.rem ∧ (resume s).w.chunk = s.w.chunk ∧ (resume s).w.pos = s.w.pos ∧
      (.scan ∉ s.todo → (resume s).w.addr = s.w.addr)) ∧
    (.scan ∉ s.todo → (resume s).w.word = s.w.word)) ∧
  ∀ s : State, s.Coherent → s.todo ≠ [] →
    ((resume s).h.busy = true ∧ (resume s).todo ≠ [] ∧ (resume s).rspCode = s.rspCode ∧
      (resume s).rspVal = s.rspVal ∧ (resume s).rsps = s.rsps) ∨
    ((resume s).h.busy = false ∧ (resume s).todo = [] ∧ (resume s).rspCode = .done ∧
      (resume s).rsps = s.rsps ++ [⟨.done, (resume s).rspVal⟩])

/-- R10, R80: whatever an operation does, and whatever a step does, reaches the outside only as events: the trace
grows at its end, and lines, environment and samples are what those events make them. (After a block reset
the model's record of the lines starts anew, R40.) -/
def Obligations.OperationsActThroughEvents : Prop :=
  (∀ (i : Instr) (s t : State), exec i s = .next t →
    ∃ evs b, s.bus.Emitted b evs ∧ t.bus.trace = b.trace ∧ t.bus.line = b.line ∧ t.bus.env = b.env) ∧
  ∀ s t : State, step s = .next t →
    ∃ evs b, s.bus.Emitted b evs ∧ t.bus.trace = b.trace ∧ t.bus.env = b.env ∧
      t.bus.line = if s.resetDue = none then b.line else Lines.reset

/-- R214: a different half-period gives the same run, byte for byte, with other delays: from two states that differ in
the half-period and in the delays of their traces alone, every operation, and every step that no block reset
falls into (it is counted in events), gives two such states again; and so does `BEGIN` with two different
operands. -/
def Obligations.HalfPeriodOnlyAddsDelays : Prop :=
  (∀ (i : Instr) (s s' t : State), s.SameButDelays s' → exec i s = .next t →
    ∃ t', exec i s' = .next t' ∧ t.SameButDelays t' ∧
      ((∀ hp, i ≠ .beginOp hp) → t'.h.clockHalfPeriod = s'.h.clockHalfPeriod)) ∧
  (∀ s s' t : State, s.SameButDelays s' → s.resetDue = none → step s = .next t →
    ∃ t', step s' = .next t' ∧ t.SameButDelays t') ∧
  (∀ (hp hp' : U32) (s t : State), exec (.beginOp hp) s = .next t →
    ∃ t', exec (.beginOp hp') s = .next t' ∧ t.SameButDelays t' ∧
      (s.h.busy = false → t.h.clockHalfPeriod = hp ∧ t'.h.clockHalfPeriod = hp'))

/-! ### Invariants of every step -/

/-- R35, R206: once bring-up has begun, the lines are idle between steps: select high, clock low, write-protect and
hold high, data-in with pull-up. Every step keeps it. -/
def Obligations.StepKeepsIdleLines : Prop :=
  ∀ s t : State, s.IdleLines → step s = .next t → t.IdleLines

/-- R28, R29, R161, R202: `H.busy` is 1 exactly while an operation waits at one of the unbounded loops, and before
bring-up has completed that operation is `BEGIN`. Every step keeps it. -/
def Obligations.StepKeepsControlCoherent : Prop :=
  ∀ s t : State, s.Coherent → step s = .next t → t.Coherent

/-- R50, R77: every step keeps the flash array of an attached mock in its canonical form. -/
def Obligations.StepKeepsFlashCanonical : Prop :=
  ∀ s t : State, s.FlashWf → step s = .next t → t.FlashWf

/-- R40: the state after reset meets the three invariants. -/
def Obligations.ResetMeetsTheInvariants : Prop :=
  State.reset.IdleLines ∧ State.reset.Coherent ∧ State.reset.FlashWf

/-- R42: the clock rises only while select is low, in every step, also in one that a block reset cuts short. -/
def Obligations.ClockRisesOnlyUnderSelect : Prop :=
  ∀ s t : State, step s = .next t →
    ∃ evs, t.bus.trace = s.bus.trace ++ evs ∧ clockedUnderSelect false evs = true

/-- R82, R105, R156, R166, R167, R59, R60, R103: in every state whose control is coherent and whose twelve opcode bytes
differ (entry 3), while only host operations are presented, a step emits whole frames with nothing but the
configuration (in the order of D5, entry 15), yields and the 30-microsecond delay between them, and a step that
a block reset falls into emits a first part of such a sequence; each frame is one of the twelve, within its limits;
and each read, program and erase frame stands directly behind a poll that found the chip ready, with exactly one
write-enable between for a program or erase. -/
def Obligations.StepEmitsGatedWireFrames : Prop :=
  ∀ s t : State, s.Coherent → s.HostOnly → s.cfg.Distinct → step s = .next t →
    ∃ (hp : U32) (segs : List Segment) (n : Nat),
      t.bus.trace = s.bus.trace ++ (segmentEvents hp segs).take n ∧
      (s.resetDue = none → hp = t.hp ∧ (segmentEvents hp segs).length ≤ n) ∧
      (∀ x ∈ segs, x.Allowed s.cfg s.h.addressWidth) ∧ gated s.cfg .closed segs = true

/-- R162, R222: `BEGIN`, accepted in any state, leaves the six lines in their idle state. -/
def Obligations.BeginLeavesTheLinesIdle : Prop :=
  ∀ (hp : U32) (s : State), s.h.busy = false → ∃ t, exec (.beginOp hp) s = .next t ∧ t.bus.line.Idle

/-! ### The hang (R206) -/

/-- R236, R206, R234: with no chip every sample is 1, and `BEGIN` never returns: after any number of steps it is still
busy, nothing has been answered, the stored ID is FF FF FF, and no step stops. (Where `begin` stands after a step is
entry 1; that an undriven line reads 1 is entry 11.) -/
def Obligations.BeginHangsWithoutAChip : Prop :=
  ∀ (s : State) (hp : U32) (k : Nat), s.bus.env = .absent → s.h.busy = false → s.todo = [] → s.resets = [] →
    s.host = [.command (commandWord 0 0 hp) none none true] →
    ∃ t, Sys2Proof.core.run (k + 1) s = .next t ∧ t.h.busy = true ∧ t.h.initialized = s.h.initialized ∧
      t.rsps = s.rsps ∧ t.h.jedec = ⟨0xFF, 0xFF, 0xFF⟩ ∧ t.todo = beginTasks ∧ t.bus.line.Idle

/-! ### Against the device contract (20_memory.md section 5; the mock of 95_test_vectors.md section 3) -/

/-- R75, R148, R174: against a ready chip `RDBUF` delivers the bytes the array holds from the address on, modulo the
capacity, and leaves the array as it is. -/
def Obligations.ReadBufferDeliversTheArray : Prop :=
  ∀ (a n : U32) (s : State) (c : Chip), c.Attached s → s.h.busy = false → s.h.initialized = true →
    ∃ t c', exec (.rdbuf a n) s = .next t ∧ t.rspCode = .done ∧ t.rspVal = n ∧
      t.rbuf = c.mem.readFrom a.toNat n.toNat ++ s.rbuf.drop n.toNat ∧
      t.bus.env = .mock c' ∧ c'.mem = c.mem

/-- R55, R75, R175 to R177: against a ready chip the typed reads return the array's bytes, lowest address least
significant. -/
def Obligations.TypedReadsDeliverTheArray : Prop :=
  ∀ (a : U32) (s : State) (c : Chip), c.Attached s → s.h.busy = false → s.h.initialized = true →
    ∀ x ∈ [(Instr.rd8 a, 1), (.rd16 a, 2), (.rd32 a, 4)],
      ∃ t, exec x.1 s = .next t ∧ t.rspCode = .done ∧
        t.rspVal.toNat = littleEndian (c.mem.readFrom a.toNat x.2)

/-- R64, R82: reading, polling, identifying, resetting and enabling leave every byte of the array as it was, ready or
busy. -/
def Obligations.ReadsLeaveTheArray : Prop :=
  ∀ (i : Instr) (s t : State) (c : Chip), leavesFlash i = true → s.bus.env = .mock c → c.cfg = s.cfg →
    s.cfg.Distinct → c.sel = false → c.clk = false → s.h.addressWidth = s.cfg.addressWidth → exec i s = .next t →
    ∃ c', t.bus.env = .mock c' ∧ ∀ x, c'.mem.read x = c.mem.read x

/-- R76, G6 (entry 10): a program frame of at most 256 bytes, sent to a chip whose latch is set, leaves at each byte's
address (`programAddress`, within the page of the frame's address) the AND of old and new, and every other
byte as it was; with the latch clear it changes nothing (S9). -/
def Obligations.ProgramFrameAndsIntoThePage : Prop :=
  ∀ (a : U32) (payload : List Byte) (s : State) (c : Chip), s.bus.env = .mock c → c.cfg = s.cfg → s.cfg.Distinct →
    c.sel = false → c.clk = false → c.wip = false → s.h.addressWidth = s.cfg.addressWidth → payload.length ≤ 256 →
    s.h.addressWidth.fits a →
    ∃ t c', exec (.pp a payload) s = .next t ∧ t.bus.env = .mock c' ∧
      (c.wel = true → (∀ k, ∀ d, payload[k]? = some d →
          c'.mem.read (programAddress a k) = c.mem.read (programAddress a k) &&& d) ∧
        ∀ x, (∀ k < payload.length, programAddress a k ≠ x) → c'.mem.read x = c.mem.read x) ∧
      (c.wel = false → c'.mem = c.mem)

/-- R77, R102, R178 to R182: against a ready chip an erase sets every byte of the unit its index names to FF (the
address reduced to the frame's address bytes) and leaves every other byte as it was. -/
def Obligations.EraseSetsTheUnitToOnes : Prop :=
  ∀ (k : U32) (s : State) (c : Chip), c.Attached s → s.h.busy = false → s.h.initialized = true →
    (∀ x ∈ [(Instr.ersec k, 4096), (.erb32 k, 32768), (.erb64 k, 65536)],
      ∃ t c', exec x.1 s = .next t ∧ t.rspVal = 1 ∧ t.bus.env = .mock c' ∧
        ∀ y, c'.mem.read y =
          if k.toNat * x.2 % Config.capacity ≤ y ∧ y < k.toNat * x.2 % Config.capacity + x.2 then 0xFF else c.mem.read y) ∧
    (∃ t c', exec .erchip s = .next t ∧ t.rspVal = 1 ∧ t.bus.env = .mock c' ∧ ∀ y, c'.mem.read y = 0xFF)

/-- R77, S9 (entry 10): an erase frame sent on its own to a chip that is not busy sets every byte of the unit that
holds its address to FF when the latch is set, leaving every other byte as it was, and does nothing when the
latch is clear; the frame `CE` does the same for the whole array. -/
def Obligations.EraseFramesNeedTheLatch : Prop :=
  ∀ (a : U32) (s : State) (c : Chip), s.bus.env = .mock c → c.cfg = s.cfg → s.cfg.Distinct → c.sel = false →
    c.clk = false → c.wip = false → s.h.addressWidth = s.cfg.addressWidth →
    (∀ x ∈ [(Instr.se a, 4096), (.be32 a, 32768), (.be64 a, 65536)],
      ∃ t c', exec x.1 s = .next t ∧ t.bus.env = .mock c' ∧
        ∀ y, c'.mem.read y =
          if c.wel = true ∧ y / x.2 = a.toNat % Config.capacity / x.2 then 0xFF else c.mem.read y) ∧
    (∃ t c', exec .ce s = .next t ∧ t.bus.env = .mock c' ∧
      ∀ y, c'.mem.read y = if c.wel = true then 0xFF else c.mem.read y)

/-- R84, S5: erasing a sector, writing bytes inside it and reading them back delivers the bytes written, whatever the
array held; and outside the range written the sector is erased and the rest of the array as it was. Against a
chip that completes at once, operation by operation; and against a chip with any busy times, when the host
presents the three operations one after the other, after some number of steps. -/
def Obligations.EraseWriteReadRoundTrip : Prop :=
  ∀ (k a : U32) (d : List Byte) (s : State) (c : Chip), c.Attached s → s.h.busy = false → s.h.initialized = true →
    k.toNat < Config.nSectors → k.toNat * Config.sectorSize ≤ a.toNat →
    a.toNat + d.length ≤ (k.toNat + 1) * Config.sectorSize →
    let len : U32 := BitVec.ofNat 32 d.length
    let outside (m : Memory) : Prop := ∀ y, (y < a.toNat ∨ a.toNat + d.length ≤ y) →
      m.read y = if k.toNat * Config.sectorSize ≤ y ∧ y < (k.toNat + 1) * Config.sectorSize then 0xFF else c.mem.read y
    (c.nProg = 0 → c.nErase = 0 →
      ∃ s1 s2 s3 c', exec (.ersec k) s = .next s1 ∧ exec (.wrbuf a len) { s1 with wbuf := d } = .next s2 ∧
        exec (.rdbuf a len) s2 = .next s3 ∧ s2.rspVal.toNat = d.length ∧ s3.rspVal.toNat = d.length ∧
        s3.rbuf.take d.length = d ∧ s3.wbuf = d ∧ s3.bus.env = .mock c' ∧ outside c'.mem) ∧
    (s.todo = [] → s.resets = [] →
      s.host = [.command (commandWord 8 0 k) none none true, .command (commandWord 6 len a) (some d) none true,
        .command (commandWord 5 len a) none none true] →
      ∃ n t c', Sys2Proof.core.run n s = .next t ∧ t.h.busy = false ∧ t.host = [] ∧
        t.rsps = s.rsps ++ [⟨.done, 1⟩, ⟨.done, len⟩, ⟨.done, len⟩] ∧ t.rbuf.take d.length = d ∧ t.wbuf = d ∧
        t.bus.env = .mock c' ∧ outside c'.mem)

/-- R184, S7, S8 (C2): against a ready chip whose first all-ones aligned word is word `K` of the array, `USED` takes
`K + 1` steps and answers `4 K` (a word a step is entry 1; the mock is entry 10). -/
def Obligations.UsedFindsTheFirstErasedWord : Prop :=
  ∀ (K : Nat) (s : State) (c : Chip), c.Attached s → s.h.busy = false → s.h.initialized = true → s.todo = [] →
    s.resets = [] → s.host = [.command (commandWord 0xB 0 0) none none true] → 4 * K + 4 ≤ Config.capacity →
    (∀ j < 4, c.mem.read (4 * K + j) = 0xFF) →
    (∀ m < K, ∃ j < 4, c.mem.read (4 * m + j) ≠ 0xFF) →
    ∃ t, Sys2Proof.core.run (K + 1) s = .next t ∧ t.h.busy = false ∧ t.rspCode = .done ∧
      t.rspVal = BitVec.ofNat 32 (4 * K) ∧ t.rsps = s.rsps ++ [⟨.done, BitVec.ofNat 32 (4 * K)⟩]
end

