-- ==== Sys2Proof/Laws/Bus.lean ====
section
/-! SUPPORT. What the bit transport does to the bus: every shared operation emits exactly the events the spec writes down for it (Emitted), and nothing else. The laws of the operations above cite these and never unfold a bit cell. -/

namespace Sys2Proof.Machine

/-! ### Stretches of events compose -/

@[simp] theorem samples_append (xs ys : List Event) : samples (xs ++ ys) = samples xs + samples ys := by
  induction xs with
  | nil => simp [samples]
  | cons e xs ih => cases e <;> simp [samples, ih, Nat.add_right_comm]

@[simp] theorem Env.replay_append (e : Env) (xs ys : List Event) :
    e.replay (xs ++ ys) = (e.replay xs).replay ys := by
  induction xs generalizing e with
  | nil => rfl
  | cons x xs ih => cases x <;> simp [Env.replay, ih]

theorem Env.explains_append (e : Env) (n : Nat) (xs ys : List Event) :
    e.Explains n (xs ++ ys) ↔ e.Explains n xs ∧ (e.replay xs).Explains (n + samples xs) ys := by
  induction xs generalizing e n with
  | nil => simp [Env.Explains, Env.replay, samples]
  | cons x xs ih =>
    cases x <;> simp [Env.Explains, Env.replay, samples, ih, and_assoc, Nat.add_assoc, Nat.add_comm 1]

namespace Bus.Emitted

theorem nothing (b : Bus) : b.Emitted b [] :=
  ⟨by simp, rfl, rfl, rfl, trivial⟩

theorem trans {a b c : Bus} {xs ys : List Event} (h : a.Emitted b xs) (k : b.Emitted c ys) :
    a.Emitted c (xs ++ ys) where
  trace := by rw [k.trace, h.trace, List.append_assoc]
  line := by rw [k.line, h.line, List.foldl_append]
  env := by rw [k.env, h.env, Env.replay_append]
  fresh := by rw [k.fresh, h.fresh, samples_append, Nat.add_assoc]
  explained := by
    rw [Env.explains_append, ← h.env, ← h.fresh]
    exact ⟨h.explained, k.explained⟩

/-- The shift register and the cell index are not part of what events determine. -/
theorem setRegs {a b : Bus} {xs : List Event} (h : a.Emitted b xs) (v : Byte) (j : BitVec 3) :
    a.Emitted { b with sr := v, i := j } xs :=
  ⟨h.trace, h.line, h.env, h.fresh, h.explained⟩

theorem setSr {a b : Bus} {xs : List Event} (h : a.Emitted b xs) (v : Byte) : a.Emitted (b.setSr v) xs :=
  h.setRegs v b.i

theorem fromRegs {a b : Bus} {xs : List Event} {v : Byte} {j : BitVec 3}
    (h : Bus.Emitted { a with sr := v, i := j } b xs) : a.Emitted b xs :=
  ⟨h.trace, h.line, h.env, h.fresh, h.explained⟩

/-- The first events of a stretch are a stretch themselves (a run that block reset cuts short, R220). -/
theorem take {a b : Bus} {xs : List Event} (h : a.Emitted b xs) (n : Nat) :
    a.Emitted { a with
      trace := a.trace ++ xs.take n, line := (xs.take n).foldl Lines.after a.line, env := a.env.replay (xs.take n)
      fresh := a.fresh + samples (xs.take n) } (xs.take n) := by
  refine ⟨rfl, rfl, rfl, rfl, ?_⟩
  have := h.explained
  rw [← List.take_append_drop n xs, Env.explains_append] at this
  exact this.1

end Bus.Emitted

/-! ### One event -/

theorem Bus.emitted_drv (b : Bus) (l : Line) (v : Bool) : b.Emitted (b.emit (.drv l v)) [.drv l v] :=
  ⟨rfl, rfl, rfl, rfl, trivial⟩

theorem Bus.emitted_dir (b : Bus) (l : Line) (m : Mode) : b.Emitted (b.emit (.dir l m)) [.dir l m] :=
  ⟨rfl, rfl, rfl, rfl, trivial⟩

theorem Bus.emitted_dly (b : Bus) (n : U32) : b.Emitted (b.emit (.dly n)) [.dly n] :=
  ⟨rfl, rfl, rfl, rfl, trivial⟩

theorem Bus.emitted_yld (b : Bus) : b.Emitted (b.emit .yld) [.yld] :=
  ⟨rfl, rfl, rfl, rfl, trivial⟩

theorem Bus.emitted_sample (b : Bus) : b.Emitted b.sample [.smp .miso b.level] :=
  ⟨rfl, rfl, rfl, rfl, rfl, rfl, trivial⟩

@[simp] theorem Bus.emit_sr (e : Event) (b : Bus) : (b.emit e).sr = b.sr := rfl
@[simp] theorem Bus.sample_sr (b : Bus) : b.sample.sr = b.sr := rfl
@[simp] theorem Bus.setSr_sr (v : Byte) (b : Bus) : (b.setSr v).sr = v := rfl

/-! ### The clock pulse and the bit cell (R122, R123) -/

theorem Bus.emitted_halfCycle (hp : U32) (b : Bus) : b.Emitted (b.halfCycle hp) (delayEvents hp) := by
  unfold Bus.halfCycle delayEvents
  split
  · exact .nothing b
  · exact b.emitted_dly hp

@[simp] theorem Bus.halfCycle_sr (hp : U32) (b : Bus) : (b.halfCycle hp).sr = b.sr := by
  unfold Bus.halfCycle; split <;> rfl

theorem Bus.emitted_clockPulse (hp : U32) (b : Bus) : b.Emitted (b.clockPulse hp) (pulseEvents hp) := by
  have h := (((b.emitted_drv .sck true).trans (emitted_halfCycle hp _)).trans
    (emitted_drv _ .sck false)).trans (emitted_halfCycle hp _)
  simpa [pulseEvents, Bus.clockPulse] using h

@[simp] theorem Bus.clockPulse_sr (hp : U32) (b : Bus) : (b.clockPulse hp).sr = b.sr := by
  simp [Bus.clockPulse]

/-- One bit shifted in: what the shift register holds after a bit cell (R123). -/
def shiftedIn (x : Byte) (v : Bool) : Byte := (x <<< 1) ||| (if v then 1 else 0)

/-- A bit cell drives the top bit of the shift register and shifts the sampled bit in. -/
theorem Bus.bitCell_spec (hp : U32) (i : BitVec 3) (b : Bus) :
    ∃ v, b.Emitted (b.bitCell hp i) (cellEvents hp b.sr.msb v) ∧ (b.bitCell hp i).sr = shiftedIn b.sr v := by
  let b2 := ({ b with i := i }.emit (.drv .mosi b.sr.msb)).setSr (b.sr <<< 1)
  refine ⟨b2.level, ?_, ?_⟩
  · have h1 : b.Emitted b2 [.drv .mosi b.sr.msb] :=
      ((Bus.emitted_drv { b with i := i } .mosi b.sr.msb).fromRegs).setSr _
    have h := ((h1.trans b2.emitted_sample).setSr (shiftedIn b.sr b2.level)).trans (Bus.emitted_clockPulse hp _)
    exact h
  · exact Bus.clockPulse_sr hp _

/-! ### The byte exchange (R124) -/

theorem shiftedIn_getMsbD (x : Byte) (v : Bool) :
    (∀ i, i < 7 → (shiftedIn x v).getMsbD i = x.getMsbD (i + 1)) ∧ (shiftedIn x v).getMsbD 7 = v := by
  revert x v; decide +kernel

/-- The events of consecutive bit cells that start with `x` in the shift register and sample `vs`. -/
def cellsEvents (hp : U32) : Byte → List Bool → List Event
  | _, [] => []
  | x, v :: vs => cellEvents hp x.msb v ++ cellsEvents hp (shiftedIn x v) vs

theorem Bus.bitCells_spec (hp : U32) (is : List (BitVec 3)) (b : Bus) :
    ∃ vs, vs.length = is.length ∧
      b.Emitted (is.foldl (fun b i => b.bitCell hp i) b) (cellsEvents hp b.sr vs) ∧
      (is.foldl (fun b i => b.bitCell hp i) b).sr = vs.foldl shiftedIn b.sr := by
  induction is generalizing b with
  | nil => exact ⟨[], rfl, .nothing b, rfl⟩
  | cons i is ih =>
    obtain ⟨v, e, s⟩ := b.bitCell_spec hp i
    obtain ⟨vs, n, e', s'⟩ := ih (b.bitCell hp i)
    rw [s] at e' s'
    exact ⟨v :: vs, by simp [n], e.trans e', s'⟩

/-- After eight bit cells the register holds the eight samples, and the bits driven were the byte's. -/
theorem cellsEvents_eight (hp : U32) (x : Byte) (vs : List Bool) (h : vs.length = 8) :
    cellsEvents hp x vs = byteEvents hp x (vs.foldl shiftedIn x) := by
  match vs, h with
  | [v0, v1, v2, v3, v4, v5, v6, v7], _ =>
    have key := shiftedIn_getMsbD
    simp [cellsEvents, byteEvents, BitVec.msb, key, List.range, List.range.loop]

/-- R124: eight bit cells, bit 7 first; the byte received is left in the shift register. -/
theorem Bus.transferByte_spec (hp : U32) (out : Byte) (b : Bus) :
    b.Emitted (b.transferByte hp out) (byteEvents hp out (b.transferByte hp out).sr) := by
  obtain ⟨vs, n, e, s⟩ := Bus.bitCells_spec hp cellIndices (b.setSr out)
  rw [cellsEvents_eight hp _ vs n, ← s] at e
  exact e.fromRegs

/-! ### Exchanges and frames (R15, R93) -/

theorem Bus.exchange_length (hp : U32) (tx : List Byte) (b : Bus) : (b.exchange hp tx).1.length = tx.length := by
  induction tx generalizing b with
  | nil => rfl
  | cons t ts ih => simp [Bus.exchange, ih]

theorem Bus.exchange_spec (hp : U32) (tx : List Byte) (b : Bus) :
    b.Emitted (b.exchange hp tx).2 (exchangeEvents hp tx (b.exchange hp tx).1) := by
  induction tx generalizing b with
  | nil => exact .nothing b
  | cons t ts ih => exact (b.transferByte_spec hp t).trans (ih _)

/-- A frame emits exactly the events of the spec's frame notation. -/
theorem Bus.frame_spec (hp : U32) (tx : List Byte) (b : Bus) :
    Bus.Framed hp tx (b.frame hp tx).1 b (b.frame hp tx).2 := by
  refine ⟨Bus.exchange_length hp tx _, ?_⟩
  have h := ((b.emitted_drv .cs false).trans (Bus.exchange_spec hp tx b.selectAssert)).trans
    (Bus.emitted_drv _ .cs true)
  exact h


/-! ### The lines after a frame -/

theorem Lines.after_delay (hp : U32) (x : Lines) : (delayEvents hp).foldl Lines.after x = x := by
  unfold delayEvents; split <;> rfl

theorem Lines.after_cell (hp : U32) (u v : Bool) (x : Lines) :
    (cellEvents hp u v).foldl Lines.after x =
      { x with mosi := { x.mosi with level := some u }, sck := { x.sck with level := some false } } := by
  simp [cellEvents, pulseEvents, Lines.after_delay, Lines.after, Lines.set, Lines.get]

theorem Lines.after_byte (hp : U32) (t r : Byte) (x : Lines) :
    (byteEvents hp t r).foldl Lines.after x =
      { x with mosi := { x.mosi with level := some (t.getLsbD 0) }, sck := { x.sck with level := some false } } := by
  simp [byteEvents, Lines.after_cell, List.range, List.range.loop, BitVec.getMsbD]

/-- Byte exchanges leave the clock low and touch no line but clock and data-out (R127). -/
theorem Lines.after_exchange (hp : U32) (tx rx : List Byte) (x : Lines) :
    ∃ m c, (exchangeEvents hp tx rx).foldl Lines.after x =
        { x with mosi := { x.mosi with level := m }, sck := { x.sck with level := c } } ∧
      (x.sck.level = some false → c = some false) := by
  induction tx generalizing rx x with
  | nil => exact ⟨x.mosi.level, x.sck.level, rfl, id⟩
  | cons t ts ih =>
    cases rx with
    | nil => exact ⟨x.mosi.level, x.sck.level, rfl, id⟩
    | cons r rs =>
      obtain ⟨m, c, h, k⟩ := ih rs ((byteEvents hp t r).foldl Lines.after x)
      refine ⟨m, c, ?_, fun _ => k ?_⟩
      · rw [exchangeEvents, List.foldl_append, h, Lines.after_byte]
      · simp [Lines.after_byte]

/-- A frame leaves idle lines idle (R35). -/
theorem Lines.idle_after_frame {hp : U32} {tx rx : List Byte} {x : Lines} (h : x.Idle) :
    ((frameEvents hp tx rx).foldl Lines.after x).Idle := by
  obtain ⟨h1, h2, h3, h4, h5, h6⟩ := h
  obtain ⟨m, c, e, k⟩ := Lines.after_exchange hp tx rx (x.after (.drv .cs false))
  have hc : c = some false := k (by simp [Lines.after, Lines.set, h2])
  subst hc
  rw [frameEvents, List.foldl_cons, List.foldl_append, e]
  simp [Lines.Idle, Lines.after, Lines.set, Lines.get, *]

theorem Lines.idle_after_config (x : Lines) :
    (configEvents.foldl Lines.after x).Idle := by
  simp [configEvents, Lines.after, Lines.set, Lines.get, Lines.Idle, Mode.dir]

theorem Bus.emitted_emitAll (evs : List Event) (b : Bus) (h : ∀ e ∈ evs, ∀ l v, e ≠ .smp l v) :
    b.Emitted (b.emitAll evs) evs := by
  induction evs generalizing b with
  | nil => exact .nothing b
  | cons e evs ih =>
    have h1 : b.Emitted (b.emit e) [e] := by
      cases e with
      | smp l v => exact absurd rfl (h _ (by simp) l v)
      | dir l m => exact b.emitted_dir l m
      | drv l v => exact b.emitted_drv l v
      | dly n => exact b.emitted_dly n
      | yld => exact b.emitted_yld
    exact h1.trans (ih (b.emit e) fun e he => h e (by simp [he]))

end Sys2Proof.Machine
end

