-- ==== Sys2Proof/Laws/Decode.lean ====
section
/-! SUPPORT. What the frame decoder can answer: each format on its own, then the decoder; and the address bytes read back (R100). -/

namespace Sys2Proof

theorem bare_some {n : Nat} {i j : Instr} {rest : List Byte} (h : bare n i rest = some j) :
    j = i ∧ rest.length = n := by
  unfold bare at h
  split at h
  · exact ⟨(Option.some.inj h).symm, ‹_›⟩
  · cases h

theorem addressed_some {aw : AddrWidth} {mk : U32 → Instr} {rest : List Byte} {j : Instr}
    (h : addressed aw mk rest = some j) : ∃ a, j = mk a ∧ takeAddress aw rest = some (a, []) := by
  unfold addressed at h
  split at h
  · exact ⟨_, (Option.some.inj h).symm, ‹_›⟩
  · cases h

theorem fastRead_some {aw : AddrWidth} {rest : List Byte} {j : Instr} (h : fastRead aw rest = some j) :
    ∃ a d fills, j = .fastrd a (BitVec.ofNat 32 fills.length) ∧ takeAddress aw rest = some (a, d :: fills) ∧
      fills.length < 2 ^ 32 := by
  unfold fastRead at h
  split at h
  · split at h
    · exact ⟨_, _, _, (Option.some.inj h).symm, ‹_›, ‹_›⟩
    · cases h
  · cases h

theorem pageProgram_some {aw : AddrWidth} {rest : List Byte} {j : Instr} (h : pageProgram aw rest = some j) :
    ∃ a payload, j = .pp a payload ∧ takeAddress aw rest = some (a, payload) ∧ payload.length < 2 ^ 32 := by
  unfold pageProgram at h
  split at h
  · split at h
    · exact ⟨_, _, (Option.some.inj h).symm, ‹_›, ‹_›⟩
    · cases h
  · cases h

/-- The twelve wire frames of R105. -/
inductive IsWireFrame : Instr → Prop where
  | rdid : IsWireFrame .rdid
  | rdsr1 : IsWireFrame .rdsr1
  | rdsr2 : IsWireFrame .rdsr2
  | rsten : IsWireFrame .rsten
  | rst : IsWireFrame .rst
  | wren : IsWireFrame .wren
  | fastrd (a n : U32) : IsWireFrame (.fastrd a n)
  | pp (a : U32) (payload : List Byte) : IsWireFrame (.pp a payload)
  | se (a : U32) : IsWireFrame (.se a)
  | be32 (a : U32) : IsWireFrame (.be32 a)
  | be64 (a : U32) : IsWireFrame (.be64 a)
  | ce : IsWireFrame .ce

theorem ite_some {p : Prop} [Decidable p] {x y : Option Instr} {i : Instr} {q : Prop}
    (hx : x = some i → q) (hy : y = some i → q) (h : (if p then x else y) = some i) : q := by
  split at h
  · exact hx h
  · exact hy h

/-- Whatever bytes the frame decoder accepts, they are one of the twelve wire frames. -/
theorem decodeFrame_isWireFrame {c : Cfg} {aw : AddrWidth} {bytes : List Byte} {i : Instr}
    (h : decodeFrame c aw bytes = some i) : IsWireFrame i := by
  cases bytes with
  | nil => cases h
  | cons op rest =>
    rw [decodeFrame] at h
    refine ite_some (fun h => by rw [(bare_some h).1]; exact .rdid) (fun h => ?_) h
    refine ite_some (fun h => by rw [(bare_some h).1]; exact .rdsr1) (fun h => ?_) h
    refine ite_some (fun h => by rw [(bare_some h).1]; exact .rdsr2) (fun h => ?_) h
    refine ite_some (fun h => by rw [(bare_some h).1]; exact .rsten) (fun h => ?_) h
    refine ite_some (fun h => by rw [(bare_some h).1]; exact .rst) (fun h => ?_) h
    refine ite_some (fun h => by rw [(bare_some h).1]; exact .wren) (fun h => ?_) h
    refine ite_some (fun h => ?_) (fun h => ?_) h
    · obtain ⟨a, d, fills, rfl, -⟩ := fastRead_some h; exact .fastrd _ _
    refine ite_some (fun h => ?_) (fun h => ?_) h
    · obtain ⟨a, payload, rfl, -⟩ := pageProgram_some h; exact .pp _ _
    refine ite_some (fun h => ?_) (fun h => ?_) h
    · obtain ⟨a, rfl, -⟩ := addressed_some h; exact .se _
    refine ite_some (fun h => ?_) (fun h => ?_) h
    · obtain ⟨a, rfl, -⟩ := addressed_some h; exact .be32 _
    refine ite_some (fun h => ?_) (fun h => ?_) h
    · obtain ⟨a, rfl, -⟩ := addressed_some h; exact .be64 _
    refine ite_some (fun h => by rw [(bare_some h).1]; exact .ce) (fun h => ?_) h
    cases h

/-- The address bytes, written out for the two widths (R100). -/
theorem addressBytes_three (a : U32) :
    addressBytes .three a = [a.extractLsb' 16 8, a.extractLsb' 8 8, a.extractLsb' 0 8] := by
  have key : ∀ k, ((a >>> k) &&& 0xFF).setWidth 8 = a.extractLsb' k 8 := by
    intro k
    ext j hj
    simp only [BitVec.getElem_setWidth, BitVec.getLsbD_and, BitVec.getLsbD_ushiftRight, BitVec.getElem_extractLsb']
    have : (0xFF : U32).getLsbD j = true := by
      have : ∀ j : Fin 8, (0xFF : U32).getLsbD j.val = true := by decide
      exact this ⟨j, hj⟩
    rw [this, Bool.and_true]
  simp only [addressBytes, AddrWidth.bytes, List.range, List.range.loop, List.map_cons, List.map_nil, key]

theorem addressBytes_four (a : U32) :
    addressBytes .four a =
      [a.extractLsb' 24 8, a.extractLsb' 16 8, a.extractLsb' 8 8, a.extractLsb' 0 8] := by
  have key : ∀ k, ((a >>> k) &&& 0xFF).setWidth 8 = a.extractLsb' k 8 := by
    intro k
    ext j hj
    simp only [BitVec.getElem_setWidth, BitVec.getLsbD_and, BitVec.getLsbD_ushiftRight, BitVec.getElem_extractLsb']
    have : (0xFF : U32).getLsbD j = true := by
      have : ∀ j : Fin 8, (0xFF : U32).getLsbD j.val = true := by decide
      exact this ⟨j, hj⟩
    rw [this, Bool.and_true]
  simp only [addressBytes, AddrWidth.bytes, List.range, List.range.loop, List.map_cons, List.map_nil, key]

end Sys2Proof
end

