-- ==== Sys2Proof/Laws/Dispatch.lean ====
section
/-! SUPPORT. exec, arm by arm: one rewriting lemma per constructor, so that no later proof unfolds the whole dispatch. -/

namespace Sys2Proof.Machine

@[simp] theorem exec_beginOp (hp : U32) (s : State) : exec (.beginOp hp) s = execBegin hp s := rfl
@[simp] theorem exec_ident (s : State) : exec .ident s = execIdent s := rfl
@[simp] theorem exec_rd8 (addr : U32) (s : State) : exec (.rd8 addr) s = execRd8 addr s := rfl
@[simp] theorem exec_rd16 (addr : U32) (s : State) : exec (.rd16 addr) s = execRd16 addr s := rfl
@[simp] theorem exec_rd32 (addr : U32) (s : State) : exec (.rd32 addr) s = execRd32 addr s := rfl
@[simp] theorem exec_rdbuf (addr : U32) (len : U32) (s : State) : exec (.rdbuf addr len) s = execRdbuf addr len s := rfl
@[simp] theorem exec_wrbuf (addr : U32) (len : U32) (s : State) : exec (.wrbuf addr len) s = execWrbuf addr len s := rfl
@[simp] theorem exec_erchip (s : State) : exec .erchip s = execErchip s := rfl
@[simp] theorem exec_ersec (idx : U32) (s : State) : exec (.ersec idx) s = execErsec idx s := rfl
@[simp] theorem exec_erb32 (idx : U32) (s : State) : exec (.erb32 idx) s = execErb32 idx s := rfl
@[simp] theorem exec_erb64 (idx : U32) (s : State) : exec (.erb64 idx) s = execErb64 idx s := rfl
@[simp] theorem exec_used (s : State) : exec .used s = execUsed s := rfl
@[simp] theorem exec_reservedC (s : State) : exec .reservedC s = execReservedC s := rfl
@[simp] theorem exec_reservedD (s : State) : exec .reservedD s = execReservedD s := rfl
@[simp] theorem exec_reservedE (s : State) : exec .reservedE s = execReservedE s := rfl
@[simp] theorem exec_reservedF (s : State) : exec .reservedF s = execReservedF s := rfl
@[simp] theorem exec_rdid (s : State) : exec .rdid s = execRdid s := rfl
@[simp] theorem exec_rdsr1 (s : State) : exec .rdsr1 s = execRdsr1 s := rfl
@[simp] theorem exec_rdsr2 (s : State) : exec .rdsr2 s = execRdsr2 s := rfl
@[simp] theorem exec_rsten (s : State) : exec .rsten s = execRsten s := rfl
@[simp] theorem exec_rst (s : State) : exec .rst s = execRst s := rfl
@[simp] theorem exec_wren (s : State) : exec .wren s = execWren s := rfl
@[simp] theorem exec_fastrd (addr : U32) (len : U32) (s : State) : exec (.fastrd addr len) s = execFastrd addr len s := rfl
@[simp] theorem exec_pp (addr : U32) (payload : List Byte) (s : State) : exec (.pp addr payload) s = execPp addr payload s := rfl
@[simp] theorem exec_se (addr : U32) (s : State) : exec (.se addr) s = execSe addr s := rfl
@[simp] theorem exec_be32 (addr : U32) (s : State) : exec (.be32 addr) s = execBe32 addr s := rfl
@[simp] theorem exec_be64 (addr : U32) (s : State) : exec (.be64 addr) s = execBe64 addr s := rfl
@[simp] theorem exec_ce (s : State) : exec .ce s = execCe s := rfl
@[simp] theorem exec_selectAssert (s : State) : exec .selectAssert s = execSelectAssert s := rfl
@[simp] theorem exec_selectDeassert (s : State) : exec .selectDeassert s = execSelectDeassert s := rfl
@[simp] theorem exec_clockPulse (s : State) : exec .clockPulse s = execClockPulse s := rfl
@[simp] theorem exec_transferByte (out : Byte) (s : State) : exec (.transferByte out) s = execTransferByte out s := rfl
@[simp] theorem exec_transferBuffer (count : U32) (s : State) : exec (.transferBuffer count) s = execTransferBuffer count s := rfl
@[simp] theorem exec_runCommand (opcode : Byte) (s : State) : exec (.runCommand opcode) s = execRunCommand opcode s := rfl
@[simp] theorem exec_readCommand (opcode : Byte) (length : U32) (s : State) : exec (.readCommand opcode length) s = execReadCommand opcode length s := rfl
@[simp] theorem exec_eraseCommand (opcode : Byte) (address : U32) (s : State) : exec (.eraseCommand opcode address) s = execEraseCommand opcode address s := rfl
@[simp] theorem exec_readMemory (address : U32) (length : U32) (s : State) : exec (.readMemory address length) s = execReadMemory address length s := rfl
@[simp] theorem exec_writeMemory (address : U32) (length : U32) (s : State) : exec (.writeMemory address length) s = execWriteMemory address length s := rfl
@[simp] theorem exec_waitUntilReady (s : State) : exec .waitUntilReady s = execWaitUntilReady s := rfl
@[simp] theorem exec_writeEnable (s : State) : exec .writeEnable s = execWriteEnable s := rfl
@[simp] theorem exec_configureLines (s : State) : exec .configureLines s = execConfigureLines s := rfl
@[simp] theorem exec_addressPhase (address : U32) (s : State) : exec (.addressPhase address) s = execAddressPhase address s := rfl
@[simp] theorem exec_readStatus1 (s : State) : exec .readStatus1 s = execReadStatus1 s := rfl
@[simp] theorem exec_readStatus2 (s : State) : exec .readStatus2 s = execReadStatus2 s := rfl
@[simp] theorem exec_readJEDEC (s : State) : exec .readJEDEC s = execReadJedec s := rfl

end Sys2Proof.Machine
end

