-- ==== Sys2Proof/Laws/Memory.lean ====
section
/-! SUPPORT. The flash array: a read after a write, a write leaves every other address alone, and every memory operation keeps the canonical form; so does everything the mock chip does. -/

namespace Sys2Proof.Machine

/-! ### Reading back -/

@[simp] theorem Memory.read_nil (a : Nat) : Memory.read [] a = Config.erasedByte := rfl

theorem Memory.read_insert (m : Memory) (a x : Nat) (b : Byte) :
    (Memory.insert m a b).read x = if x = a then b else m.read x := by
  induction m with
  | nil => simp [Memory.insert, Memory.read, eq_comm]
  | cons c m ih =>
    obtain ⟨k, v⟩ := c
    unfold Memory.insert
    split
    · by_cases h : x = a
      · simp [Memory.read, h]
      · simp [Memory.read, h, Ne.symm h]
    · split
      · subst_vars
        by_cases h : x = k
        · simp [Memory.read, h]
        · simp [Memory.read, h, Ne.symm h]
      · by_cases hk : k = x
        · subst hk
          have : k ≠ a := fun h => by simp_all
          simp [Memory.read, this]
        · simp [Memory.read, hk, ih]

theorem Memory.read_eraseRange (m : Memory) (lo n x : Nat) :
    (m.eraseRange lo n).read x = if lo ≤ x ∧ x < lo + n then Config.erasedByte else m.read x := by
  induction m with
  | nil => simp [Memory.eraseRange, Memory.read]
  | cons c m ih =>
    obtain ⟨k, v⟩ := c
    unfold Memory.eraseRange at ih ⊢
    rw [List.filter_cons]
    by_cases hk : lo ≤ k ∧ k < lo + n
    · rw [if_neg (by simp [hk.1, hk.2]), ih]
      split
      · rfl
      · rename_i h
        have : k ≠ x := fun e => h (e ▸ hk)
        simp [Memory.read, this]
    · have hp : (!(decide (lo ≤ k) && decide (k < lo + n))) = true := by
        simp only [Bool.not_eq_true', Bool.and_eq_false_iff, decide_eq_false_iff_not]
        omega
      rw [if_pos hp]
      by_cases e : k = x
      · subst e; simp [Memory.read, hk]
      · simpa [Memory.read, e] using ih

theorem Memory.read_write (m : Memory) (a x : Nat) (b : Byte) :
    (m.write a b).read x = if x = a then b else m.read x := by
  unfold Memory.write
  split
  · rw [Memory.read_eraseRange]
    by_cases h : x = a
    · subst h; simp [*]
    · rw [if_neg (by omega), if_neg h]
  · exact Memory.read_insert m a x b

/-! ### The canonical form -/

theorem Memory.wf_nil : Memory.wf [] := by simp [Memory.wf]

theorem Memory.wf_eraseRange {m : Memory} (h : m.wf) (lo n : Nat) : (m.eraseRange lo n).wf :=
  ⟨h.1.filter _, fun c hc => h.2 c (List.mem_filter.1 hc).1⟩

theorem Memory.mem_insert {m : Memory} {a : Nat} {b : Byte} {c : Host.Cell} (h : c ∈ Memory.insert m a b) :
    c = (a, b) ∨ c ∈ m := by
  induction m with
  | nil => simpa [Memory.insert] using h
  | cons d m ih =>
    obtain ⟨k, v⟩ := d
    unfold Memory.insert at h
    split at h
    · simpa using h
    · split at h
      · rcases List.mem_cons.1 h with e | e
        · exact .inl e
        · exact .inr (List.mem_cons_of_mem _ e)
      · rcases List.mem_cons.1 h with e | e
        · exact .inr (by simp [e])
        · exact (ih e).imp id (List.mem_cons_of_mem _)

theorem Memory.wf_insert {m : Memory} (h : m.wf) {a : Nat} {b : Byte} (ha : a < Config.capacity)
    (hb : b ≠ Config.erasedByte) : (Memory.insert m a b).wf := by
  refine ⟨?_, fun c hc => ?_⟩
  · obtain ⟨hs, -⟩ := h
    induction m with
    | nil => simp [Memory.insert]
    | cons d m ih =>
      obtain ⟨k, v⟩ := d
      rw [List.pairwise_cons] at hs
      unfold Memory.insert
      split
      · rename_i hlt
        refine List.pairwise_cons.2 ⟨fun c hc => ?_, List.pairwise_cons.2 hs⟩
        rcases List.mem_cons.1 hc with e | e
        · simpa [e] using hlt
        · exact lt_trans hlt (hs.1 c e)
      · split
        · subst_vars
          exact List.pairwise_cons.2 hs
        · refine List.pairwise_cons.2 ⟨fun c hc => ?_, ih hs.2⟩
          rcases Memory.mem_insert hc with e | e
          · subst e; simp; omega
          · exact hs.1 c e
  · rcases Memory.mem_insert hc with e | e
    · exact e ▸ ⟨ha, hb⟩
    · exact h.2 c e

theorem Memory.wf_write {m : Memory} (h : m.wf) {a : Nat} {b : Byte} (ha : a < Config.capacity) :
    (m.write a b).wf := by
  unfold Memory.write
  split
  · exact Memory.wf_eraseRange h a 1
  · exact Memory.wf_insert h ha ‹_›

/-! ### The mock chip keeps the canonical form -/

theorem programAddress_lt (a : U32) (i : Nat) : programAddress a i < Config.capacity :=
  Nat.mod_lt _ (by decide)

theorem programBytes_wf (a : U32) (ds : List Byte) (i : Nat) {m : Memory} (h : m.wf) :
    (programBytes a i ds m).wf := by
  induction ds generalizing i m with
  | nil => exact h
  | cons d ds ih => exact ih (i + 1) (Memory.wf_write h (programAddress_lt a i))

/-- An address that no byte of the payload goes to keeps its byte. -/
theorem programBytes_read_other (a : U32) (ds : List Byte) (i : Nat) (m : Memory) (x : Nat)
    (h : ∀ j, i ≤ j → j < i + ds.length → programAddress a j ≠ x) : (programBytes a i ds m).read x = m.read x := by
  induction ds generalizing i m with
  | nil => rfl
  | cons d ds ih =>
    have h0 := h i le_rfl (by simp)
    rw [programBytes, ih (i + 1) _ fun j h1 h2 => h j (by omega) (by simp at h2 ⊢; omega),
      Memory.read_write, if_neg (Ne.symm h0)]

@[simp] theorem Chip.startBusy_mem (c : Chip) (n : Nat) : (c.startBusy n).mem = c.mem := by
  unfold Chip.startBusy; split <;> rfl

@[simp] theorem Chip.countPoll_mem (c : Chip) : c.countPoll.mem = c.mem := by
  unfold Chip.countPoll; split <;> rfl

@[simp] theorem Chip.resetIfEnabled_mem (c : Chip) : c.resetIfEnabled.mem = c.mem := by
  unfold Chip.resetIfEnabled; split <;> rfl

/-- What a frame can do to the array: nothing, or it programs a payload, or it erases a range, or all. -/
inductive Memory.FrameStep (m : Memory) : Memory → Prop where
  | same : FrameStep m m
  | programmed (a : U32) (ds : List Byte) : FrameStep m (programBytes a 0 ds m)
  | erased (lo n : Nat) : FrameStep m (m.eraseRange lo n)
  | cleared : FrameStep m []

theorem Memory.FrameStep.wf {m m' : Memory} (h : m.FrameStep m') (w : m.wf) : m'.wf := by
  cases h with
  | same => exact w
  | programmed a ds => exact programBytes_wf a ds 0 w
  | erased lo n => exact Memory.wf_eraseRange w lo n
  | cleared => exact Memory.wf_nil

theorem Chip.program_mem (c : Chip) (rest : List Byte) : c.mem.FrameStep (c.program rest).mem := by
  unfold Chip.program
  split
  · split
    · simpa using .programmed _ _
    · exact .same
  · exact .same

theorem Chip.eraseUnit_mem (c : Chip) (unit : Nat) (rest : List Byte) :
    c.mem.FrameStep (c.eraseUnit unit rest).mem := by
  unfold Chip.eraseUnit
  split
  · split
    · simpa using .erased _ _
    · exact .same
  · exact .same

theorem Chip.eraseAll_mem (c : Chip) (rest : List Byte) : c.mem.FrameStep (c.eraseAll rest).mem := by
  unfold Chip.eraseAll
  split
  · simpa using .cleared
  · exact .same

theorem Memory.FrameStep.ite {m : Memory} {p : Prop} [Decidable p] {x y : Chip} (hx : m.FrameStep x.mem)
    (hy : m.FrameStep y.mem) : m.FrameStep (if p then x else y).mem := by
  split
  · exact hx
  · exact hy

theorem Chip.accept_mem (c : Chip) (rx : List Byte) : c.mem.FrameStep (c.accept rx).mem := by
  cases rx with
  | nil => exact .same
  | cons op rest =>
    rw [Chip.accept]
    repeat' first
      | exact .same
      | exact c.program_mem rest
      | exact c.eraseUnit_mem _ rest
      | exact c.eraseAll_mem rest
      | exact c.countPoll_mem.symm ▸ .same
      | exact c.resetIfEnabled_mem.symm ▸ .same
      | apply Memory.FrameStep.ite

theorem Chip.accept_wf {c : Chip} (h : c.mem.wf) (rx : List Byte) : (c.accept rx).mem.wf := (c.accept_mem rx).wf h

theorem Chip.shiftIn_mem (c : Chip) : c.shiftIn.mem = c.mem := by
  unfold Chip.shiftIn; dsimp only; split <;> rfl

@[simp] theorem Chip.drive_mem (c : Chip) : c.drive.mem = c.mem := rfl

theorem Chip.clock_mem (c : Chip) (v : Bool) : (c.clock v).mem = c.mem := by
  unfold Chip.clock; split
  · exact c.shiftIn_mem
  · split <;> rfl

/-- Every event leaves the array in canonical form. -/
theorem Chip.observe_wf {c : Chip} (h : c.mem.wf) (e : Event) : (c.observe e).mem.wf := by
  unfold Chip.observe
  split
  · unfold Chip.deselect; split
    · exact Chip.accept_wf h c.rx
    · exact h
  · unfold Chip.select; split <;> exact h
  · exact (c.clock_mem _).symm ▸ h
  all_goals exact h

/-- The environment's array, if it has one, is canonical. -/
def Env.FlashWf (e : Env) : Prop := ∀ c, e = .mock c → c.mem.wf

theorem Env.observe_flashWf {e : Env} (h : e.FlashWf) (ev : Event) : (e.observe ev).FlashWf := by
  intro c hc
  cases e with
  | draws s => cases hc
  | absent => cases hc
  | mock c' => cases hc; exact Chip.observe_wf (h c' rfl) ev

theorem Env.advance_flashWf {e : Env} (h : e.FlashWf) : e.advance.FlashWf := by
  intro c hc
  cases e with
  | draws s => cases hc
  | absent => cases hc
  | mock c' => cases hc; exact h _ rfl

/-- Whatever events the block emits, the array stays canonical. -/
theorem Env.replay_flashWf {e : Env} (h : e.FlashWf) (evs : List Event) : (e.replay evs).FlashWf := by
  induction evs generalizing e with
  | nil => exact h
  | cons x xs ih =>
    cases x with
    | smp l v => exact ih (Env.advance_flashWf (Env.observe_flashWf h _))
    | dir l m => exact ih (Env.observe_flashWf h _)
    | drv l v => exact ih (Env.observe_flashWf h _)
    | dly n => exact ih (Env.observe_flashWf h _)
    | yld => exact ih (Env.observe_flashWf h _)

theorem Bus.Emitted.flashWf {a b : Bus} {evs : List Event} (h : a.Emitted b evs) (w : a.env.FlashWf) :
    b.env.FlashWf := h.env ▸ Env.replay_flashWf w evs

end Sys2Proof.Machine
end

