-- ==== Sys2Proof/Laws/State.lean ====
section
/-! SUPPORT. One lemma per shared operation and field that it leaves alone, and what it writes where that is one word: later proofs rewrite with these and do not unfold a record update. -/

namespace Sys2Proof.Machine

/-! ### State.emit -/

@[simp] theorem State.emit_cfg (e : Event) (s : State) : (s.emit e).cfg = s.cfg := rfl
@[simp] theorem State.emit_h (e : Event) (s : State) : (s.emit e).h = s.h := rfl
@[simp] theorem State.emit_w (e : Event) (s : State) : (s.emit e).w = s.w := rfl
@[simp] theorem State.emit_resp (e : Event) (s : State) : (s.emit e).resp = s.resp := rfl
@[simp] theorem State.emit_rspCode (e : Event) (s : State) : (s.emit e).rspCode = s.rspCode := rfl
@[simp] theorem State.emit_rspVal (e : Event) (s : State) : (s.emit e).rspVal = s.rspVal := rfl
@[simp] theorem State.emit_rbuf (e : Event) (s : State) : (s.emit e).rbuf = s.rbuf := rfl
@[simp] theorem State.emit_wbuf (e : Event) (s : State) : (s.emit e).wbuf = s.wbuf := rfl
@[simp] theorem State.emit_todo (e : Event) (s : State) : (s.emit e).todo = s.todo := rfl
@[simp] theorem State.emit_rsps (e : Event) (s : State) : (s.emit e).rsps = s.rsps := rfl
@[simp] theorem State.emit_host (e : Event) (s : State) : (s.emit e).host = s.host := rfl
@[simp] theorem State.emit_resets (e : Event) (s : State) : (s.emit e).resets = s.resets := rfl

/-! ### State.frame -/

@[simp] theorem State.frame_cfg (tx : List Byte) (s : State) : (s.frame tx).2.cfg = s.cfg := rfl
@[simp] theorem State.frame_h (tx : List Byte) (s : State) : (s.frame tx).2.h = s.h := rfl
@[simp] theorem State.frame_w (tx : List Byte) (s : State) : (s.frame tx).2.w = s.w := rfl
@[simp] theorem State.frame_resp (tx : List Byte) (s : State) : (s.frame tx).2.resp = s.resp := rfl
@[simp] theorem State.frame_rspCode (tx : List Byte) (s : State) : (s.frame tx).2.rspCode = s.rspCode := rfl
@[simp] theorem State.frame_rspVal (tx : List Byte) (s : State) : (s.frame tx).2.rspVal = s.rspVal := rfl
@[simp] theorem State.frame_rbuf (tx : List Byte) (s : State) : (s.frame tx).2.rbuf = s.rbuf := rfl
@[simp] theorem State.frame_wbuf (tx : List Byte) (s : State) : (s.frame tx).2.wbuf = s.wbuf := rfl
@[simp] theorem State.frame_todo (tx : List Byte) (s : State) : (s.frame tx).2.todo = s.todo := rfl
@[simp] theorem State.frame_rsps (tx : List Byte) (s : State) : (s.frame tx).2.rsps = s.rsps := rfl
@[simp] theorem State.frame_host (tx : List Byte) (s : State) : (s.frame tx).2.host = s.host := rfl
@[simp] theorem State.frame_resets (tx : List Byte) (s : State) : (s.frame tx).2.resets = s.resets := rfl

/-! ### State.exchange -/

@[simp] theorem State.exchange_cfg (tx : List Byte) (s : State) : (s.exchange tx).2.cfg = s.cfg := rfl
@[simp] theorem State.exchange_h (tx : List Byte) (s : State) : (s.exchange tx).2.h = s.h := rfl
@[simp] theorem State.exchange_w (tx : List Byte) (s : State) : (s.exchange tx).2.w = s.w := rfl
@[simp] theorem State.exchange_resp (tx : List Byte) (s : State) : (s.exchange tx).2.resp = s.resp := rfl
@[simp] theorem State.exchange_rspCode (tx : List Byte) (s : State) : (s.exchange tx).2.rspCode = s.rspCode := rfl
@[simp] theorem State.exchange_rspVal (tx : List Byte) (s : State) : (s.exchange tx).2.rspVal = s.rspVal := rfl
@[simp] theorem State.exchange_rbuf (tx : List Byte) (s : State) : (s.exchange tx).2.rbuf = s.rbuf := rfl
@[simp] theorem State.exchange_wbuf (tx : List Byte) (s : State) : (s.exchange tx).2.wbuf = s.wbuf := rfl
@[simp] theorem State.exchange_todo (tx : List Byte) (s : State) : (s.exchange tx).2.todo = s.todo := rfl
@[simp] theorem State.exchange_rsps (tx : List Byte) (s : State) : (s.exchange tx).2.rsps = s.rsps := rfl
@[simp] theorem State.exchange_host (tx : List Byte) (s : State) : (s.exchange tx).2.host = s.host := rfl
@[simp] theorem State.exchange_resets (tx : List Byte) (s : State) : (s.exchange tx).2.resets = s.resets := rfl

/-! ### runCommand -/

@[simp] theorem runCommand_cfg (op : Byte) (s : State) : (runCommand op s).cfg = s.cfg := rfl
@[simp] theorem runCommand_h (op : Byte) (s : State) : (runCommand op s).h = s.h := rfl
@[simp] theorem runCommand_w (op : Byte) (s : State) : (runCommand op s).w = s.w := rfl
@[simp] theorem runCommand_resp (op : Byte) (s : State) : (runCommand op s).resp = s.resp := rfl
@[simp] theorem runCommand_rspCode (op : Byte) (s : State) : (runCommand op s).rspCode = s.rspCode := rfl
@[simp] theorem runCommand_rspVal (op : Byte) (s : State) : (runCommand op s).rspVal = s.rspVal := rfl
@[simp] theorem runCommand_rbuf (op : Byte) (s : State) : (runCommand op s).rbuf = s.rbuf := rfl
@[simp] theorem runCommand_wbuf (op : Byte) (s : State) : (runCommand op s).wbuf = s.wbuf := rfl
@[simp] theorem runCommand_todo (op : Byte) (s : State) : (runCommand op s).todo = s.todo := rfl
@[simp] theorem runCommand_rsps (op : Byte) (s : State) : (runCommand op s).rsps = s.rsps := rfl
@[simp] theorem runCommand_host (op : Byte) (s : State) : (runCommand op s).host = s.host := rfl
@[simp] theorem runCommand_resets (op : Byte) (s : State) : (runCommand op s).resets = s.resets := rfl

/-! ### readCommand -/

@[simp] theorem readCommand_cfg (op : Byte) (n : Nat) (s : State) : (readCommand op n s).cfg = s.cfg := rfl
@[simp] theorem readCommand_h (op : Byte) (n : Nat) (s : State) : (readCommand op n s).h = s.h := rfl
@[simp] theorem readCommand_w (op : Byte) (n : Nat) (s : State) : (readCommand op n s).w = s.w := rfl
@[simp] theorem readCommand_rspCode (op : Byte) (n : Nat) (s : State) : (readCommand op n s).rspCode = s.rspCode := rfl
@[simp] theorem readCommand_rspVal (op : Byte) (n : Nat) (s : State) : (readCommand op n s).rspVal = s.rspVal := rfl
@[simp] theorem readCommand_rbuf (op : Byte) (n : Nat) (s : State) : (readCommand op n s).rbuf = s.rbuf := rfl
@[simp] theorem readCommand_wbuf (op : Byte) (n : Nat) (s : State) : (readCommand op n s).wbuf = s.wbuf := rfl
@[simp] theorem readCommand_todo (op : Byte) (n : Nat) (s : State) : (readCommand op n s).todo = s.todo := rfl
@[simp] theorem readCommand_rsps (op : Byte) (n : Nat) (s : State) : (readCommand op n s).rsps = s.rsps := rfl
@[simp] theorem readCommand_host (op : Byte) (n : Nat) (s : State) : (readCommand op n s).host = s.host := rfl
@[simp] theorem readCommand_resets (op : Byte) (n : Nat) (s : State) : (readCommand op n s).resets = s.resets := rfl

/-! ### eraseCommand -/

@[simp] theorem eraseCommand_cfg (op : Byte) (a : U32) (s : State) : (eraseCommand op a s).cfg = s.cfg := rfl
@[simp] theorem eraseCommand_h (op : Byte) (a : U32) (s : State) : (eraseCommand op a s).h = s.h := rfl
@[simp] theorem eraseCommand_w (op : Byte) (a : U32) (s : State) : (eraseCommand op a s).w = s.w := rfl
@[simp] theorem eraseCommand_resp (op : Byte) (a : U32) (s : State) : (eraseCommand op a s).resp = s.resp := rfl
@[simp] theorem eraseCommand_rspCode (op : Byte) (a : U32) (s : State) : (eraseCommand op a s).rspCode = s.rspCode := rfl
@[simp] theorem eraseCommand_rspVal (op : Byte) (a : U32) (s : State) : (eraseCommand op a s).rspVal = s.rspVal := rfl
@[simp] theorem eraseCommand_rbuf (op : Byte) (a : U32) (s : State) : (eraseCommand op a s).rbuf = s.rbuf := rfl
@[simp] theorem eraseCommand_wbuf (op : Byte) (a : U32) (s : State) : (eraseCommand op a s).wbuf = s.wbuf := rfl
@[simp] theorem eraseCommand_todo (op : Byte) (a : U32) (s : State) : (eraseCommand op a s).todo = s.todo := rfl
@[simp] theorem eraseCommand_rsps (op : Byte) (a : U32) (s : State) : (eraseCommand op a s).rsps = s.rsps := rfl
@[simp] theorem eraseCommand_host (op : Byte) (a : U32) (s : State) : (eraseCommand op a s).host = s.host := rfl
@[simp] theorem eraseCommand_resets (op : Byte) (a : U32) (s : State) : (eraseCommand op a s).resets = s.resets := rfl

/-! ### readBytes -/

@[simp] theorem readBytes_cfg (a : U32) (n : Nat) (s : State) : (readBytes a n s).2.cfg = s.cfg := rfl
@[simp] theorem readBytes_h (a : U32) (n : Nat) (s : State) : (readBytes a n s).2.h = s.h := rfl
@[simp] theorem readBytes_w (a : U32) (n : Nat) (s : State) : (readBytes a n s).2.w = s.w := rfl
@[simp] theorem readBytes_resp (a : U32) (n : Nat) (s : State) : (readBytes a n s).2.resp = s.resp := rfl
@[simp] theorem readBytes_rspCode (a : U32) (n : Nat) (s : State) : (readBytes a n s).2.rspCode = s.rspCode := rfl
@[simp] theorem readBytes_rspVal (a : U32) (n : Nat) (s : State) : (readBytes a n s).2.rspVal = s.rspVal := rfl
@[simp] theorem readBytes_rbuf (a : U32) (n : Nat) (s : State) : (readBytes a n s).2.rbuf = s.rbuf := rfl
@[simp] theorem readBytes_wbuf (a : U32) (n : Nat) (s : State) : (readBytes a n s).2.wbuf = s.wbuf := rfl
@[simp] theorem readBytes_todo (a : U32) (n : Nat) (s : State) : (readBytes a n s).2.todo = s.todo := rfl
@[simp] theorem readBytes_rsps (a : U32) (n : Nat) (s : State) : (readBytes a n s).2.rsps = s.rsps := rfl
@[simp] theorem readBytes_host (a : U32) (n : Nat) (s : State) : (readBytes a n s).2.host = s.host := rfl
@[simp] theorem readBytes_resets (a : U32) (n : Nat) (s : State) : (readBytes a n s).2.resets = s.resets := rfl

/-! ### readMemory -/

@[simp] theorem readMemory_cfg (a : U32) (n : Nat) (s : State) : (readMemory a n s).cfg = s.cfg := rfl
@[simp] theorem readMemory_h (a : U32) (n : Nat) (s : State) : (readMemory a n s).h = s.h := rfl
@[simp] theorem readMemory_w (a : U32) (n : Nat) (s : State) : (readMemory a n s).w = s.w := rfl
@[simp] theorem readMemory_resp (a : U32) (n : Nat) (s : State) : (readMemory a n s).resp = s.resp := rfl
@[simp] theorem readMemory_rspCode (a : U32) (n : Nat) (s : State) : (readMemory a n s).rspCode = s.rspCode := rfl
@[simp] theorem readMemory_rspVal (a : U32) (n : Nat) (s : State) : (readMemory a n s).rspVal = s.rspVal := rfl
@[simp] theorem readMemory_wbuf (a : U32) (n : Nat) (s : State) : (readMemory a n s).wbuf = s.wbuf := rfl
@[simp] theorem readMemory_todo (a : U32) (n : Nat) (s : State) : (readMemory a n s).todo = s.todo := rfl
@[simp] theorem readMemory_rsps (a : U32) (n : Nat) (s : State) : (readMemory a n s).rsps = s.rsps := rfl
@[simp] theorem readMemory_host (a : U32) (n : Nat) (s : State) : (readMemory a n s).host = s.host := rfl
@[simp] theorem readMemory_resets (a : U32) (n : Nat) (s : State) : (readMemory a n s).resets = s.resets := rfl

/-! ### programBuffer -/

@[simp] theorem programBuffer_cfg (a : U32) (p : List Byte) (s : State) : (programBuffer a p s).cfg = s.cfg := rfl
@[simp] theorem programBuffer_h (a : U32) (p : List Byte) (s : State) : (programBuffer a p s).h = s.h := rfl
@[simp] theorem programBuffer_w (a : U32) (p : List Byte) (s : State) : (programBuffer a p s).w = s.w := rfl
@[simp] theorem programBuffer_resp (a : U32) (p : List Byte) (s : State) : (programBuffer a p s).resp = s.resp := rfl
@[simp] theorem programBuffer_rspCode (a : U32) (p : List Byte) (s : State) : (programBuffer a p s).rspCode = s.rspCode := rfl
@[simp] theorem programBuffer_rspVal (a : U32) (p : List Byte) (s : State) : (programBuffer a p s).rspVal = s.rspVal := rfl
@[simp] theorem programBuffer_rbuf (a : U32) (p : List Byte) (s : State) : (programBuffer a p s).rbuf = s.rbuf := rfl
@[simp] theorem programBuffer_wbuf (a : U32) (p : List Byte) (s : State) : (programBuffer a p s).wbuf = s.wbuf := rfl
@[simp] theorem programBuffer_todo (a : U32) (p : List Byte) (s : State) : (programBuffer a p s).todo = s.todo := rfl
@[simp] theorem programBuffer_rsps (a : U32) (p : List Byte) (s : State) : (programBuffer a p s).rsps = s.rsps := rfl
@[simp] theorem programBuffer_host (a : U32) (p : List Byte) (s : State) : (programBuffer a p s).host = s.host := rfl
@[simp] theorem programBuffer_resets (a : U32) (p : List Byte) (s : State) : (programBuffer a p s).resets = s.resets := rfl

/-! ### writeMemory -/

@[simp] theorem writeMemory_cfg (a : U32) (n : Nat) (s : State) : (writeMemory a n s).cfg = s.cfg := rfl
@[simp] theorem writeMemory_h (a : U32) (n : Nat) (s : State) : (writeMemory a n s).h = s.h := rfl
@[simp] theorem writeMemory_w (a : U32) (n : Nat) (s : State) : (writeMemory a n s).w = s.w := rfl
@[simp] theorem writeMemory_resp (a : U32) (n : Nat) (s : State) : (writeMemory a n s).resp = s.resp := rfl
@[simp] theorem writeMemory_rspCode (a : U32) (n : Nat) (s : State) : (writeMemory a n s).rspCode = s.rspCode := rfl
@[simp] theorem writeMemory_rspVal (a : U32) (n : Nat) (s : State) : (writeMemory a n s).rspVal = s.rspVal := rfl
@[simp] theorem writeMemory_rbuf (a : U32) (n : Nat) (s : State) : (writeMemory a n s).rbuf = s.rbuf := rfl
@[simp] theorem writeMemory_wbuf (a : U32) (n : Nat) (s : State) : (writeMemory a n s).wbuf = s.wbuf := rfl
@[simp] theorem writeMemory_todo (a : U32) (n : Nat) (s : State) : (writeMemory a n s).todo = s.todo := rfl
@[simp] theorem writeMemory_rsps (a : U32) (n : Nat) (s : State) : (writeMemory a n s).rsps = s.rsps := rfl
@[simp] theorem writeMemory_host (a : U32) (n : Nat) (s : State) : (writeMemory a n s).host = s.host := rfl
@[simp] theorem writeMemory_resets (a : U32) (n : Nat) (s : State) : (writeMemory a n s).resets = s.resets := rfl

/-! ### readStatus1 -/

@[simp] theorem readStatus1_cfg (s : State) : (readStatus1 s).cfg = s.cfg := rfl
@[simp] theorem readStatus1_h (s : State) : (readStatus1 s).h = s.h := rfl
@[simp] theorem readStatus1_rspCode (s : State) : (readStatus1 s).rspCode = s.rspCode := rfl
@[simp] theorem readStatus1_rspVal (s : State) : (readStatus1 s).rspVal = s.rspVal := rfl
@[simp] theorem readStatus1_rbuf (s : State) : (readStatus1 s).rbuf = s.rbuf := rfl
@[simp] theorem readStatus1_wbuf (s : State) : (readStatus1 s).wbuf = s.wbuf := rfl
@[simp] theorem readStatus1_todo (s : State) : (readStatus1 s).todo = s.todo := rfl
@[simp] theorem readStatus1_rsps (s : State) : (readStatus1 s).rsps = s.rsps := rfl
@[simp] theorem readStatus1_host (s : State) : (readStatus1 s).host = s.host := rfl
@[simp] theorem readStatus1_resets (s : State) : (readStatus1 s).resets = s.resets := rfl

/-! ### readStatus2 -/

@[simp] theorem readStatus2_cfg (s : State) : (readStatus2 s).cfg = s.cfg := rfl
@[simp] theorem readStatus2_h (s : State) : (readStatus2 s).h = s.h := rfl
@[simp] theorem readStatus2_rspCode (s : State) : (readStatus2 s).rspCode = s.rspCode := rfl
@[simp] theorem readStatus2_rspVal (s : State) : (readStatus2 s).rspVal = s.rspVal := rfl
@[simp] theorem readStatus2_rbuf (s : State) : (readStatus2 s).rbuf = s.rbuf := rfl
@[simp] theorem readStatus2_wbuf (s : State) : (readStatus2 s).wbuf = s.wbuf := rfl
@[simp] theorem readStatus2_todo (s : State) : (readStatus2 s).todo = s.todo := rfl
@[simp] theorem readStatus2_rsps (s : State) : (readStatus2 s).rsps = s.rsps := rfl
@[simp] theorem readStatus2_host (s : State) : (readStatus2 s).host = s.host := rfl
@[simp] theorem readStatus2_resets (s : State) : (readStatus2 s).resets = s.resets := rfl

/-! ### readJedec -/

@[simp] theorem readJedec_cfg (s : State) : (readJedec s).cfg = s.cfg := rfl
@[simp] theorem readJedec_h (s : State) : (readJedec s).h = s.h := rfl
@[simp] theorem readJedec_w (s : State) : (readJedec s).w = s.w := rfl
@[simp] theorem readJedec_rspCode (s : State) : (readJedec s).rspCode = s.rspCode := rfl
@[simp] theorem readJedec_rspVal (s : State) : (readJedec s).rspVal = s.rspVal := rfl
@[simp] theorem readJedec_rbuf (s : State) : (readJedec s).rbuf = s.rbuf := rfl
@[simp] theorem readJedec_wbuf (s : State) : (readJedec s).wbuf = s.wbuf := rfl
@[simp] theorem readJedec_todo (s : State) : (readJedec s).todo = s.todo := rfl
@[simp] theorem readJedec_rsps (s : State) : (readJedec s).rsps = s.rsps := rfl
@[simp] theorem readJedec_host (s : State) : (readJedec s).host = s.host := rfl
@[simp] theorem readJedec_resets (s : State) : (readJedec s).resets = s.resets := rfl

/-! ### writeEnable -/

@[simp] theorem writeEnable_cfg (s : State) : (writeEnable s).cfg = s.cfg := rfl
@[simp] theorem writeEnable_h (s : State) : (writeEnable s).h = s.h := rfl
@[simp] theorem writeEnable_w (s : State) : (writeEnable s).w = s.w := rfl
@[simp] theorem writeEnable_resp (s : State) : (writeEnable s).resp = s.resp := rfl
@[simp] theorem writeEnable_rspCode (s : State) : (writeEnable s).rspCode = s.rspCode := rfl
@[simp] theorem writeEnable_rspVal (s : State) : (writeEnable s).rspVal = s.rspVal := rfl
@[simp] theorem writeEnable_rbuf (s : State) : (writeEnable s).rbuf = s.rbuf := rfl
@[simp] theorem writeEnable_wbuf (s : State) : (writeEnable s).wbuf = s.wbuf := rfl
@[simp] theorem writeEnable_todo (s : State) : (writeEnable s).todo = s.todo := rfl
@[simp] theorem writeEnable_rsps (s : State) : (writeEnable s).rsps = s.rsps := rfl
@[simp] theorem writeEnable_host (s : State) : (writeEnable s).host = s.host := rfl
@[simp] theorem writeEnable_resets (s : State) : (writeEnable s).resets = s.resets := rfl

/-! ### configureLines -/

@[simp] theorem configureLines_cfg (s : State) : (configureLines s).cfg = s.cfg := rfl
@[simp] theorem configureLines_h (s : State) : (configureLines s).h = s.h := rfl
@[simp] theorem configureLines_w (s : State) : (configureLines s).w = s.w := rfl
@[simp] theorem configureLines_resp (s : State) : (configureLines s).resp = s.resp := rfl
@[simp] theorem configureLines_rspCode (s : State) : (configureLines s).rspCode = s.rspCode := rfl
@[simp] theorem configureLines_rspVal (s : State) : (configureLines s).rspVal = s.rspVal := rfl
@[simp] theorem configureLines_rbuf (s : State) : (configureLines s).rbuf = s.rbuf := rfl
@[simp] theorem configureLines_wbuf (s : State) : (configureLines s).wbuf = s.wbuf := rfl
@[simp] theorem configureLines_todo (s : State) : (configureLines s).todo = s.todo := rfl
@[simp] theorem configureLines_rsps (s : State) : (configureLines s).rsps = s.rsps := rfl
@[simp] theorem configureLines_host (s : State) : (configureLines s).host = s.host := rfl
@[simp] theorem configureLines_resets (s : State) : (configureLines s).resets = s.resets := rfl

/-! ### chipReset -/

@[simp] theorem chipReset_cfg (s : State) : (chipReset s).cfg = s.cfg := rfl
@[simp] theorem chipReset_h (s : State) : (chipReset s).h = s.h := rfl
@[simp] theorem chipReset_w (s : State) : (chipReset s).w = s.w := rfl
@[simp] theorem chipReset_resp (s : State) : (chipReset s).resp = s.resp := rfl
@[simp] theorem chipReset_rspCode (s : State) : (chipReset s).rspCode = s.rspCode := rfl
@[simp] theorem chipReset_rspVal (s : State) : (chipReset s).rspVal = s.rspVal := rfl
@[simp] theorem chipReset_rbuf (s : State) : (chipReset s).rbuf = s.rbuf := rfl
@[simp] theorem chipReset_wbuf (s : State) : (chipReset s).wbuf = s.wbuf := rfl
@[simp] theorem chipReset_todo (s : State) : (chipReset s).todo = s.todo := rfl
@[simp] theorem chipReset_rsps (s : State) : (chipReset s).rsps = s.rsps := rfl
@[simp] theorem chipReset_host (s : State) : (chipReset s).host = s.host := rfl
@[simp] theorem chipReset_resets (s : State) : (chipReset s).resets = s.resets := rfl

/-! ### bringUp -/

@[simp] theorem bringUp_cfg (hp : U32) (s : State) : (bringUp hp s).cfg = s.cfg := rfl
@[simp] theorem bringUp_w (hp : U32) (s : State) : (bringUp hp s).w = s.w := rfl
@[simp] theorem bringUp_rspCode (hp : U32) (s : State) : (bringUp hp s).rspCode = s.rspCode := rfl
@[simp] theorem bringUp_rspVal (hp : U32) (s : State) : (bringUp hp s).rspVal = s.rspVal := rfl
@[simp] theorem bringUp_rbuf (hp : U32) (s : State) : (bringUp hp s).rbuf = s.rbuf := rfl
@[simp] theorem bringUp_wbuf (hp : U32) (s : State) : (bringUp hp s).wbuf = s.wbuf := rfl
@[simp] theorem bringUp_todo (hp : U32) (s : State) : (bringUp hp s).todo = s.todo := rfl
@[simp] theorem bringUp_rsps (hp : U32) (s : State) : (bringUp hp s).rsps = s.rsps := rfl
@[simp] theorem bringUp_host (hp : U32) (s : State) : (bringUp hp s).host = s.host := rfl
@[simp] theorem bringUp_resets (hp : U32) (s : State) : (bringUp hp s).resets = s.resets := rfl

/-! ### setChunk -/

@[simp] theorem setChunk_cfg (s : State) : (setChunk s).cfg = s.cfg := rfl
@[simp] theorem setChunk_h (s : State) : (setChunk s).h = s.h := rfl
@[simp] theorem setChunk_bus (s : State) : (setChunk s).bus = s.bus := rfl
@[simp] theorem setChunk_resp (s : State) : (setChunk s).resp = s.resp := rfl
@[simp] theorem setChunk_rspCode (s : State) : (setChunk s).rspCode = s.rspCode := rfl
@[simp] theorem setChunk_rspVal (s : State) : (setChunk s).rspVal = s.rspVal := rfl
@[simp] theorem setChunk_rbuf (s : State) : (setChunk s).rbuf = s.rbuf := rfl
@[simp] theorem setChunk_wbuf (s : State) : (setChunk s).wbuf = s.wbuf := rfl
@[simp] theorem setChunk_todo (s : State) : (setChunk s).todo = s.todo := rfl
@[simp] theorem setChunk_rsps (s : State) : (setChunk s).rsps = s.rsps := rfl
@[simp] theorem setChunk_host (s : State) : (setChunk s).host = s.host := rfl
@[simp] theorem setChunk_resets (s : State) : (setChunk s).resets = s.resets := rfl

/-! ### startWrite -/

@[simp] theorem startWrite_cfg (a n : U32) (s : State) : (startWrite a n s).cfg = s.cfg := rfl
@[simp] theorem startWrite_h (a n : U32) (s : State) : (startWrite a n s).h = s.h := rfl
@[simp] theorem startWrite_bus (a n : U32) (s : State) : (startWrite a n s).bus = s.bus := rfl
@[simp] theorem startWrite_resp (a n : U32) (s : State) : (startWrite a n s).resp = s.resp := rfl
@[simp] theorem startWrite_rspCode (a n : U32) (s : State) : (startWrite a n s).rspCode = s.rspCode := rfl
@[simp] theorem startWrite_rspVal (a n : U32) (s : State) : (startWrite a n s).rspVal = s.rspVal := rfl
@[simp] theorem startWrite_rbuf (a n : U32) (s : State) : (startWrite a n s).rbuf = s.rbuf := rfl
@[simp] theorem startWrite_wbuf (a n : U32) (s : State) : (startWrite a n s).wbuf = s.wbuf := rfl
@[simp] theorem startWrite_todo (a n : U32) (s : State) : (startWrite a n s).todo = s.todo := rfl
@[simp] theorem startWrite_rsps (a n : U32) (s : State) : (startWrite a n s).rsps = s.rsps := rfl
@[simp] theorem startWrite_host (a n : U32) (s : State) : (startWrite a n s).host = s.host := rfl
@[simp] theorem startWrite_resets (a n : U32) (s : State) : (startWrite a n s).resets = s.resets := rfl

/-! ### writeChunk -/

@[simp] theorem writeChunk_cfg (s : State) : (writeChunk s).cfg = s.cfg := rfl
@[simp] theorem writeChunk_h (s : State) : (writeChunk s).h = s.h := rfl
@[simp] theorem writeChunk_resp (s : State) : (writeChunk s).resp = s.resp := rfl
@[simp] theorem writeChunk_rspCode (s : State) : (writeChunk s).rspCode = s.rspCode := rfl
@[simp] theorem writeChunk_rspVal (s : State) : (writeChunk s).rspVal = s.rspVal := rfl
@[simp] theorem writeChunk_rbuf (s : State) : (writeChunk s).rbuf = s.rbuf := rfl
@[simp] theorem writeChunk_wbuf (s : State) : (writeChunk s).wbuf = s.wbuf := rfl
@[simp] theorem writeChunk_todo (s : State) : (writeChunk s).todo = s.todo := rfl
@[simp] theorem writeChunk_rsps (s : State) : (writeChunk s).rsps = s.rsps := rfl
@[simp] theorem writeChunk_host (s : State) : (writeChunk s).host = s.host := rfl
@[simp] theorem writeChunk_resets (s : State) : (writeChunk s).resets = s.resets := rfl

/-! ### State.respond -/

@[simp] theorem State.respond_cfg (c : RspCode) (v : U32) (s : State) : (s.respond c v).cfg = s.cfg := rfl
@[simp] theorem State.respond_h (c : RspCode) (v : U32) (s : State) : (s.respond c v).h = s.h := rfl
@[simp] theorem State.respond_w (c : RspCode) (v : U32) (s : State) : (s.respond c v).w = s.w := rfl
@[simp] theorem State.respond_bus (c : RspCode) (v : U32) (s : State) : (s.respond c v).bus = s.bus := rfl
@[simp] theorem State.respond_resp (c : RspCode) (v : U32) (s : State) : (s.respond c v).resp = s.resp := rfl
@[simp] theorem State.respond_rbuf (c : RspCode) (v : U32) (s : State) : (s.respond c v).rbuf = s.rbuf := rfl
@[simp] theorem State.respond_wbuf (c : RspCode) (v : U32) (s : State) : (s.respond c v).wbuf = s.wbuf := rfl
@[simp] theorem State.respond_todo (c : RspCode) (v : U32) (s : State) : (s.respond c v).todo = s.todo := rfl
@[simp] theorem State.respond_host (c : RspCode) (v : U32) (s : State) : (s.respond c v).host = s.host := rfl
@[simp] theorem State.respond_resets (c : RspCode) (v : U32) (s : State) : (s.respond c v).resets = s.resets := rfl

/-! ### finish -/

@[simp] theorem finish_cfg (v : U32) (s : State) : (finish v s).cfg = s.cfg := rfl
@[simp] theorem finish_w (v : U32) (s : State) : (finish v s).w = s.w := rfl
@[simp] theorem finish_bus (v : U32) (s : State) : (finish v s).bus = s.bus := rfl
@[simp] theorem finish_resp (v : U32) (s : State) : (finish v s).resp = s.resp := rfl
@[simp] theorem finish_rbuf (v : U32) (s : State) : (finish v s).rbuf = s.rbuf := rfl
@[simp] theorem finish_wbuf (v : U32) (s : State) : (finish v s).wbuf = s.wbuf := rfl
@[simp] theorem finish_todo (v : U32) (s : State) : (finish v s).todo = s.todo := rfl
@[simp] theorem finish_host (v : U32) (s : State) : (finish v s).host = s.host := rfl
@[simp] theorem finish_resets (v : U32) (s : State) : (finish v s).resets = s.resets := rfl

/-! ### refuse -/

@[simp] theorem refuse_cfg (s : State) : (refuse s).cfg = s.cfg := rfl
@[simp] theorem refuse_h (s : State) : (refuse s).h = s.h := rfl
@[simp] theorem refuse_w (s : State) : (refuse s).w = s.w := rfl
@[simp] theorem refuse_resp (s : State) : (refuse s).resp = s.resp := rfl
@[simp] theorem refuse_rbuf (s : State) : (refuse s).rbuf = s.rbuf := rfl
@[simp] theorem refuse_wbuf (s : State) : (refuse s).wbuf = s.wbuf := rfl
@[simp] theorem refuse_todo (s : State) : (refuse s).todo = s.todo := rfl
@[simp] theorem refuse_host (s : State) : (refuse s).host = s.host := rfl
@[simp] theorem refuse_resets (s : State) : (refuse s).resets = s.resets := rfl

/-! ### blockReset -/

@[simp] theorem blockReset_cfg (s : State) : (blockReset s).cfg = s.cfg := rfl
@[simp] theorem blockReset_rbuf (s : State) : (blockReset s).rbuf = s.rbuf := rfl
@[simp] theorem blockReset_wbuf (s : State) : (blockReset s).wbuf = s.wbuf := rfl
@[simp] theorem blockReset_rsps (s : State) : (blockReset s).rsps = s.rsps := rfl
@[simp] theorem blockReset_host (s : State) : (blockReset s).host = s.host := rfl

/-! ### The bus after a framer operation

Not simp lemmas: rewriting with them turns the bus after each operation into `Bus.frame` of the bus before it, so that
two states that differ elsewhere are seen to have the same bus. -/

theorem State.frame_bus (tx : List Byte) (s : State) : (s.frame tx).2.bus = (s.bus.frame s.hp tx).2 := rfl
theorem runCommand_bus (op : Byte) (s : State) : (runCommand op s).bus = (s.bus.frame s.hp [op]).2 := rfl
theorem writeEnable_bus (s : State) : (writeEnable s).bus = (s.bus.frame s.hp [s.cfg.opWren]).2 := rfl
theorem readCommand_bus (op : Byte) (n : Nat) (s : State) :
    (readCommand op n s).bus = (s.bus.frame s.hp (responseFrame op n)).2 := rfl
theorem readStatus1_bus (s : State) :
    (readStatus1 s).bus = (s.bus.frame s.hp (responseFrame s.cfg.opRdsr1 1)).2 := rfl
theorem readStatus2_bus (s : State) :
    (readStatus2 s).bus = (s.bus.frame s.hp (responseFrame s.cfg.opRdsr2 1)).2 := rfl
theorem eraseCommand_bus (op : Byte) (a : U32) (s : State) :
    (eraseCommand op a s).bus = (s.bus.frame s.hp (addressFrame s.h.addressWidth op a)).2 := rfl
theorem readBytes_bus (a : U32) (n : Nat) (s : State) :
    (readBytes a n s).2.bus = (s.bus.frame s.hp (readFrame s.cfg s.h.addressWidth a n)).2 := rfl
theorem readBytes_data (a : U32) (n : Nat) (s : State) :
    (readBytes a n s).1 =
      (s.bus.frame s.hp (readFrame s.cfg s.h.addressWidth a n)).1.drop (s.h.addressWidth.bytes + 2) := rfl
theorem programBuffer_bus (a : U32) (payload : List Byte) (s : State) :
    (programBuffer a payload s).bus = (s.bus.frame s.hp (programFrame s.cfg s.h.addressWidth a payload)).2 := rfl
theorem State.emit_bus (e : Event) (s : State) : (s.emit e).bus = s.bus.emit e := rfl
theorem polled_eq (s : State) :
    s.polled = ((s.bus.frame s.hp (responseFrame s.cfg.opRdsr1 1)).1.drop 1).getD 0 0 := rfl

/-! ### What the responses write -/

@[simp] theorem finish_rspCode (v : U32) (s : State) : (finish v s).rspCode = .done := rfl
@[simp] theorem finish_rspVal (v : U32) (s : State) : (finish v s).rspVal = v := rfl
@[simp] theorem finish_rsps (v : U32) (s : State) : (finish v s).rsps = s.rsps ++ [⟨.done, v⟩] := rfl
@[simp] theorem finish_busy (v : U32) (s : State) : (finish v s).h.busy = false := rfl
@[simp] theorem finish_initialized (v : U32) (s : State) : (finish v s).h.initialized = s.h.initialized := rfl
@[simp] theorem finish_hp (v : U32) (s : State) : (finish v s).hp = s.hp := rfl
@[simp] theorem refuse_rspCode (s : State) : (refuse s).rspCode = .refused := rfl
@[simp] theorem refuse_trace (s : State) : (refuse s).bus.trace = s.bus.trace := rfl
@[simp] theorem refuse_line (s : State) : (refuse s).bus.line = s.bus.line := rfl
@[simp] theorem refuse_env (s : State) : (refuse s).bus.env = s.bus.env := rfl
@[simp] theorem blockReset_trace (s : State) : (blockReset s).bus.trace = s.bus.trace := rfl
@[simp] theorem blockReset_env (s : State) : (blockReset s).bus.env = s.bus.env := rfl
@[simp] theorem blockReset_todo (s : State) : (blockReset s).todo = [] := rfl
@[simp] theorem blockReset_busy (s : State) : (blockReset s).h.busy = false := rfl
@[simp] theorem blockReset_initialized (s : State) : (blockReset s).h.initialized = false := rfl

end Sys2Proof.Machine
end

