-- ==== Sys2Proof/Laws/Framer.lean ====
section
/-! SUPPORT. What each framer operation does: it emits exactly one frame and keeps what it received where the spec says. One law per operation; the Sequencer's laws cite these. -/

namespace Sys2Proof.Machine

theorem State.frame_spec (tx : List Byte) (s : State) :
    Bus.Framed s.hp tx (s.frame tx).1 s.bus (s.frame tx).2.bus := s.bus.frame_spec s.hp tx

theorem State.exchange_spec (tx : List Byte) (s : State) :
    (s.exchange tx).1.length = tx.length ∧
      s.bus.Emitted (s.exchange tx).2.bus (exchangeEvents s.hp tx (s.exchange tx).1) :=
  ⟨Bus.exchange_length _ _ _, Bus.exchange_spec _ _ _⟩

@[simp] theorem addressBytes_length (aw : AddrWidth) (a : U32) : (addressBytes aw a).length = aw.bytes := by
  simp [addressBytes]

@[simp] theorem responseFrame_length (op : Byte) (n : Nat) : (responseFrame op n).length = n + 1 := by
  simp [responseFrame]

@[simp] theorem readFrame_length (c : Cfg) (aw : AddrWidth) (a : U32) (n : Nat) :
    (readFrame c aw a n).length = aw.bytes + 2 + n := by
  simp [readFrame]; omega

/-- R140. -/
theorem runCommand_spec (op : Byte) (s : State) :
    ∃ r, Bus.Framed s.hp [op] [r] s.bus (runCommand op s).bus := by
  have h := s.frame_spec [op]
  obtain ⟨r, hr⟩ := List.length_eq_one_iff.1 h.1
  exact ⟨r, hr ▸ h⟩

/-- R142: the response is everything received after the opcode. -/
theorem readCommand_spec (op : Byte) (n : Nat) (s : State) :
    ∃ r, (readCommand op n s).resp.length = n ∧
      Bus.Framed s.hp (responseFrame op n) (r :: (readCommand op n s).resp) s.bus (readCommand op n s).bus := by
  have h := s.frame_spec (responseFrame op n)
  have hl : (s.frame (responseFrame op n)).1.length = n + 1 := by rw [h.1, responseFrame_length]
  obtain ⟨r, rs, e⟩ := List.exists_cons_of_length_eq_add_one hl
  have er : (readCommand op n s).resp = rs := by simp [readCommand, e]
  refine ⟨r, ?_, ?_⟩
  · rw [er]; simpa [e] using hl
  · rw [er, ← e]; exact h

/-- R144. -/
theorem eraseCommand_spec (op : Byte) (a : U32) (s : State) :
    ∃ rx, Bus.Framed s.hp (addressFrame s.h.addressWidth op a) rx s.bus (eraseCommand op a s).bus :=
  ⟨_, s.frame_spec _⟩

/-- R148: the data is everything received after the header of `aw + 2` bytes. -/
theorem readBytes_spec (a : U32) (n : Nat) (s : State) :
    ∃ hdr, hdr.length = s.h.addressWidth.bytes + 2 ∧ (readBytes a n s).1.length = n ∧
      Bus.Framed s.hp (readFrame s.cfg s.h.addressWidth a n) (hdr ++ (readBytes a n s).1) s.bus
        (readBytes a n s).2.bus := by
  have h := s.frame_spec (readFrame s.cfg s.h.addressWidth a n)
  have hl : (s.frame (readFrame s.cfg s.h.addressWidth a n)).1.length = s.h.addressWidth.bytes + 2 + n := by
    rw [h.1, readFrame_length]
  refine ⟨(s.frame (readFrame s.cfg s.h.addressWidth a n)).1.take (s.h.addressWidth.bytes + 2), ?_, ?_, ?_⟩
  · rw [List.length_take, hl]; omega
  · simp [readBytes, hl]
  · show Bus.Framed _ _ (_ ++ List.drop _ _) _ _
    rw [List.take_append_drop]
    exact h

/-- R150. -/
theorem programBuffer_spec (a : U32) (payload : List Byte) (s : State) :
    ∃ rx, Bus.Framed s.hp (programFrame s.cfg s.h.addressWidth a payload) rx s.bus (programBuffer a payload s).bus :=
  ⟨_, s.frame_spec _⟩

/-- R152: one poll is one frame of two bytes; the second byte received is the status. -/
theorem readStatus1_spec (s : State) :
    ∃ r, Bus.Framed s.hp (responseFrame s.cfg.opRdsr1 1) [r, (readStatus1 s).w.status] s.bus (readStatus1 s).bus := by
  obtain ⟨r, hl, h⟩ := readCommand_spec s.cfg.opRdsr1 1 s
  obtain ⟨x, hx⟩ := List.length_eq_one_iff.1 hl
  refine ⟨r, ?_⟩
  have e : (readStatus1 s).w.status = x := by simp [readStatus1, hx]
  rw [e, ← hx]; exact h

/-- R153. -/
theorem readStatus2_spec (s : State) :
    ∃ r, Bus.Framed s.hp (responseFrame s.cfg.opRdsr2 1) [r, (readStatus2 s).w.status] s.bus (readStatus2 s).bus := by
  obtain ⟨r, hl, h⟩ := readCommand_spec s.cfg.opRdsr2 1 s
  obtain ⟨x, hx⟩ := List.length_eq_one_iff.1 hl
  refine ⟨r, ?_⟩
  have e : (readStatus2 s).w.status = x := by simp [readStatus2, hx]
  rw [e, ← hx]; exact h

/-- R163: the eleven configuration events. -/
theorem configureLines_spec (s : State) : s.bus.Emitted (configureLines s).bus configEvents :=
  Bus.emitted_emitAll _ _ (by simp [configEvents])

/-- A frame leaves idle lines idle, whatever frame it is. -/
theorem Bus.Framed.idle {hp : U32} {tx rx : List Byte} {a b : Bus} (h : Bus.Framed hp tx rx a b)
    (i : a.line.Idle) : b.line.Idle := h.2.line ▸ Lines.idle_after_frame i

end Sys2Proof.Machine
end

