-- ==== Sys2Proof/Laws/Mock.lean ====
section
/-! SUPPORT. The bit transport against the mock chip: a byte exchange delivers the whole byte to the chip and the chip's response byte to the block, and a frame delivers its bytes in order and then takes effect. The laws of the device contract cite `Bus.frame_mock` and never look at a bit. -/

namespace Sys2Proof.Machine

/-- The level on data-in that a response gives in bit cell `k`: the pull-up's 1 when nothing is driven (R69). -/
def responseBit (r : Option Byte) (k : Nat) : Bool := (r.getD 0xFF).getMsbD k

/-- The chip stands with `n` bits of a byte in its receiver, the clock low, and presents the bit that is due. -/
def Chip.receiving (c : Chip) (shift : Byte) (n : Nat) (d : Bool) : Chip :=
  { c with shift := shift, nbits := n, din := d, clk := false }.drive

theorem Chip.respond_receiving (c : Chip) (x : Byte) (n : Nat) (d : Bool) (rx : List Byte) :
    (c.receiving x n d).respond rx = c.respond rx := rfl

theorem Chip.answer_receiving {c : Chip} (h : c.sel = true) (x : Byte) {n : Nat} (hn : n < 8) (d : Bool) :
    (c.receiving x n d).answer = responseBit (c.respond c.rx) n := by
  have key : ∀ k : Fin 8, (0xFF : Byte).getMsbD k.val = true := by decide
  rw [Chip.answer, if_pos (show (c.receiving x n d).sel = true from h)]
  show ((c.respond c.rx).map (·.getMsbD n)).getD true = _
  unfold responseBit
  cases c.respond c.rx with
  | some b => rfl
  | none => exact (key ⟨n, hn⟩).symm

/-- One bit cell against a selected chip whose clock is low: the bit received is the one presented before the cell, the
chip takes the bit sent at the rising edge, and presents its next bit at the falling edge (R67, G3). -/
theorem Bus.bitCell_mock {hp : U32} {i : BitVec 3} {b : Bus} {c : Chip} (he : b.env = .mock c) (hs : c.sel = true)
    (hc : c.clk = false) :
    (b.bitCell hp i).env = .mock { { c with din := b.sr.msb }.shiftIn with clk := false }.drive ∧
      (b.bitCell hp i).sr = (b.sr <<< 1) ||| (if c.answer then 1 else 0) := by
  have hd : ∀ (n : U32) (b : Bus), (b.halfCycle n).env = b.env := by
    intro n b
    unfold Bus.halfCycle
    split
    · rfl
    · cases h : b.env <;> simp [Bus.emit, Env.observe, Chip.observe, h]
  have hsh : ∀ (c : Chip), c.shiftIn.sel = c.sel := by
    intro c; unfold Chip.shiftIn; dsimp only; split <;> rfl
  constructor
  · have up : ({ c with din := b.sr.msb } : Chip).clock true = { { c with din := b.sr.msb }.shiftIn with clk := true } := by
      simp [Chip.clock, hs, hc]
    have down : ∀ c : Chip, c.sel = true → c.clk = true → c.clock false = { c with clk := false }.drive := by
      intro c h1 h2
      simp [Chip.clock, Chip.drive, h1, h2]
      rfl
    simp only [Bus.bitCell, Bus.clockPulse, Bus.emit, Bus.sample, Bus.setSr, hd, he, Env.observe, Chip.observe, Env.advance]
    rw [up, down _ (by simpa [hsh] using hs) rfl]
  · have ha : ∀ x : Bool, ({ c with din := x } : Chip).answer = c.answer := fun _ => rfl
    simp [Bus.bitCell, Bus.level, Bus.emit, he, Env.observe, Chip.observe, Env.answer, ha, Bus.setSr]

theorem Bus.bitCell_receiving {hp : U32} {i : BitVec 3} {b : Bus} {c : Chip} {x : Byte} {n : Nat} {d : Bool}
    (he : b.env = .mock (c.receiving x n d)) (hs : c.sel = true) (hn : n < 7) :
    (b.bitCell hp i).env = .mock (c.receiving (shiftedIn x b.sr.msb) (n + 1) b.sr.msb) ∧
      (b.bitCell hp i).sr = shiftedIn b.sr (responseBit (c.respond c.rx) n) := by
  obtain ⟨h1, h2⟩ := Bus.bitCell_mock (hp := hp) (i := i) he hs rfl
  constructor
  · rw [h1]
    have : ({ c.receiving x n d with din := b.sr.msb } : Chip).nbits ≠ 7 := by
      show n ≠ 7
      omega
    rw [Chip.shiftIn, if_neg this]
    rfl
  · rw [h2, Chip.answer_receiving hs x (show n < 8 by omega)]
    rfl

/-- The eighth cell completes the byte. -/
theorem Bus.bitCell_last {hp : U32} {i : BitVec 3} {b : Bus} {c : Chip} {x : Byte} {d : Bool}
    (he : b.env = .mock (c.receiving x 7 d)) (hs : c.sel = true) :
    (b.bitCell hp i).env =
        .mock (({ c with rx := c.rx ++ [shiftedIn x b.sr.msb] } : Chip).receiving 0 0 b.sr.msb) ∧
      (b.bitCell hp i).sr = shiftedIn b.sr (responseBit (c.respond c.rx) 7) := by
  obtain ⟨h1, h2⟩ := Bus.bitCell_mock (hp := hp) (i := i) he hs rfl
  constructor
  · rw [h1]
    have : ({ c.receiving x 7 d with din := b.sr.msb } : Chip).nbits = 7 := rfl
    rw [Chip.shiftIn, if_pos this]
    rfl
  · rw [h2, Chip.answer_receiving hs x (show (7 : Nat) < 8 by decide)]
    rfl

/-- Shifting in the eight bits of a byte, bit 7 first, gives the byte. -/
theorem shiftedIn_byte (x b : Byte) :
    shiftedIn (shiftedIn (shiftedIn (shiftedIn (shiftedIn (shiftedIn (shiftedIn (shiftedIn x (b.getMsbD 0)) (b.getMsbD 1))
      (b.getMsbD 2)) (b.getMsbD 3)) (b.getMsbD 4)) (b.getMsbD 5)) (b.getMsbD 6)) (b.getMsbD 7) = b := by
  have key := shiftedIn_getMsbD
  apply BitVec.eq_of_getMsbD_eq
  intro i hi
  interval_cases i <;> simp [key]

/-- R124 against the mock: the chip takes the byte sent, the block receives the response byte, all ones when the chip
drives nothing. -/
theorem Bus.transferByte_mock {hp : U32} {out : Byte} {b : Bus} {c : Chip} {x : Byte} {d : Bool}
    (he : b.env = .mock (c.receiving x 0 d)) (hs : c.sel = true) :
    (b.transferByte hp out).env =
        .mock (({ c with rx := c.rx ++ [out] } : Chip).receiving 0 0 (out.getLsbD 0)) ∧
      (b.transferByte hp out).sr = (c.respond c.rx).getD 0xFF := by
  have key := shiftedIn_getMsbD
  have e0 : (b.setSr out).env = .mock (c.receiving x 0 d) := he
  obtain ⟨e1, s1⟩ := Bus.bitCell_receiving (hp := hp) (i := 0) e0 hs (by decide)
  obtain ⟨e2, s2⟩ := Bus.bitCell_receiving (hp := hp) (i := 1) e1 hs (by decide)
  obtain ⟨e3, s3⟩ := Bus.bitCell_receiving (hp := hp) (i := 2) e2 hs (by decide)
  obtain ⟨e4, s4⟩ := Bus.bitCell_receiving (hp := hp) (i := 3) e3 hs (by decide)
  obtain ⟨e5, s5⟩ := Bus.bitCell_receiving (hp := hp) (i := 4) e4 hs (by decide)
  obtain ⟨e6, s6⟩ := Bus.bitCell_receiving (hp := hp) (i := 5) e5 hs (by decide)
  obtain ⟨e7, s7⟩ := Bus.bitCell_receiving (hp := hp) (i := 6) e6 hs (by decide)
  obtain ⟨e8, s8⟩ := Bus.bitCell_last (hp := hp) (i := 7) e7 hs
  have m : ∀ y : Byte, y.msb = y.getMsbD 0 := fun _ => rfl
  rw [s7, s6, s5, s4, s3, s2, s1, Bus.setSr_sr] at e8 s8
  simp only [m, key, Nat.reduceLT, Nat.reduceAdd, Nat.zero_add] at e8 s8
  refine ⟨?_, ?_⟩
  · refine e8.trans ?_
    rw [shiftedIn_byte]
    rfl
  · refine s8.trans ?_
    exact shiftedIn_byte _ _

/-- The bytes a chip answers in consecutive exchanges, the first of them after the bytes `rx` (R68). -/
def Chip.answers (c : Chip) : List Byte → List Byte → List Byte
  | _, [] => []
  | rx, t :: ts => (c.respond rx).getD 0xFF :: c.answers (rx ++ [t]) ts

/-- They depend on nothing of the receiver. -/
theorem Chip.answers_congr {c c' : Chip} (h : ∀ rx, c.respond rx = c'.respond rx) (tx rx : List Byte) :
    c.answers rx tx = c'.answers rx tx := by
  induction tx generalizing rx with
  | nil => rfl
  | cons t ts ih => rw [Chip.answers, Chip.answers, h, ih]

theorem Bus.exchange_mock {hp : U32} {tx : List Byte} {b : Bus} {c : Chip} {x : Byte} {d : Bool}
    (he : b.env = .mock (c.receiving x 0 d)) (hs : c.sel = true) :
    (b.exchange hp tx).1 = c.answers c.rx tx ∧
      ∃ y d', (b.exchange hp tx).2.env = .mock (({ c with rx := c.rx ++ tx } : Chip).receiving y 0 d') := by
  induction tx generalizing b c x d with
  | nil => exact ⟨rfl, x, d, by rw [List.append_nil]; exact he⟩
  | cons t ts ih =>
    obtain ⟨e, s⟩ := Bus.transferByte_mock (hp := hp) (out := t) he hs
    obtain ⟨h1, y, d', h2⟩ := ih e hs
    refine ⟨?_, y, d', ?_⟩
    · show (b.transferByte hp t).sr :: _ = _
      rw [h1, s]
      refine congrArg _ ?_
      apply Chip.answers_congr
      intro rx
      rfl
    · rw [Bus.exchange, h2]
      simp

/-- R15, R67 against the mock: the block receives the chip's answers, and the chip has taken the frame and stands
deselected again. -/
theorem Bus.frame_mock {hp : U32} {tx : List Byte} {b : Bus} {c : Chip} (he : b.env = .mock c) (hs : c.sel = false)
    (hc : c.clk = false) :
    (b.frame hp tx).1 = c.answers [] tx ∧
      ∃ y d, (b.frame hp tx).2.env = .mock
        { (({ c with sel := true, rx := tx } : Chip).receiving y 0 d).accept tx with
          sel := false, miso := none, shift := 0, nbits := 0, rx := [] } := by
  have e0 : b.selectAssert.env =
      .mock (({ c with sel := true, rx := [] } : Chip).receiving 0 0 c.din) := by
    simp [Bus.selectAssert, Bus.emit, he, Env.observe, Chip.observe, Chip.select, hs, Chip.receiving, hc]
  obtain ⟨h1, y, d', h2⟩ := Bus.exchange_mock (hp := hp) (tx := tx) e0 rfl
  refine ⟨?_, y, d', ?_⟩
  · show (b.selectAssert.exchange hp tx).1 = _
    refine h1.trans ?_
    apply Chip.answers_congr
    intro rx
    rfl
  · show ((b.selectAssert.exchange hp tx).2.selectDeassert).env = _
    rw [Bus.selectDeassert, Bus.emit]
    simp only [h2, Env.observe, Chip.observe, Chip.deselect]
    rw [if_pos (show (Chip.receiving _ y 0 d').sel = true from rfl)]
    rfl

end Sys2Proof.Machine
end

