-- ==== Sys2Proof/Laws/Operands.lean ====
section
/-! SUPPORT. The operand computations as numbers: typed-read assembly (R55), JEDEC composition (R56), erase addresses (R102), and the parts of the write buffer that a program frame sends (R36). -/

namespace Sys2Proof.Machine

/-- Byte fields do not overlap: an OR of a field below `k` bits and one shifted by `k` is a sum. -/
theorem or_shiftLeft_eq_add (a b k : Nat) (h : a < 2 ^ k) : a ||| (b <<< k) = a + b * 2 ^ k := by
  rw [Nat.or_comm, ← Nat.shiftLeft_add_eq_or_of_lt h, Nat.shiftLeft_eq, Nat.add_comm]

theorem byte_toNat (b : Byte) : (b.setWidth 32).toNat = b.toNat := by
  have hb := b.isLt
  rw [BitVec.toNat_setWidth, Nat.mod_eq_of_lt (by omega : b.toNat < 2 ^ 32)]

theorem byte_shift_toNat (b : Byte) (k : Nat) (h : k ≤ 24) : (b.setWidth 32 <<< k).toNat = b.toNat <<< k := by
  have hb := b.isLt
  rw [BitVec.toNat_shiftLeft, byte_toNat]
  apply Nat.mod_eq_of_lt
  calc b.toNat <<< k < 2 ^ 8 * 2 ^ k := by
        rw [Nat.shiftLeft_eq]; exact Nat.mul_lt_mul_of_pos_right hb (by positivity)
    _ ≤ 2 ^ 8 * 2 ^ 24 := Nat.mul_le_mul_left _ (Nat.pow_le_pow_right (by decide) h)
    _ = 2 ^ 32 := by decide

theorem loadByte_toNat (a : Byte) : (loadByte [a]).toNat = a.toNat := by
  simp only [loadByte, List.getD_cons_zero, byte_toNat]

theorem loadHalf_toNat (a b : Byte) : (loadHalf [a, b]).toNat = a.toNat + b.toNat * 256 := by
  have ha := a.isLt
  simp only [loadHalf, List.getD_cons_zero, List.getD_cons_succ, BitVec.toNat_or, byte_toNat,
    byte_shift_toNat _ 8 (by decide)]
  exact or_shiftLeft_eq_add _ _ 8 ha

theorem loadWord_toNat (a b c d : Byte) :
    (loadWord [a, b, c, d]).toNat = a.toNat + b.toNat * 256 + c.toNat * 65536 + d.toNat * 16777216 := by
  have ha := a.isLt; have hb := b.isLt; have hc := c.isLt
  simp only [loadWord, List.getD_cons_zero, List.getD_cons_succ, BitVec.toNat_or, byte_toNat,
    byte_shift_toNat _ 8 (by decide), byte_shift_toNat _ 16 (by decide), byte_shift_toNat _ 24 (by decide)]
  rw [or_shiftLeft_eq_add _ _ 8 ha, or_shiftLeft_eq_add _ _ 16 (by omega), or_shiftLeft_eq_add _ _ 24 (by omega)]
  norm_num

/-- A typed read is its bytes, the first one least significant. -/
theorem loadByte_littleEndian {t : List Byte} (h : t.length = 1) : (loadByte t).toNat = littleEndian t := by
  match t, h with
  | [a], _ => simp only [loadByte_toNat, littleEndian, Nat.mul_zero, Nat.add_zero]

theorem loadHalf_littleEndian {t : List Byte} (h : t.length = 2) : (loadHalf t).toNat = littleEndian t := by
  match t, h with
  | [a, b], _ => simp only [loadHalf_toNat, littleEndian]; omega

theorem loadWord_littleEndian {t : List Byte} (h : t.length = 4) : (loadWord t).toNat = littleEndian t := by
  match t, h with
  | [a, b, c, d], _ => simp only [loadWord_toNat, littleEndian]; omega

theorem Jedec.compose_toNat (j : Jedec) :
    j.compose.toNat = j.id0.toNat * 65536 + j.id1.toNat * 256 + j.id2.toNat := by
  have h0 := j.id0.isLt; have h1 := j.id1.isLt; have h2 := j.id2.isLt
  have e : j.compose = j.id2.setWidth 32 ||| (j.id1.setWidth 32 <<< 8) ||| (j.id0.setWidth 32 <<< 16) := by
    rw [Jedec.compose, BitVec.or_comm, BitVec.or_comm (j.id0.setWidth 32 <<< 16), ← BitVec.or_assoc]
  rw [e]
  simp only [BitVec.toNat_or, byte_toNat, byte_shift_toNat _ 8 (by decide), byte_shift_toNat _ 16 (by decide)]
  rw [or_shiftLeft_eq_add _ _ 8 h2, or_shiftLeft_eq_add _ _ 16 (by omega)]
  norm_num
  omega

/-- R102: the erase address is the index times the unit, modulo 2^32. -/
theorem eraseAddress_eq (unit : Nat) (k : U32) : eraseAddress unit k = BitVec.ofNat 32 (k.toNat * unit) := by
  apply BitVec.eq_of_toNat_eq
  simp [eraseAddress, BitVec.toNat_mul, Nat.mul_mod]

@[simp] theorem hostBytes_length (buf : List Byte) (fresh pos n : Nat) : (hostBytes buf fresh pos n).length = n := by
  simp [hostBytes]

/-- A byte that the host supplied is sent as it is. -/
theorem hostBytes_getElem? (buf : List Byte) (fresh pos n k : Nat) (hk : k < n) (hb : pos + k < buf.length) :
    (hostBytes buf fresh pos n)[k]? = buf[pos + k]? := by
  simp [hostBytes, hk, hostByte, hb]

/-- When the host supplied all of them, the bytes sent are that part of its buffer. -/
theorem hostBytes_eq (buf : List Byte) (fresh pos n : Nat) (h : pos + n ≤ buf.length) :
    hostBytes buf fresh pos n = (buf.drop pos).take n := by
  apply List.ext_getElem?
  intro k
  by_cases hk : k < n
  · rw [hostBytes_getElem? _ _ _ _ _ hk (by omega), List.getElem?_take_of_lt hk, List.getElem?_drop]
  · rw [List.getElem?_eq_none (by simp; omega), List.getElem?_eq_none (by simp; omega)]

end Sys2Proof.Machine
end

