-- ==== Sys2Proof/Laws/PerInstr.lean ====
section
/-! SUPPORT. Per instruction: which of the three kinds of row it is (R104 to R107), read off its encoding. -/

namespace Sys2Proof.Laws.EncodingClass

/-- R104, R107: the value of `cmd_op` of a host operation or a reserved code. -/
def hostCode : Instr → Option (BitVec 4)
  | .beginOp _ => some 0
  | .ident => some 1
  | .rd8 _ => some 2
  | .rd16 _ => some 3
  | .rd32 _ => some 4
  | .rdbuf _ _ => some 5
  | .wrbuf _ _ => some 6
  | .erchip => some 7
  | .ersec _ => some 8
  | .erb32 _ => some 9
  | .erb64 _ => some 10
  | .used => some 11
  | .reservedC => some 12
  | .reservedD => some 13
  | .reservedE => some 14
  | .reservedF => some 15
  | .rdid => none
  | .rdsr1 => none
  | .rdsr2 => none
  | .rsten => none
  | .rst => none
  | .wren => none
  | .fastrd _ _ => none
  | .pp _ _ => none
  | .se _ => none
  | .be32 _ => none
  | .be64 _ => none
  | .ce => none
  | .selectAssert => none
  | .selectDeassert => none
  | .clockPulse => none
  | .transferByte _ => none
  | .transferBuffer _ => none
  | .runCommand _ => none
  | .readCommand _ _ => none
  | .eraseCommand _ _ => none
  | .readMemory _ _ => none
  | .writeMemory _ _ => none
  | .waitUntilReady => none
  | .writeEnable => none
  | .configureLines => none
  | .addressPhase _ => none
  | .readStatus1 => none
  | .readStatus2 => none
  | .readJEDEC => none

/-- R105: the opcode parameter that is the first byte of a wire frame. -/
def frameOpcode (c : Cfg) : Instr → Option Byte
  | .beginOp _ => none
  | .ident => none
  | .rd8 _ => none
  | .rd16 _ => none
  | .rd32 _ => none
  | .rdbuf _ _ => none
  | .wrbuf _ _ => none
  | .erchip => none
  | .ersec _ => none
  | .erb32 _ => none
  | .erb64 _ => none
  | .used => none
  | .reservedC => none
  | .reservedD => none
  | .reservedE => none
  | .reservedF => none
  | .rdid => some c.opRdid
  | .rdsr1 => some c.opRdsr1
  | .rdsr2 => some c.opRdsr2
  | .rsten => some c.opRsten
  | .rst => some c.opRst
  | .wren => some c.opWren
  | .fastrd _ _ => some c.opFastrd
  | .pp _ _ => some c.opPp
  | .se _ => some c.opSe
  | .be32 _ => some c.opBe32
  | .be64 _ => some c.opBe64
  | .ce => some c.opCe
  | .selectAssert => none
  | .selectDeassert => none
  | .clockPulse => none
  | .transferByte _ => none
  | .transferBuffer _ => none
  | .runCommand _ => none
  | .readCommand _ _ => none
  | .eraseCommand _ _ => none
  | .readMemory _ _ => none
  | .writeMemory _ _ => none
  | .waitUntilReady => none
  | .writeEnable => none
  | .configureLines => none
  | .addressPhase _ => none
  | .readStatus1 => none
  | .readStatus2 => none
  | .readJEDEC => none

/-- A host operation is encoded as one command word with its code on top, a wire frame as a byte sequence that starts
with its opcode parameter, and an internal operation has no encoding. -/
def Statement (i : Instr) : Prop :=
  ∀ (c : Cfg) (aw : AddrWidth),
    match hostCode i, frameOpcode c i with
    | some k, _ => ∃ w, encode c aw i = some (.command w) ∧ cmdOp w = k
    | none, some op => ∃ rest, encode c aw i = some (.frame (op :: rest))
    | none, none => encode c aw i = none

/-- The code is the top field of the word, whatever the two operands are. -/
theorem cmdOp_commandWord (k : BitVec 4) (len arg : U32) : cmdOp (commandWord k len arg) = k := by
  ext j hj
  simp only [cmdOp, commandWord, BitVec.getElem_extractLsb', BitVec.getLsbD_or, BitVec.getLsbD_shiftLeft,
    BitVec.getLsbD_setWidth]
  have h1 : 64 + j < 68 := by omega
  have h2 : ¬ 64 + j < 64 := by omega
  have h3 : 32 ≤ 64 + j - 32 := by omega
  have h4 : 32 ≤ 64 + j := by omega
  have h5 : j < 68 := by omega
  have h6 : ¬ 64 + j < 32 := by omega
  simp [h1, h2, h5, h6, BitVec.getLsbD_of_ge _ _ h3, BitVec.getLsbD_of_ge _ _ h4, hj]

theorem beginOp (hp : U32) : Statement (.beginOp hp) := fun _ _ => ⟨_, rfl, cmdOp_commandWord _ _ _⟩
theorem ident : Statement .ident := fun _ _ => ⟨_, rfl, cmdOp_commandWord _ _ _⟩
theorem rd8 (addr : U32) : Statement (.rd8 addr) := fun _ _ => ⟨_, rfl, cmdOp_commandWord _ _ _⟩
theorem rd16 (addr : U32) : Statement (.rd16 addr) := fun _ _ => ⟨_, rfl, cmdOp_commandWord _ _ _⟩
theorem rd32 (addr : U32) : Statement (.rd32 addr) := fun _ _ => ⟨_, rfl, cmdOp_commandWord _ _ _⟩
theorem rdbuf (addr len : U32) : Statement (.rdbuf addr len) := fun _ _ => ⟨_, rfl, cmdOp_commandWord _ _ _⟩
theorem wrbuf (addr len : U32) : Statement (.wrbuf addr len) := fun _ _ => ⟨_, rfl, cmdOp_commandWord _ _ _⟩
theorem erchip : Statement .erchip := fun _ _ => ⟨_, rfl, cmdOp_commandWord _ _ _⟩
theorem ersec (idx : U32) : Statement (.ersec idx) := fun _ _ => ⟨_, rfl, cmdOp_commandWord _ _ _⟩
theorem erb32 (idx : U32) : Statement (.erb32 idx) := fun _ _ => ⟨_, rfl, cmdOp_commandWord _ _ _⟩
theorem erb64 (idx : U32) : Statement (.erb64 idx) := fun _ _ => ⟨_, rfl, cmdOp_commandWord _ _ _⟩
theorem used : Statement .used := fun _ _ => ⟨_, rfl, cmdOp_commandWord _ _ _⟩
theorem reservedC : Statement .reservedC := fun _ _ => ⟨_, rfl, cmdOp_commandWord _ _ _⟩
theorem reservedD : Statement .reservedD := fun _ _ => ⟨_, rfl, cmdOp_commandWord _ _ _⟩
theorem reservedE : Statement .reservedE := fun _ _ => ⟨_, rfl, cmdOp_commandWord _ _ _⟩
theorem reservedF : Statement .reservedF := fun _ _ => ⟨_, rfl, cmdOp_commandWord _ _ _⟩
theorem rdid : Statement .rdid := fun _ _ => ⟨_, rfl⟩
theorem rdsr1 : Statement .rdsr1 := fun _ _ => ⟨_, rfl⟩
theorem rdsr2 : Statement .rdsr2 := fun _ _ => ⟨_, rfl⟩
theorem rsten : Statement .rsten := fun _ _ => ⟨_, rfl⟩
theorem rst : Statement .rst := fun _ _ => ⟨_, rfl⟩
theorem wren : Statement .wren := fun _ _ => ⟨_, rfl⟩
theorem fastrd (addr len : U32) : Statement (.fastrd addr len) := fun _ _ => ⟨_, rfl⟩
theorem pp (addr : U32) (payload : List Byte) : Statement (.pp addr payload) := fun _ _ => ⟨_, rfl⟩
theorem se (addr : U32) : Statement (.se addr) := fun _ _ => ⟨_, rfl⟩
theorem be32 (addr : U32) : Statement (.be32 addr) := fun _ _ => ⟨_, rfl⟩
theorem be64 (addr : U32) : Statement (.be64 addr) := fun _ _ => ⟨_, rfl⟩
theorem ce : Statement .ce := fun _ _ => ⟨_, rfl⟩
theorem selectAssert : Statement .selectAssert := fun _ _ => rfl
theorem selectDeassert : Statement .selectDeassert := fun _ _ => rfl
theorem clockPulse : Statement .clockPulse := fun _ _ => rfl
theorem transferByte (out : Byte) : Statement (.transferByte out) := fun _ _ => rfl
theorem transferBuffer (count : U32) : Statement (.transferBuffer count) := fun _ _ => rfl
theorem runCommand (opcode : Byte) : Statement (.runCommand opcode) := fun _ _ => rfl
theorem readCommand (opcode : Byte) (length : U32) : Statement (.readCommand opcode length) := fun _ _ => rfl
theorem eraseCommand (opcode : Byte) (address : U32) : Statement (.eraseCommand opcode address) := fun _ _ => rfl
theorem readMemory (address length : U32) : Statement (.readMemory address length) := fun _ _ => rfl
theorem writeMemory (address length : U32) : Statement (.writeMemory address length) := fun _ _ => rfl
theorem waitUntilReady : Statement .waitUntilReady := fun _ _ => rfl
theorem writeEnable : Statement .writeEnable := fun _ _ => rfl
theorem configureLines : Statement .configureLines := fun _ _ => rfl
theorem addressPhase (address : U32) : Statement (.addressPhase address) := fun _ _ => rfl
theorem readStatus1 : Statement .readStatus1 := fun _ _ => rfl
theorem readStatus2 : Statement .readStatus2 := fun _ _ => rfl
theorem readJEDEC : Statement .readJEDEC := fun _ _ => rfl

end Sys2Proof.Laws.EncodingClass
end

