-- ==== Sys2Proof/Laws/Sequencer.lean ====
section
/-! SUPPORT. What the Sequencer's polls, tasks and runs of tasks can do, said once: which frames they emit and which fields they leave alone. Later proofs cite these and do not unfold a task. -/

namespace Sys2Proof.Machine

/-! ### Polls (R152, R153, R164) -/

/-- One poll: the state after it, field by field. -/
theorem readStatus1_eq (s : State) :
    readStatus1 s = { s with bus := (readStatus1 s).bus, resp := [s.polled], w := { s.w with status := s.polled } } := by
  obtain ⟨r, hl, -⟩ := readCommand_spec s.cfg.opRdsr1 1 s
  obtain ⟨x, hx⟩ := List.length_eq_one_iff.1 hl
  have e : (readStatus1 s).resp = [s.polled] := by simp [readStatus1, State.polled, hx]
  rw [← e]; rfl

theorem polled_spec (s : State) :
    ∃ r, Bus.Framed s.hp (responseFrame s.cfg.opRdsr1 1) [r, s.polled] s.bus (readStatus1 s).bus :=
  readStatus1_spec s

/-- The same for the secondary status register (R153). -/
theorem readStatus2_eq (s : State) :
    readStatus2 s = { s with bus := (readStatus2 s).bus, resp := [s.polled2], w := { s.w with status := s.polled2 } } := by
  obtain ⟨r, hl, -⟩ := readCommand_spec s.cfg.opRdsr2 1 s
  obtain ⟨x, hx⟩ := List.length_eq_one_iff.1 hl
  have e : (readStatus2 s).resp = [s.polled2] := by simp [readStatus2, State.polled2, hx]
  rw [← e]; rfl

theorem polled2_spec (s : State) :
    ∃ r, Bus.Framed s.hp (responseFrame s.cfg.opRdsr2 1) [r, s.polled2] s.bus (readStatus2 s).bus :=
  readStatus2_spec s

theorem polled2_congr {s t : State} (hb : s.bus = t.bus) (hh : s.hp = t.hp) (hc : s.cfg = t.cfg) :
    s.polled2 = t.polled2 := by
  simp only [State.polled2, readStatus2, readCommand, State.frame, hb, hh, hc]

/-- What a poll reads depends on the bus, the half-period and the configuration alone. -/
theorem polled_congr {s t : State} (hb : s.bus = t.bus) (hh : s.hp = t.hp) (hc : s.cfg = t.cfg) :
    s.polled = t.polled := by
  simp only [State.polled, readStatus1, readCommand, State.frame, hb, hh, hc]

theorem pollsReady_congr {s t : State} (hb : s.bus = t.bus) (hh : s.hp = t.hp) (hc : s.cfg = t.cfg) :
    s.pollsReady = t.pollsReady := by
  simp only [State.pollsReady, polled_congr hb hh hc, hc]

/-- Setting `H.busy` or emptying the list of tasks does not change what a poll reads. -/
@[simp] theorem polled_setBusy (v : Bool) (s : State) :
    State.polled { s with h := { s.h with busy := v } } = s.polled := polled_congr rfl rfl rfl
@[simp] theorem polled_setTodo (ts : List Task) (s : State) : State.polled { s with todo := ts } = s.polled :=
  polled_congr rfl rfl rfl
@[simp] theorem pollsReady_setBusy (v : Bool) (s : State) :
    State.pollsReady { s with h := { s.h with busy := v } } = s.pollsReady := pollsReady_congr rfl rfl rfl
@[simp] theorem pollsReady_setTodo (ts : List Task) (s : State) :
    State.pollsReady { s with todo := ts } = s.pollsReady := pollsReady_congr rfl rfl rfl

/-- A pass of `waitUntilReady` that finds the chip ready is the poll and nothing else. -/
theorem pollReady_ready {s : State} (h : s.pollsReady = true) : pollReady s = .goOn (readStatus1 s) := by
  unfold pollReady; exact if_pos h

/-- A pass that finds it not ready is the poll and one yield. -/
theorem pollReady_notReady {s : State} (h : s.pollsReady = false) :
    pollReady s = .wait ((readStatus1 s).emit .yld) := by
  unfold pollReady; exact if_neg (Bool.eq_false_iff.1 h)

/-- The state after one poll that `waitUntilReady` makes, ready or not. -/
def afterPoll (s : State) : State :=
  { s with
    bus := (s.bus.frame s.hp (responseFrame s.cfg.opRdsr1 1)).2
    resp := [s.polled]
    w := { s.w with status := s.polled } }

theorem readStatus1_afterPoll (s : State) : readStatus1 s = afterPoll s := by
  rw [readStatus1_eq, readStatus1_bus]; rfl

/-- A run goes on with the next task when the first one does not have to wait. -/
theorem runTasks_goOn {t : Task} {ts : List Task} {s s1 : State} (h : runTask t s = .goOn s1) :
    runTasks (t :: ts) s = runTasks ts s1 := by rw [runTasks, h]

/-- It stops at a task that has to wait, which is then the first one left. -/
theorem runTasks_wait {t : Task} {ts : List Task} {s s1 : State} (h : runTask t s = .wait s1) :
    runTasks (t :: ts) s = { s1 with todo := t :: (ts ++ s1.todo) } := by rw [runTasks, h]

theorem pollWip_clear {s : State} (h : wipClear s.polled = true) : runTask .pollWip s = .goOn (readStatus1 s) := by
  show pollWip s = _; unfold pollWip; exact if_pos h

theorem pollWip_set {s : State} (h : wipClear s.polled = false) : runTask .pollWip s = .wait (readStatus1 s) := by
  show pollWip s = _; unfold pollWip; exact if_neg (Bool.eq_false_iff.1 h)

theorem pollSus_clear {s : State} (h : susClear (readStatus2 s).w.status = true) :
    runTask .pollSus s = .goOn (readStatus2 s) := by
  show pollSus s = _; unfold pollSus; exact if_pos h

theorem pollSus_set {s : State} (h : susClear (readStatus2 s).w.status = false) :
    runTask .pollSus s = .wait (readStatus2 s) := by
  show pollSus s = _; unfold pollSus; exact if_neg (Bool.eq_false_iff.1 h)

/-- A run of tasks whose first is the gate goes on with the next one when the poll finds the chip ready. -/
theorem runTasks_gate_ready {s : State} (ts : List Task) (h : s.pollsReady = true) :
    runTasks (.gate :: ts) s = runTasks ts (afterPoll s) := by
  rw [runTasks, show runTask .gate s = pollReady s from rfl, pollReady_ready h, readStatus1_afterPoll]

/-- It stops there, after one yield, when the poll does not. -/
theorem runTasks_gate_notReady {s : State} (ts : List Task) (h : s.pollsReady = false) :
    runTasks (.gate :: ts) s =
      { (afterPoll s).emit .yld with todo := .gate :: (ts ++ s.todo) } := by
  rw [runTasks, show runTask .gate s = pollReady s from rfl, pollReady_notReady h, readStatus1_afterPoll]
  rfl

/-! ### The loop of a buffered write (R173) -/

/-- With nothing left to write the loop is over, whatever its bound. -/
theorem writeLoop_done {len : U32} {n : Nat} {s : State} (h : s.w.rem = 0) :
    writeLoop len n s = .goOn (finish len s) := by
  cases n <;> simp [writeLoop, h]

/-- A pass that finds the chip not ready waits, the size of its chunk already in `W.chunk`. -/
theorem writeLoop_notReady {len : U32} {n : Nat} {s : State} (h : s.w.rem ≠ 0) (hr : s.pollsReady = false) :
    writeLoop len (n + 1) s = .wait ((readStatus1 (setChunk s)).emit .yld) := by
  have hr' : (setChunk s).pollsReady = false := by rw [← hr]; exact pollsReady_congr rfl rfl rfl
  rw [writeLoop, if_neg h, pollReady_notReady hr']

/-- A pass that finds it ready writes one chunk and goes on. -/
theorem writeLoop_ready {len : U32} {n : Nat} {s : State} (h : s.w.rem ≠ 0) (hr : s.pollsReady = true) :
    writeLoop len (n + 1) s = writeLoop len n (writeChunk (readStatus1 (setChunk s))) := by
  have hr' : (setChunk s).pollsReady = true := by rw [← hr]; exact pollsReady_congr rfl rfl rfl
  rw [writeLoop, if_neg h, pollReady_ready hr']

/-- The chunk of a pass, as a number: at least 1 while something is left. -/
theorem chunkSize_pos_le {a rem : U32} (h : rem ≠ 0) :
    0 < (chunkSize a rem).toNat ∧ (chunkSize a rem).toNat ≤ rem.toNat := by
  have hr : 0 < rem.toNat := by
    rcases Nat.eq_zero_or_pos rem.toNat with h0 | h0
    · exact absurd (BitVec.eq_of_toNat_eq (by simpa using h0)) h
    · exact h0
  have hm : a.toNat % 256 < 256 := Nat.mod_lt _ (by decide)
  simp only [chunkSize, Config.pageSize, BitVec.toNat_ofNat]
  rw [Nat.mod_eq_of_lt (by omega)]
  omega

/-- What a pass leaves to write. -/
theorem writeChunk_rem (s : State) :
    (writeChunk (readStatus1 (setChunk s))).w.rem = s.w.rem - (chunkSize s.w.addr s.w.rem).setWidth 32 := rfl

/-- The bound of the loop is enough: any bound of at least `W.rem` passes gives the same run. -/
theorem writeLoop_bound (len : U32) :
    ∀ (n : Nat) (s : State), s.w.rem.toNat ≤ n → writeLoop len n s = writeLoop len s.w.rem.toNat s := by
  intro n
  induction n using Nat.strongRecOn with
  | ind n ih =>
    intro s hn
    by_cases h : s.w.rem = 0
    · rw [writeLoop_done h, writeLoop_done h]
    · have hc := chunkSize_pos_le (a := s.w.addr) h
      obtain ⟨m, rfl⟩ : ∃ m, n = m + 1 := ⟨n - 1, by omega⟩
      obtain ⟨k, hk⟩ : ∃ k, s.w.rem.toNat = k + 1 := ⟨s.w.rem.toNat - 1, by omega⟩
      rw [hk]
      cases hr : s.pollsReady with
      | false => rw [writeLoop_notReady h hr, writeLoop_notReady h hr]
      | true =>
        rw [writeLoop_ready h hr, writeLoop_ready h hr]
        have hb : ((chunkSize s.w.addr s.w.rem).setWidth 32).toNat = (chunkSize s.w.addr s.w.rem).toNat := by
          rw [BitVec.toNat_setWidth]
          exact Nat.mod_eq_of_lt (lt_of_le_of_lt hc.2 s.w.rem.isLt)
        have hl : (writeChunk (readStatus1 (setChunk s))).w.rem.toNat ≤ k := by
          rw [writeChunk_rem, BitVec.toNat_sub_of_le (by rw [BitVec.le_def, hb]; exact hc.2), hb]
          omega
        rw [ih m (by omega) _ (by omega), ih k (by omega) _ hl]

/-- The same for the task: a pass that finds the chip ready is one chunk, and the task again. -/
theorem runTasks_writeLoop_ready {len : U32} {s : State} (h : s.w.rem ≠ 0) (hr : s.pollsReady = true) :
    runTasks [.writeLoop len] s = runTasks [.writeLoop len] (writeChunk (readStatus1 (setChunk s))) := by
  have hc := chunkSize_pos_le (a := s.w.addr) h
  obtain ⟨k, hk⟩ : ∃ k, s.w.rem.toNat = k + 1 := ⟨s.w.rem.toNat - 1, by omega⟩
  have hb : ((chunkSize s.w.addr s.w.rem).setWidth 32).toNat = (chunkSize s.w.addr s.w.rem).toNat := by
    rw [BitVec.toNat_setWidth]
    exact Nat.mod_eq_of_lt (lt_of_le_of_lt hc.2 s.w.rem.isLt)
  have hl : (writeChunk (readStatus1 (setChunk s))).w.rem.toNat ≤ k := by
    rw [writeChunk_rem, BitVec.toNat_sub_of_le (by rw [BitVec.le_def, hb]; exact hc.2), hb]
    omega
  have e : runTask (.writeLoop len) s = runTask (.writeLoop len) (writeChunk (readStatus1 (setChunk s))) := by
    show writeLoop len s.w.rem.toNat s = writeLoop len _ _
    rw [hk, writeLoop_ready h hr, writeLoop_bound len k _ hl]
  rw [runTasks, e, ← runTasks]

/-- A task that finishes is the end of a run. -/
theorem runTasks_last {t : Task} {s s1 : State} (h : runTask t s = .goOn s1) : runTasks [t] s = s1 := by
  rw [runTasks, h]; rfl

theorem afterPoll_spec (s : State) :
    ∃ r, Bus.Framed s.hp (responseFrame s.cfg.opRdsr1 1) [r, s.polled] s.bus (afterPoll s).bus := by
  have h := polled_spec s
  rwa [readStatus1_afterPoll] at h

/-- R165 bit by bit: ready is WIP = 0 and WEL = 0. -/
theorem isReady_iff (c : Cfg) (st : Byte) :
    isReady c st = true ↔ st.getLsbD 0 = false ∧ st.getLsbD c.welBit.val = false := by
  have key : ∀ (k : Fin 8) (x : Byte),
      (x &&& (1 ||| (1 <<< k.val)) == 0) = true ↔ x.getLsbD 0 = false ∧ x.getLsbD k.val = false := by
    decide +kernel
  exact key c.welBit st

/-! ### Acceptance (R202) -/

theorem acceptOp_busy {needsInit : Bool} {body : State → State} {s : State} (h : s.h.busy = true) :
    acceptOp needsInit body s = refuse s := by simp [acceptOp, h]

theorem acceptOp_uninitialized {body : State → State} {s : State} (h : s.h.initialized = false) :
    acceptOp true body s = refuse s := by unfold acceptOp; split <;> simp [h]

theorem acceptOp_accepts {needsInit : Bool} {body : State → State} {s : State} (h : s.h.busy = false)
    (i : needsInit = false ∨ s.h.initialized = true) :
    acceptOp needsInit body s = body { s with h := { s.h with busy := true } } := by
  rcases i with i | i <;> simp [acceptOp, h, i]

/-- An operation is refused, or its body runs with `H.busy` set. -/
theorem acceptOp_cases (needsInit : Bool) (body : State → State) (s : State) :
    acceptOp needsInit body s = refuse s ∨
      (s.h.busy = false ∧ (needsInit = true → s.h.initialized = true) ∧
        acceptOp needsInit body s = body { s with h := { s.h with busy := true } }) := by
  cases hb : s.h.busy with
  | true => exact .inl (acceptOp_busy hb)
  | false =>
    cases hn : needsInit with
    | false => exact .inr ⟨rfl, by simp, acceptOp_accepts hb (.inl rfl)⟩
    | true =>
      cases hi : s.h.initialized with
      | true => exact .inr ⟨rfl, by simp, acceptOp_accepts hb (.inr hi)⟩
      | false => exact .inl (acceptOp_uninitialized hi)

/-- An accepted operation that finishes leaves the handle as it found it, not busy. -/
theorem busy_roundtrip {h : Handle} (hb : h.busy = false) : { { h with busy := true } with busy := false } = h := by
  cases h; simp_all

/-! ### The result of a task -/

/-- The state a task leaves, whether it goes on or waits. -/
def Progress.state : Progress → State
  | .goOn s => s
  | .wait s => s

/-- What no task changes: the configuration, the address width and the half-period, the stored ID, the host's write
buffer and requests, and a pending block reset. -/
structure State.Keeps (s t : State) : Prop where
  cfg : t.cfg = s.cfg
  addressWidth : t.h.addressWidth = s.h.addressWidth
  halfPeriod : t.h.clockHalfPeriod = s.h.clockHalfPeriod
  jedec : t.h.jedec = s.h.jedec
  wbuf : t.wbuf = s.wbuf
  host : t.host = s.host
  resets : t.resets = s.resets

namespace State.Keeps

theorem refl (s : State) : s.Keeps s := ⟨rfl, rfl, rfl, rfl, rfl, rfl, rfl⟩

theorem trans {a b c : State} (h : a.Keeps b) (k : b.Keeps c) : a.Keeps c :=
  ⟨k.cfg.trans h.cfg, k.addressWidth.trans h.addressWidth, k.halfPeriod.trans h.halfPeriod, k.jedec.trans h.jedec,
    k.wbuf.trans h.wbuf, k.host.trans h.host, k.resets.trans h.resets⟩

end State.Keeps

/-! ### Pieces of the trace -/

/-- A piece that a task can emit: a frame with one byte received for each byte sent, a yield or a delay. -/
def Segment.Sound : Segment → Prop
  | .config => False
  | .frame tx rx => rx.length = tx.length
  | .yield => True
  | .delay _ => True

@[simp] theorem segmentEvents_nil (hp : U32) : segmentEvents hp [] = [] := rfl

@[simp] theorem segmentEvents_cons (hp : U32) (x : Segment) (xs : List Segment) :
    segmentEvents hp (x :: xs) = x.events hp ++ segmentEvents hp xs := rfl

@[simp] theorem segmentEvents_append (hp : U32) (xs ys : List Segment) :
    segmentEvents hp (xs ++ ys) = segmentEvents hp xs ++ segmentEvents hp ys := by
  simp [segmentEvents]

theorem Bus.Framed.pieces {hp : U32} {tx rx : List Byte} {a b : Bus} (h : Bus.Framed hp tx rx a b) :
    a.Emitted b (segmentEvents hp [.frame tx rx]) := by
  simpa [Segment.events] using h.2

theorem Bus.pieces_yield (hp : U32) (b : Bus) : b.Emitted (b.emit .yld) (segmentEvents hp [.yield]) := by
  simpa [Segment.events] using b.emitted_yld

theorem Bus.pieces_delay (hp n : U32) (b : Bus) : b.Emitted (b.emit (.dly n)) (segmentEvents hp [.delay n]) := by
  simpa [Segment.events] using b.emitted_dly n

/-- From `s` to `t` exactly these pieces were emitted at `s`'s half-period, and the fields of `Keeps` are as before. -/
structure State.Did (s t : State) (segs : List Segment) : Prop where
  emitted : s.bus.Emitted t.bus (segmentEvents s.hp segs)
  keeps : s.Keeps t

namespace State.Did

theorem nothing (s : State) : s.Did s [] := ⟨.nothing _, .refl s⟩

theorem trans {a b c : State} {xs ys : List Segment} (h : a.Did b xs) (k : b.Did c ys) : a.Did c (xs ++ ys) where
  emitted := by
    have e : b.hp = a.hp := h.keeps.halfPeriod
    have := h.emitted.trans (e ▸ k.emitted)
    simpa using this
  keeps := h.keeps.trans k.keeps

/-- A state with the same bus that keeps the same fields has done the same. -/
theorem silently {a b c : State} {xs : List Segment} (h : a.Did b xs) (e : c.bus = b.bus) (k : b.Keeps c) :
    a.Did c xs := ⟨e ▸ h.emitted, h.keeps.trans k⟩

end State.Did

theorem readStatus1_did (s : State) :
    ∃ r, s.Did (readStatus1 s) [.frame (responseFrame s.cfg.opRdsr1 1) [r, s.polled]] := by
  obtain ⟨r, h⟩ := polled_spec s
  exact ⟨r, h.pieces, ⟨rfl, rfl, rfl, rfl, rfl, rfl, rfl⟩⟩

theorem readStatus2_did (s : State) :
    ∃ r st, s.Did (readStatus2 s) [.frame (responseFrame s.cfg.opRdsr2 1) [r, st]] := by
  obtain ⟨r, h⟩ := readStatus2_spec s
  exact ⟨r, _, h.pieces, ⟨rfl, rfl, rfl, rfl, rfl, rfl, rfl⟩⟩

theorem runCommand_did (op : Byte) (s : State) : ∃ r, s.Did (runCommand op s) [.frame [op] [r]] := by
  obtain ⟨r, h⟩ := runCommand_spec op s
  exact ⟨r, h.pieces, ⟨rfl, rfl, rfl, rfl, rfl, rfl, rfl⟩⟩

theorem eraseCommand_did (op : Byte) (a : U32) (s : State) :
    ∃ rx, rx.length = s.h.addressWidth.bytes + 1 ∧
      s.Did (eraseCommand op a s) [.frame (addressFrame s.h.addressWidth op a) rx] := by
  obtain ⟨rx, h⟩ := eraseCommand_spec op a s
  exact ⟨rx, by rw [h.1]; simp [addressFrame], h.pieces, ⟨rfl, rfl, rfl, rfl, rfl, rfl, rfl⟩⟩

theorem readBytes_did (a : U32) (n : Nat) (s : State) :
    ∃ rx, rx.length = s.h.addressWidth.bytes + 2 + n ∧
      s.Did (readBytes a n s).2 [.frame (readFrame s.cfg s.h.addressWidth a n) rx] := by
  obtain ⟨hdr, -, -, h⟩ := readBytes_spec a n s
  exact ⟨_, by rw [h.1]; simp, h.pieces, ⟨rfl, rfl, rfl, rfl, rfl, rfl, rfl⟩⟩

theorem programBuffer_did (a : U32) (payload : List Byte) (s : State) :
    ∃ rx, rx.length = s.h.addressWidth.bytes + 1 + payload.length ∧
      s.Did (programBuffer a payload s) [.frame (programFrame s.cfg s.h.addressWidth a payload) rx] := by
  obtain ⟨rx, h⟩ := programBuffer_spec a payload s
  exact ⟨rx, by rw [h.1]; simp [programFrame]; omega, h.pieces, ⟨rfl, rfl, rfl, rfl, rfl, rfl, rfl⟩⟩

theorem emitYield_did (s : State) : s.Did (s.emit .yld) [.yield] :=
  ⟨Bus.pieces_yield _ _, ⟨rfl, rfl, rfl, rfl, rfl, rfl, rfl⟩⟩

theorem chipReset_did (s : State) :
    ∃ r r', s.Did (chipReset s)
      [.frame [s.cfg.opRsten] [r], .frame [s.cfg.opRst] [r'], .delay Config.resetDelayUs] := by
  obtain ⟨r, h⟩ := runCommand_did s.cfg.opRsten s
  obtain ⟨r', h'⟩ := runCommand_did s.cfg.opRst (runCommand s.cfg.opRsten s)
  refine ⟨r, r', ?_⟩
  have h3 : State.Did (runCommand s.cfg.opRst (runCommand s.cfg.opRsten s)) (chipReset s)
      [.delay Config.resetDelayUs] := ⟨Bus.pieces_delay _ _ _, ⟨rfl, rfl, rfl, rfl, rfl, rfl, rfl⟩⟩
  exact (h.trans h').trans h3

theorem finish_keeps (v : U32) (s : State) : s.Keeps (finish v s) := ⟨rfl, rfl, rfl, rfl, rfl, rfl, rfl⟩

/-- A pass of `waitUntilReady`: the poll, and a yield when it has to wait. -/
theorem pollReady_did (s : State) :
    ∃ r, s.Did (pollReady s).state
      (.frame (responseFrame s.cfg.opRdsr1 1) [r, s.polled] :: if s.pollsReady then [] else [.yield]) := by
  obtain ⟨r, h⟩ := readStatus1_did s
  refine ⟨r, ?_⟩
  cases hr : s.pollsReady with
  | true => rw [pollReady_ready hr]; exact h
  | false => rw [pollReady_notReady hr]; exact h.trans (emitYield_did _)

/-- One chunk of a buffered write: write-enable, then the program frame. -/
theorem writeChunk_did (s : State) :
    ∃ r rx, rx.length = s.h.addressWidth.bytes + 1 + s.w.chunk.toNat ∧
      s.Did (writeChunk s) [.frame [s.cfg.opWren] [r],
        .frame (programFrame s.cfg s.h.addressWidth s.w.addr ((writeEnable s).payload s.w.chunk.toNat)) rx] := by
  obtain ⟨r, h⟩ := runCommand_did s.cfg.opWren s
  obtain ⟨rx, hl, h'⟩ := programBuffer_did s.w.addr ((writeEnable s).payload s.w.chunk.toNat) (writeEnable s)
  refine ⟨r, rx, by simpa [State.payload, hostBytes] using hl, ?_⟩
  exact (h.trans h').silently rfl ⟨rfl, rfl, rfl, rfl, rfl, rfl, rfl⟩

/-! ### Tasks and runs of tasks -/

/-- The state does some sequence of sound pieces: whole frames, yields and delays. -/
def State.DoesPieces (s t : State) : Prop := ∃ segs, (∀ x ∈ segs, Segment.Sound x) ∧ s.Did t segs

namespace State.DoesPieces

theorem nothing (s : State) : s.DoesPieces s := ⟨[], by simp, .nothing s⟩

theorem trans {a b c : State} (h : a.DoesPieces b) (k : b.DoesPieces c) : a.DoesPieces c := by
  obtain ⟨xs, hx, h⟩ := h
  obtain ⟨ys, hy, k⟩ := k
  exact ⟨xs ++ ys, fun x hm => (List.mem_append.1 hm).elim (hx x) (hy x), h.trans k⟩

theorem silently {a b c : State} (h : a.DoesPieces b) (e : c.bus = b.bus) (k : b.Keeps c) : a.DoesPieces c := by
  obtain ⟨xs, hx, h⟩ := h
  exact ⟨xs, hx, h.silently e k⟩

theorem finish {a b : State} (h : a.DoesPieces b) (v : U32) : a.DoesPieces (Machine.finish v b) :=
  h.silently rfl (finish_keeps v b)

end State.DoesPieces

theorem readStatus1_pieces (s : State) : s.DoesPieces (readStatus1 s) := by
  obtain ⟨r, h⟩ := readStatus1_did s
  exact ⟨_, by simp [Segment.Sound], h⟩

theorem readStatus2_pieces (s : State) : s.DoesPieces (readStatus2 s) := by
  obtain ⟨r, st, h⟩ := readStatus2_did s
  exact ⟨_, by simp [Segment.Sound], h⟩

theorem runCommand_pieces (op : Byte) (s : State) : s.DoesPieces (runCommand op s) := by
  obtain ⟨r, h⟩ := runCommand_did op s
  exact ⟨_, by simp [Segment.Sound], h⟩

theorem eraseCommand_pieces (op : Byte) (a : U32) (s : State) : s.DoesPieces (eraseCommand op a s) := by
  obtain ⟨rx, hl, h⟩ := eraseCommand_did op a s
  exact ⟨_, by simp [Segment.Sound, addressFrame, hl], h⟩

theorem readBytes_pieces (a : U32) (n : Nat) (s : State) : s.DoesPieces (readBytes a n s).2 := by
  obtain ⟨rx, hl, h⟩ := readBytes_did a n s
  exact ⟨_, by simp [Segment.Sound, hl], h⟩

theorem chipReset_pieces (s : State) : s.DoesPieces (chipReset s) := by
  obtain ⟨r, r', h⟩ := chipReset_did s
  exact ⟨_, by simp [Segment.Sound], h⟩

theorem pollReady_pieces (s : State) : s.DoesPieces (pollReady s).state := by
  obtain ⟨r, h⟩ := pollReady_did s
  refine ⟨_, ?_, h⟩
  cases s.pollsReady <;> simp [Segment.Sound]

theorem writeChunk_pieces (s : State) : s.DoesPieces (writeChunk s) := by
  obtain ⟨r, rx, hl, h⟩ := writeChunk_did s
  refine ⟨_, ?_, h⟩
  simp [Segment.Sound, programFrame, hl, State.payload, hostBytes]
  omega

theorem readMemory_pieces (a : U32) (n : Nat) (s : State) : s.DoesPieces (readMemory a n s) :=
  (readBytes_pieces a n s).silently rfl ⟨rfl, rfl, rfl, rfl, rfl, rfl, rfl⟩

theorem writeLoop_pieces (len : U32) (n : Nat) (s : State) : s.DoesPieces (writeLoop len n s).state := by
  induction n generalizing s with
  | zero => exact (State.DoesPieces.nothing s).finish _
  | succ n ih =>
    rw [writeLoop]
    split
    · exact (State.DoesPieces.nothing s).finish _
    · have h0 : s.DoesPieces (setChunk s) :=
        (State.DoesPieces.nothing s).silently rfl ⟨rfl, rfl, rfl, rfl, rfl, rfl, rfl⟩
      have h1 := h0.trans (pollReady_pieces (setChunk s))
      split <;> rename_i s1 e <;> rw [e] at h1
      · exact h1
      · exact (h1.trans (writeChunk_pieces s1)).trans (ih _)

theorem scanWord_pieces (s : State) : s.DoesPieces (scanWord s).state := by
  rw [scanWord]
  have h1 := pollReady_pieces s
  split <;> rename_i s1 e <;> rw [e] at h1
  · exact h1
  · have h2 := h1.trans (readBytes_pieces s1.w.addr 4 s1)
    have h3 : s.DoesPieces
        { (readBytes s1.w.addr 4 s1).2 with
          w := { (readBytes s1.w.addr 4 s1).2.w with word := loadWord (readBytes s1.w.addr 4 s1).1 } } :=
      h2.silently rfl ⟨rfl, rfl, rfl, rfl, rfl, rfl, rfl⟩
    dsimp only
    split
    · exact h3.finish _
    · exact h3.silently rfl ⟨rfl, rfl, rfl, rfl, rfl, rfl, rfl⟩

/-- Whatever a task does, it emits whole frames, yields and delays, and keeps the fields of `Keeps`. -/
theorem runTask_pieces (t : Task) (s : State) : s.DoesPieces (runTask t s).state := by
  cases t with
  | pollWip =>
    have h := readStatus1_pieces s
    show s.DoesPieces (pollWip s).state
    unfold pollWip; dsimp only; split <;> exact h
  | pollSus =>
    have h := readStatus2_pieces s
    show s.DoesPieces (pollSus s).state
    unfold pollSus; dsimp only; split <;> exact h
  | gate => exact pollReady_pieces s
  | chipReset => exact chipReset_pieces s
  | finishBegin =>
    have h : s.DoesPieces { s with h := { s.h with initialized := true } } :=
      (State.DoesPieces.nothing s).silently rfl ⟨rfl, rfl, rfl, rfl, rfl, rfl, rfl⟩
    exact h.finish _
  | read8 a => exact (readBytes_pieces a 1 s).finish _
  | read16 a => exact (readBytes_pieces a 2 s).finish _
  | read32 a => exact (readBytes_pieces a 4 s).finish _
  | readBuffer a n => exact (readMemory_pieces a n.toNat s).finish _
  | writeLoop len => exact writeLoop_pieces len _ s
  | eraseUnit op a => exact ((runCommand_pieces _ s).trans (eraseCommand_pieces op a _)).finish _
  | eraseAll => exact ((runCommand_pieces _ s).trans (runCommand_pieces _ _)).finish _
  | scan => exact scanWord_pieces s

theorem runTasks_pieces (ts : List Task) (s : State) : s.DoesPieces (runTasks ts s) := by
  induction ts generalizing s with
  | nil => exact .nothing s
  | cons t ts ih =>
    have h := runTask_pieces t s
    rw [runTasks]
    split <;> rename_i s1 e <;> rw [e] at h
    · exact h.trans (ih s1)
    · exact h.silently rfl ⟨rfl, rfl, rfl, rfl, rfl, rfl, rfl⟩

/-- Taking up an operation again emits whole frames, yields and delays. -/
theorem resume_pieces (s : State) : s.DoesPieces (resume s) :=
  ((State.DoesPieces.nothing s).silently (c := { s with todo := [] }) rfl ⟨rfl, rfl, rfl, rfl, rfl, rfl, rfl⟩).trans
    (runTasks_pieces _ _)

/-- Taking up an operation again keeps the fields of `Keeps`. -/
theorem resume_keeps (s : State) : s.Keeps (resume s) := by
  obtain ⟨_, _, h⟩ := resume_pieces s
  exact h.keeps

/-- An operation that is not `BEGIN` is refused or emits whole frames, yields and delays. -/
theorem acceptOp_pieces {needsInit : Bool} {body : State → State} (hb : ∀ s : State, s.DoesPieces (body s)) (s : State) :
    acceptOp needsInit body s = refuse s ∨ s.DoesPieces (acceptOp needsInit body s) := by
  rcases acceptOp_cases needsInit body s with h | ⟨-, -, h⟩
  · exact .inl h
  · refine .inr (h ▸ State.DoesPieces.trans ?_ (hb _))
    exact (State.DoesPieces.nothing s).silently rfl ⟨rfl, rfl, rfl, rfl, rfl, rfl, rfl⟩

/-- `BEGIN` before its first loop: the configuration, then the frame `RDID` at the new half-period. -/
theorem bringUp_emits (hp : U32) (s : State) :
    ∃ r resp, resp.length = 3 ∧ (bringUp hp s).h =
        { s.h with clockHalfPeriod := hp, jedec := Jedec.ofBytes resp } ∧ (bringUp hp s).resp = resp ∧
      s.bus.Emitted (bringUp hp s).bus
        (segmentEvents hp [.config, .frame (responseFrame s.cfg.opRdid 3) (r :: resp)]) := by
  let s0 := configureLines { s with h := { s.h with clockHalfPeriod := hp } }
  obtain ⟨r, hl, h⟩ := readCommand_spec s.cfg.opRdid 3 s0
  refine ⟨r, (readCommand s.cfg.opRdid 3 s0).resp, hl, rfl, rfl, ?_⟩
  have h0 : s.bus.Emitted s0.bus configEvents :=
    configureLines_spec { s with h := { s.h with clockHalfPeriod := hp } }
  have h1 := h0.trans h.2
  rw [segmentEvents_cons, segmentEvents_cons, segmentEvents_nil, List.append_nil]
  exact h1

end Sys2Proof.Machine
end

