-- ==== Sys2Proof/Laws/Step.lean ====
section
/-! SUPPORT. What a step is made of: the request or the resumption it runs, the pieces a wire frame emits, and idle lines after any pieces. -/

namespace Sys2Proof.Machine

/-- Whole frames, yields and delays leave idle lines idle (R35). -/
theorem State.DoesPieces.idle {s t : State} (h : s.DoesPieces t) (i : s.bus.line.Idle) : t.bus.line.Idle := by
  obtain ⟨segs, hs, h⟩ := h
  rw [h.emitted.line]
  clear h
  generalize s.bus.line = x at i
  induction segs generalizing x with
  | nil => exact i
  | cons g gs ih =>
    rw [segmentEvents_cons, List.foldl_append]
    refine ih (fun x hx => hs x (List.mem_cons_of_mem _ hx)) _ ?_
    have := hs g (by simp)
    cases g with
    | config => exact this.elim
    | frame tx rx => exact Lines.idle_after_frame i
    | yield => exact i
    | delay n => exact i

theorem readJedec_pieces (s : State) : s.DoesPieces (readJedec s) := by
  obtain ⟨r, hl, h⟩ := readCommand_spec s.cfg.opRdid 3 s
  exact ⟨_, by simp [Segment.Sound, hl], h.pieces, ⟨rfl, rfl, rfl, rfl, rfl, rfl, rfl⟩⟩

theorem programBuffer_pieces (a : U32) (payload : List Byte) (s : State) :
    s.DoesPieces (programBuffer a payload s) := by
  obtain ⟨rx, hl, h⟩ := programBuffer_did a payload s
  exact ⟨_, by simp [Segment.Sound, programFrame, hl]; omega, h⟩

/-- A wire frame on its own emits its frame and changes neither the handle nor the tasks left. -/
theorem exec_wireFrame {i : Instr} (hi : IsWireFrame i) {s t : State} (h : exec i s = .next t) :
    s.DoesPieces t ∧ t.h = s.h ∧ t.todo = s.todo ∧ t.rsps = s.rsps := by
  cases hi <;> cases h
  · exact ⟨readJedec_pieces s, rfl, rfl, rfl⟩
  · exact ⟨readStatus1_pieces s, rfl, rfl, rfl⟩
  · exact ⟨readStatus2_pieces s, rfl, rfl, rfl⟩
  · exact ⟨runCommand_pieces _ s, rfl, rfl, rfl⟩
  · exact ⟨runCommand_pieces _ s, rfl, rfl, rfl⟩
  · exact ⟨runCommand_pieces _ s, rfl, rfl, rfl⟩
  · exact ⟨readMemory_pieces _ _ s, rfl, rfl, rfl⟩
  · exact ⟨programBuffer_pieces _ _ s, rfl, rfl, rfl⟩
  · exact ⟨eraseCommand_pieces _ _ s, rfl, rfl, rfl⟩
  · exact ⟨eraseCommand_pieces _ _ s, rfl, rfl, rfl⟩
  · exact ⟨eraseCommand_pieces _ _ s, rfl, rfl, rfl⟩
  · exact ⟨runCommand_pieces _ s, rfl, rfl, rfl⟩

/-- With nothing left to do, taking an operation up again changes nothing. -/
theorem resume_nothing {s : State} (h : s.todo = []) : resume s = s := by
  rw [resume, h, runTasks]
  cases s
  simp_all

/-- The three things a step before block reset can be: a resumption, a host operation, a wire frame on its own. -/
theorem stepCore_cases {s t : State} (h : stepCore s = .next t) :
    t = resume s ∨
    (∃ w wb rb blocking rest, s.host = .command w wb rb blocking :: rest ∧
      exec (decodeCommand w) (takeBuffers wb rb { s with host := rest }) = .next t) ∨
    (∃ bytes rest i, s.host = .framer bytes :: rest ∧ IsWireFrame i ∧ exec i { s with host := rest } = .next t) := by
  unfold stepCore fetch at h
  split at h
  · exact .inl (Host.Outcome.next.inj h).symm
  · rename_i p s1 e
    split at h
    · rename_i i hd
      split at e
      · cases e
      · split at e
        · cases e
        · cases e
          cases hd
          exact .inr (.inl ⟨_, _, _, _, _, ‹_›, h⟩)
      · cases e
        exact .inr (.inr ⟨_, _, _, ‹_›, decodeFrame_isWireFrame hd, h⟩)
    · cases h

@[simp] theorem State.tick_cfg (s : State) : s.tick.cfg = s.cfg := rfl
@[simp] theorem State.tick_h (s : State) : s.tick.h = s.h := rfl
@[simp] theorem State.tick_w (s : State) : s.tick.w = s.w := rfl
@[simp] theorem State.tick_bus (s : State) : s.tick.bus = s.bus := rfl
@[simp] theorem State.tick_resp (s : State) : s.tick.resp = s.resp := rfl
@[simp] theorem State.tick_rspCode (s : State) : s.tick.rspCode = s.rspCode := rfl
@[simp] theorem State.tick_rspVal (s : State) : s.tick.rspVal = s.rspVal := rfl
@[simp] theorem State.tick_rbuf (s : State) : s.tick.rbuf = s.rbuf := rfl
@[simp] theorem State.tick_wbuf (s : State) : s.tick.wbuf = s.wbuf := rfl
@[simp] theorem State.tick_todo (s : State) : s.tick.todo = s.todo := rfl
@[simp] theorem State.tick_rsps (s : State) : s.tick.rsps = s.rsps := rfl
@[simp] theorem State.tick_host (s : State) : s.tick.host = s.host := rfl
@[simp] theorem State.tick_resets (s : State) : s.tick.resets = s.resets.tail := rfl

/-- With no list of block resets, moving it on changes nothing. -/
theorem State.tick_nil {s : State} (h : s.resets = []) : s.tick = s := by
  cases s; simp_all [State.tick]

theorem State.resetDue_nil {s : State} (h : s.resets = []) : s.resetDue = none := by rw [State.resetDue, h]

/-- Taking a request changes the buffers and the list of requests alone. -/
theorem State.taken_eq (s : State) : s.taken = { s with host := s.taken.host, wbuf := s.taken.wbuf, rbuf := s.taken.rbuf } := by
  unfold State.taken fetch
  split
  · rfl
  · rename_i h
    split at h
    · cases h
    · split at h
      · cases h
      · cases h; unfold takeBuffers; split <;> rfl
    · cases h; rfl

/-- Without a block reset due, a step is `stepCore`. -/
theorem step_eq_stepCore {s : State} (h : s.resetDue = none) : step s = stepCore s.tick := by
  unfold step applyReset
  rw [h]

/-- A step that takes no request and meets no block reset takes the operation in progress up again. -/
theorem step_undisturbed {s : State} (h : s.Undisturbed) : step s = .next (resume s.tick) := by
  obtain ⟨hr, hh⟩ := h
  have hf : fetch s.tick = none := by
    rcases hh with hh | ⟨w, wb, rb, rest, hh, hp⟩
    · unfold fetch; rw [State.tick_host, hh]
    · have hp' : s.tick.inProgress = true := hp
      unfold fetch; rw [State.tick_host, hh]; simp [hp']
  rw [step_eq_stepCore hr, stepCore, hf]

/-- With one due, the outcome is cut short of its response, or reset behind its end. -/
theorem step_cases {s t : State} (h : step s = .next t) :
    (s.resetDue = none ∧ stepCore s.tick = .next t) ∨
    (∃ n t', s.resetDue = some n ∧ stepCore s.tick = .next t' ∧
      ((n ≤ newEvents s.taken t' ∧ t = blockReset (cutRun s.taken t' n)) ∨
        (newEvents s.taken t' < n ∧ t = blockReset t'))) := by
  unfold step applyReset at h
  split at h
  · exact .inl ⟨‹_›, h⟩
  · split at h
    · have e := (Host.Outcome.next.inj h).symm
      unfold afterReset at e
      split at e
      · exact .inr ⟨_, _, ‹_›, ‹_›, .inl ⟨‹_›, e⟩⟩
      · exact .inr ⟨_, _, ‹_›, ‹_›, .inr ⟨by omega, e⟩⟩
    · cases h
    · cases h

end Sys2Proof.Machine
end

