-- ==== Sys2Proof/Tests/Slice0.lean ====
section
/-! SUPPORT. Tests: the well-formedness checks refuse, every constructor decodes from a word written out from the spec, one or two vectors of 95_test_vectors.md for each instruction, and a witness for the hypotheses of each statement. Expected values are the spec's, not the model's. -/

namespace Sys2Proof.Tests

open Sys2Proof.Machine

set_option Elab.async false

/-! ### Well-formedness: each check has an ill-formed term that it refuses (R100: no byte for bits 31:24) -/

theorem test_wf_refuses_fastrd : (Instr.fastrd 0x01000000 1).wf .three = false := by decide
theorem test_wf_refuses_pp_address : (Instr.pp 0x01000000 [1]).wf .three = false := by decide
theorem test_wf_refuses_se : (Instr.se 0x01000000).wf .three = false := by decide
theorem test_wf_refuses_be32 : (Instr.be32 0xFF000000).wf .three = false := by decide
theorem test_wf_refuses_be64 : (Instr.be64 0x80FFFFFF).wf .three = false := by decide
theorem test_wf_accepts_top_address : (Instr.se 0x00FFFFFF).wf .three = true ∧ (Instr.se 0xFFFFFFFF).wf .four = true := by
  decide

/-- A payload that no `u32` length can name is refused. -/
theorem test_wf_refuses_long_payload (payload : List Byte) (h : 2 ^ 32 ≤ payload.length) :
    (Instr.pp 0 payload).wf .three = false := by
  simp only [Instr.wf, Bool.and_eq_false_iff, decide_eq_false_iff_not]
  omega

/-! ### Decoding: words written out from R91 and R104 (`cmd_op` in bits 67:64, `cmd_len` in 63:32, `cmd_arg` in 31:0) -/

theorem test_decode_begin : decodeCommand 0x0_00000000_00000002 = .beginOp 2 := by decide
theorem test_decode_ident : decodeCommand 0x1_00000000_00000000 = .ident := by decide
theorem test_decode_rd8 : decodeCommand 0x2_00000000_000010FB = .rd8 0x10FB := by decide
theorem test_decode_rd16 : decodeCommand 0x3_00000000_000010FB = .rd16 0x10FB := by decide
theorem test_decode_rd32 : decodeCommand 0x4_00000000_000010FB = .rd32 0x10FB := by decide
theorem test_decode_rdbuf : decodeCommand 0x5_0000000A_000010FA = .rdbuf 0x10FA 10 := by decide
theorem test_decode_wrbuf : decodeCommand 0x6_0000000A_000010FA = .wrbuf 0x10FA 10 := by decide
theorem test_decode_erchip : decodeCommand 0x7_00000000_00000000 = .erchip := by decide
theorem test_decode_ersec : decodeCommand 0x8_00000000_00000001 = .ersec 1 := by decide
theorem test_decode_erb32 : decodeCommand 0x9_00000000_000001FF = .erb32 511 := by decide
theorem test_decode_erb64 : decodeCommand 0xA_00000000_000000FF = .erb64 255 := by decide
theorem test_decode_used : decodeCommand 0xB_00000000_00000000 = .used := by decide
theorem test_decode_reserved :
    decodeCommand 0xC_00000000_00000000 = .reservedC ∧ decodeCommand 0xD_00000000_00000000 = .reservedD ∧
    decodeCommand 0xE_00000000_00000000 = .reservedE ∧ decodeCommand 0xF_00000000_00000000 = .reservedF := by decide

/-- R91: "An ignored field may hold any value and has no effect." -/
theorem test_decode_ignores_fields : decodeCommand 0x1_DEADBEEF_CAFEBABE = .ident := by decide

/-! Frames written out from R94 to R98 and R105 at the default opcode bytes (T-F0 to T-F4 of 95_test_vectors.md). -/

theorem test_decode_rdid : decodeFrame Config.default .three [0x9F, 0xFF, 0xFF, 0xFF] = some .rdid := by decide
theorem test_decode_rdsr1 : decodeFrame Config.default .three [0x05, 0xFF] = some .rdsr1 := by decide
theorem test_decode_rdsr2 : decodeFrame Config.default .three [0x35, 0xFF] = some .rdsr2 := by decide
theorem test_decode_rsten : decodeFrame Config.default .three [0x66] = some .rsten := by decide
theorem test_decode_rst : decodeFrame Config.default .three [0x99] = some .rst := by decide
theorem test_decode_wren : decodeFrame Config.default .three [0x06] = some .wren := by decide
theorem test_decode_fastrd :
    decodeFrame Config.default .three [0x0B, 0x00, 0x10, 0xFB, 0xFF, 0xFF, 0xFF] = some (.fastrd 0x10FB 2) := by decide
theorem test_decode_pp :
    decodeFrame Config.default .three [0x02, 0x00, 0x10, 0xFA, 1, 2, 3, 4, 5, 6] = some (.pp 0x10FA [1, 2, 3, 4, 5, 6]) := by
  decide
theorem test_decode_se : decodeFrame Config.default .three [0x20, 0x00, 0x10, 0x00] = some (.se 0x1000) := by decide
theorem test_decode_be32 : decodeFrame Config.default .three [0x52, 0xFF, 0x80, 0x00] = some (.be32 0xFF8000) := by decide
theorem test_decode_be64 : decodeFrame Config.default .three [0xD8, 0xFF, 0x00, 0x00] = some (.be64 0xFF0000) := by decide
theorem test_decode_ce : decodeFrame Config.default .three [0xC7] = some .ce := by decide

/-- Width 4 has a fourth address byte (R110, T-ADDR). -/
theorem test_decode_width_four :
    decodeFrame Config.default .four [0x20, 0x89, 0xAB, 0xCD, 0xEF] = some (.se 0x89ABCDEF) := by decide

/-- R109: a status-register write, a plain read and a frame of the wrong length are none of the twelve. -/
theorem test_decode_rejects :
    decodeFrame Config.default .three [0x01, 0x00] = none ∧ decodeFrame Config.default .three [0x03, 0, 0, 0, 0xFF] = none ∧
    decodeFrame Config.default .three [0x06, 0x00] = none ∧ decodeFrame Config.default .three [0x20, 0, 0] = none ∧
    decodeFrame Config.default .three [] = none := by decide

/-- The table's rows: a 68-bit command word, and an opcode byte with zero operand bytes. -/
theorem test_table_words :
    decodeTableWord 68 0x8_00000000_00000001 = some (.ersec 1) ∧ decodeTableWord 8 0x9F = some .rdid ∧
    decodeTableWord 8 0x0B = some (.fastrd 0 0) ∧ decodeTableWord 8 0x02 = some (.pp 0 []) ∧
    decodeTableWord 8 0x01 = none ∧ decodeTableWord 16 0 = none := by decide

/-- T-ADDR. -/
theorem test_address_bytes :
    addressBytes .three 0x00123456 = [0x12, 0x34, 0x56] ∧ addressBytes .three 0x89ABCDEF = [0xAB, 0xCD, 0xEF] ∧
    addressBytes .four 0x01000000 = [0x01, 0x00, 0x00, 0x00] := by decide

/-! ### Small states -/

/-- The state of an outcome. -/
def after (o : Host.Outcome State Fault Refusal) : Option State :=
  match o with
  | .next t => some t
  | .fault _ => none
  | .refused _ => none

/-- The mock of 95_test_vectors.md section 3, ready, its array erased. -/
def chip : Chip where
  cfg := Config.default
  id := ⟨0xEF, 0x40, 0x18⟩
  mem := []
  wip := false
  wel := false
  sus := false
  rsten := false
  cnt := 0
  nProg := 1
  nErase := 2
  sel := false
  clk := false
  din := false
  miso := none
  shift := 0
  nbits := 0
  rx := []

/-- Reset, with an environment. -/
def boot (e : Env) : State := { State.reset with bus := { State.reset.bus with env := e } }

/-- After a bring-up, with an environment. -/
def up (e : Env) : State := { boot e with h := { State.reset.h with initialized := true } }

/-- After a bring-up, the samples scripted byte by byte. -/
def fed (rx : List Byte) : State := up (.draws (wireBits rx))

/-- After a bring-up, against the mock with this array. -/
def onMock (m : Memory) : State := up (.mock { chip with mem := m })

/-- 02 03 04 05 at 0x0010FB (T-TYPED). -/
def typedFlash : Memory := [(0x10FB, 2), (0x10FC, 3), (0x10FD, 4), (0x10FE, 5)]

/-- The value of the response, and how many events the run emitted. -/
def answer (i : Instr) (s : State) : Option (RspCode × U32 × Nat) :=
  (after (exec i s)).map fun t => (t.rspCode, t.rspVal, t.bus.trace.length)

/-- The trace a run emitted. -/
def traceOf (i : Instr) (s : State) : Option (List Event) := (after (exec i s)).map fun t => t.bus.trace

/-! ### Host operations -/

/-- P1: 408 events, result 1, the ID stored; R35: data-out at 1. -/
theorem test_begin_ready_chip :
    (after (exec (.beginOp 0) (boot (.mock chip)))).map (fun t => (t.rspVal, t.bus.trace.length, t.h.jedec, t.h.initialized, t.bus.line.mosi.level)) =
      some (1, 408, ⟨0xEF, 0x40, 0x18⟩, true, some true) := by decide +kernel
/-- T-IDENT. -/
theorem test_ident : answer .ident { fed [] with h := { (fed []).h with jedec := ⟨0xEF, 0x40, 0x18⟩ } } =
    some (.done, 0x00EF4018, 0) := by decide +kernel
/-- T-TYPED. -/
theorem test_rd8 : answer (.rd8 0x10FB) (onMock typedFlash) = some (.done, 0x02, 66 + 194) := by decide +kernel
theorem test_rd16 : answer (.rd16 0x10FB) (onMock typedFlash) = some (.done, 0x0302, 66 + 226) := by decide +kernel
theorem test_rd32 : answer (.rd32 0x10FB) (onMock typedFlash) = some (.done, 0x05040302, 66 + 290) := by decide +kernel
theorem test_rd16_zero_extends : answer (.rd16 0) (onMock [(1, 0)]) = some (.done, 0xFF, 66 + 226) := by decide +kernel
theorem test_rd32_erased : answer (.rd32 0) (onMock []) = some (.done, 0xFFFFFFFF, 66 + 290) := by decide +kernel
/-- T-F3a, with a byte of `rbuf` beyond the length left alone (R36). -/
theorem test_rdbuf : (after (exec (.rdbuf 0x10FB 2) { onMock typedFlash with rbuf := [7, 8, 9] })).map
    (fun t => (t.rspVal, t.rbuf)) = some (2, [2, 3, 9]) := by decide +kernel
/-- P6: length 0 is still a poll and a 5-byte header. -/
theorem test_rdbuf_empty : answer (.rdbuf 0 0) (onMock []) = some (.done, 0, 228) := by decide +kernel
/-- R173: a chunk ends at its page's end and the second starts the next page. -/
theorem test_wrbuf_crosses_a_page :
    traceOf (.wrbuf 0x10FF 2) { up (.draws (List.replicate 200 false)) with wbuf := [6, 7] } =
      some (frameEvents 0 [0x05, 0xFF] [0, 0] ++ frameEvents 0 [0x06] [0] ++
        frameEvents 0 [0x02, 0x00, 0x10, 0xFF, 6] (List.replicate 5 0) ++
        frameEvents 0 [0x05, 0xFF] [0, 0] ++ frameEvents 0 [0x06] [0] ++
        frameEvents 0 [0x02, 0x00, 0x11, 0x00, 7] (List.replicate 5 0)) := by decide +kernel
/-- P6: length 0 emits nothing. -/
theorem test_wrbuf_empty : answer (.wrbuf 0 0) (fed []) = some (.done, 0, 0) := by decide +kernel
/-- T-ERASE. -/
theorem test_erchip : traceOf .erchip (fed [0xFF, 0, 0xFF, 0xFF]) =
    some (frameEvents 0 [0x05, 0xFF] [0xFF, 0] ++ frameEvents 0 [0x06] [0xFF] ++ frameEvents 0 [0xC7] [0xFF]) := by
  decide +kernel
theorem test_ersec : traceOf (.ersec 1) (fed [0xFF, 0, 0xFF, 0xFF, 0xFF, 0xFF, 0xFF]) =
    some (frameEvents 0 [0x05, 0xFF] [0xFF, 0] ++ frameEvents 0 [0x06] [0xFF] ++
      frameEvents 0 [0x20, 0x00, 0x10, 0x00] [0xFF, 0xFF, 0xFF, 0xFF]) := by decide +kernel
theorem test_ersec_wraps : eraseAddress Config.sectorSize 0x100000 = 0 ∧
    addressBytes .three (eraseAddress Config.sectorSize 4096) = [0, 0, 0] := by decide
theorem test_erb32 : traceOf (.erb32 511) (fed [0xFF, 0, 0xFF, 0xFF, 0xFF, 0xFF, 0xFF]) =
    some (frameEvents 0 [0x05, 0xFF] [0xFF, 0] ++ frameEvents 0 [0x06] [0xFF] ++
      frameEvents 0 [0x52, 0xFF, 0x80, 0x00] [0xFF, 0xFF, 0xFF, 0xFF]) := by decide +kernel
theorem test_erb64 : traceOf (.erb64 255) (fed [0xFF, 0, 0xFF, 0xFF, 0xFF, 0xFF, 0xFF]) =
    some (frameEvents 0 [0x05, 0xFF] [0xFF, 0] ++ frameEvents 0 [0x06] [0xFF] ++
      frameEvents 0 [0xD8, 0xFF, 0x00, 0x00] [0xFF, 0xFF, 0xFF, 0xFF]) := by decide +kernel
/-- P3 case b: an erased device gives 0. -/
theorem test_used_empty : answer .used (onMock []) = some (.done, 0, 66 + 290) := by decide +kernel
/-- P3 case a, its first word: the scan goes on at 4. -/
theorem test_used_goes_on :
    (after (exec .used (onMock [(0, 0x11), (1, 0x22), (2, 0x33), (3, 0x44), (7, 0)]))).map
      (fun t => (t.w.word, t.w.addr, t.h.busy, t.rsps)) = some (0x44332211, 4, true, []) := by decide +kernel
/-- T-REFUSE, P6. -/
theorem test_refused_before_begin : (after (exec (.rd8 0) (boot (.mock chip)))).map (fun t => (t.rspCode, t.bus.trace)) =
    some (.refused, []) := by decide +kernel
theorem test_reserved_refused : [Instr.reservedC, .reservedD, .reservedE, .reservedF].map
    (fun i => (after (exec i (onMock []))).map fun t => (t.rspCode, t.bus.trace)) = List.replicate 4 (some (.refused, [])) := by
  decide +kernel

/-! ### Wire frames (T-CNT, T-F0 to T-F4, T-WEL) -/

theorem test_rdid : (after (exec .rdid (onMock []))).map (fun t => (t.resp, t.bus.trace.length)) =
    some ([0xEF, 0x40, 0x18], 130) := by decide +kernel
theorem test_rdsr1 : (after (exec .rdsr1 (fed [0xFF, 0x03]))).map (fun t => (t.w.status, t.bus.trace.length)) =
    some (0x03, 66) := by decide +kernel
theorem test_rdsr2 : (after (exec .rdsr2 (fed [0xFF, 0x80]))).map (fun t => (t.w.status, t.bus.trace.length)) =
    some (0x80, 66) := by decide +kernel
theorem test_rsten : traceOf .rsten (fed [0xFF]) = some (frameEvents 0 [0x66] [0xFF]) := by decide +kernel
theorem test_rst : traceOf .rst (fed [0xFF]) = some (frameEvents 0 [0x99] [0xFF]) := by decide +kernel
theorem test_wren : traceOf .wren (fed [0xFF]) = some (frameEvents 0 [0x06] [0xFF]) := by decide +kernel
theorem test_fastrd : (after (exec (.fastrd 0x10FB 2) (onMock typedFlash))).map (fun t => (t.rbuf, t.bus.trace.length)) =
    some ([2, 3], 226) := by decide +kernel
/-- The array of the mock after a run. -/
def arrayAfter (i : Instr) (c : Chip) : Option Memory :=
  (after (exec i (up (.mock c)))).bind fun t => match t.bus.env with
    | .mock c => some c.mem
    | .draws _ => none
    | .absent => none
theorem test_pp_ands : arrayAfter (.pp 0 [0xAA]) { chip with wel := true, mem := [(0, 0xF0)] } = some [(0, 0xA0)] := by
  decide +kernel
theorem test_pp_without_enable : arrayAfter (.pp 0 [0xAA]) { chip with mem := [(0, 0xF0)] } = some [(0, 0xF0)] := by
  decide +kernel
theorem test_se : arrayAfter (.se 0x1000) { chip with wel := true, mem := [(0xFFF, 0), (0x1000, 0), (0x1FFF, 0), (0x2000, 0)] } =
    some [(0xFFF, 0), (0x2000, 0)] := by decide +kernel
theorem test_be32 : arrayAfter (.be32 0x8000) { chip with wel := true, mem := [(0x7FFF, 0), (0x8000, 0), (0xFFFF, 0), (0x10000, 0)] } =
    some [(0x7FFF, 0), (0x10000, 0)] := by decide +kernel
theorem test_be64 : arrayAfter (.be64 0x10000) { chip with wel := true, mem := [(0xFFFF, 0), (0x10000, 0), (0x1FFFF, 0), (0x20000, 0)] } =
    some [(0xFFFF, 0), (0x20000, 0)] := by decide +kernel
theorem test_ce : arrayAfter .ce { chip with wel := true, mem := [(0, 0), (0xFFFFFF, 0)] } = some [] := by decide +kernel

/-! ### Internal operations -/

theorem test_select : traceOf .selectAssert (fed []) = some [.drv .cs false] ∧
    traceOf .selectDeassert (fed []) = some [.drv .cs true] := by decide +kernel
/-- R122's example. -/
theorem test_clock_pulse : traceOf .clockPulse { fed [] with h := { (fed []).h with clockHalfPeriod := 2 } } =
    some [.drv .sck true, .dly 2, .drv .sck false, .dly 2] := by decide +kernel
/-- T-TB, second row: 0xA5 out, 0x3C in, 32 events; the first cell of T-HP. -/
theorem test_transfer_byte : (after (exec (.transferByte 0xA5) (up (.draws [false, false, true, true, true, true, false, false])))).map
    (fun t => (t.bus.sr, t.bus.trace.length, t.bus.trace.take 4)) =
      some (0x3C, 32, [.drv .mosi true, .smp .miso false, .drv .sck true, .drv .sck false]) := by decide +kernel
/-- T-SR: after one cell of the same transfer the register holds 0x4A, after three 0x29. -/
theorem test_shift_register :
    (((fed [0x3C]).bus.setSr 0xA5).bitCell 0 0).sr = 0x4A ∧
    (((((fed [0x3C]).bus.setSr 0xA5).bitCell 0 0).bitCell 0 1).bitCell 0 2).sr = 0x29 := by decide +kernel
/-- T-BUF. -/
theorem test_transfer_buffer : (after (exec (.transferBuffer 2) { fed [0x12, 0x34] with rbuf := [0xFF, 0xFF] })).map
    (fun t => (t.rbuf, t.bus.trace.length, t.bus.trace.count (.drv .mosi true))) = some ([0x12, 0x34], 64, 16) := by
  decide +kernel
/-- P4: `runCommand(0x06)` is 34 events; its sixth bit cell drives data-out high. -/
theorem test_run_command : (traceOf (.runCommand 0x06) (fed [0xFF])).map
    (fun evs => (evs.length, evs.head?, evs[21]?, evs.getLast?)) =
      some (34, some (.drv .cs false), some (.drv .mosi true), some (.drv .cs true)) := by decide +kernel
/-- T-F1b, T-F1c. -/
theorem test_read_command : (after (exec (.readCommand 0x9F 3) (fed [0xFF, 0xEF, 0x40, 0x18]))).map (fun t => t.resp) =
    some [0xEF, 0x40, 0x18] := by decide +kernel
theorem test_read_command_empty : (after (exec (.readCommand 0x05 0) (fed [0xFF]))).map
    (fun t => (t.resp, t.bus.trace.length)) = some ([], 34) := by decide +kernel
/-- T-F2c: bit 24 of the address is dropped. -/
theorem test_erase_command : traceOf (.eraseCommand 0x20 0x01000000) (fed [0xFF, 0xFF, 0xFF, 0xFF]) =
    some (frameEvents 0 [0x20, 0, 0, 0] [0xFF, 0xFF, 0xFF, 0xFF]) := by decide +kernel
/-- T-F3b. -/
theorem test_read_memory_empty : (after (exec (.readMemory 0 0) { onMock [] with rbuf := [1, 2] })).map
    (fun t => (t.rbuf, t.bus.trace.length)) = some ([1, 2], 162) := by decide +kernel
/-- T-F4a. -/
theorem test_write_memory : (after (exec (.writeMemory 0x10FA 6)
    { fed (List.replicate 10 0xFF) with wbuf := [1, 2, 3, 4, 5, 6] })).map (fun t => (t.bus.trace, t.wbuf)) =
      some (frameEvents 0 [0x02, 0x00, 0x10, 0xFA, 1, 2, 3, 4, 5, 6] (List.replicate 10 0xFF), [1, 2, 3, 4, 5, 6]) := by
  decide +kernel
/-- T-WAIT: FC is ready; 02 is not (latch still set), and the wait yields. -/
theorem test_wait_ignores_other_bits : (after (exec .waitUntilReady (fed [0xFF, 0xFC]))).map
    (fun t => (t.bus.trace.count .yld, t.todo)) = some (0, []) := by decide +kernel
theorem test_wait_for_latch : (after (exec .waitUntilReady (fed [0xFF, 0x02]))).map
    (fun t => (t.bus.trace.getLast?, t.todo)) = some (some .yld, [.gate]) := by decide +kernel
theorem test_write_enable : traceOf .writeEnable (fed [0xFF]) = some (frameEvents 0 [0x06] [0xFF]) := by decide +kernel
/-- P1: the eleven events. -/
theorem test_configure_lines : traceOf .configureLines (fed []) =
    some [.dir .cs .out, .drv .cs true, .dir .sck .out, .drv .sck false, .dir .mosi .out, .drv .mosi false,
      .dir .miso .inPullup, .dir .wp .out, .drv .wp true, .dir .hold .out, .drv .hold true] := by decide +kernel
/-- R146's example. -/
theorem test_address_phase : traceOf (.addressPhase 0x0010FA) (fed [0xFF, 0xFF, 0xFF]) =
    some (byteEvents 0 0x00 0xFF ++ byteEvents 0 0x10 0xFF ++ byteEvents 0 0xFA 0xFF) := by decide +kernel
theorem test_read_status1 : (after (exec .readStatus1 (fed [0xFF, 0x03]))).map (fun t => t.resp) = some [0x03] := by
  decide +kernel
theorem test_read_status2 : (after (exec .readStatus2 (fed [0xFF, 0x80]))).map (fun t => t.resp) = some [0x80] := by
  decide +kernel
theorem test_read_jedec : (after (exec .readJEDEC (onMock []))).map (fun t => t.resp) = some [0xEF, 0x40, 0x18] := by
  decide +kernel

/-! ### The step, block reset, the chunk law -/

/-- The table word of `WREN` runs as the first step after reset. -/
theorem test_fetch_word : (after (step ((boot (.draws (List.replicate 8 true))).withFetchWord 8 0x06))).map
    (fun t => (t.bus.trace, t.host)) = some (frameEvents 0 [0x06] [0xFF], []) := by decide +kernel
/-- T-REFUSE: a second operation during a wait is refused and the wait goes on. -/
theorem test_refused_while_busy :
    (after (step { fed [] with h := { (fed []).h with busy := true }, todo := [.gate, .read8 0], host := [.command 0xC_00000000_00000000 none none false] })).map
      (fun t => (t.rspCode, t.bus.trace, t.todo, t.h.busy)) = some (.refused, [], [.gate, .read8 0], true) := by
  decide +kernel
/-- R220: block reset after 20 events of a `BEGIN` leaves a frame open, and another may come in the next step. -/
theorem test_reset_in_a_frame :
    (after (step { boot (.mock chip) with host := [.command 0 none none true], resets := [some 20] })).map
      (fun t => (t.bus.trace.length, t.rsps, t.h.busy, t.todo, t.bus.line.cs.dir)) =
        some (20, [], false, [], .unconfigured) := by decide +kernel
/-- R67, G3: block reset behind the first rising edge of the second ID byte, 40, leaves the clock high and the chip still
presenting its first bit, which the next byte exchange samples before the falling edge that brings the second. -/
theorem test_data_in_changes_at_the_falling_edge :
    (after (step { onMock [] with host := [.framer [0x9F, 0xFF, 0xFF, 0xFF]], resets := [some 68] })).bind (fun t =>
      (after (exec (.transferByte 0xFF) t)).map fun u => (t.bus.trace.getLast?, u.bus.sr)) =
        some (some (.drv .sck true), 0x40) := by decide +kernel
/-- R220: block reset inside the fourth data byte of an `RDBUF`: three bytes are in `rbuf` (entry 12). -/
theorem test_reset_in_a_read :
    (after (step { onMock typedFlash with
      host := [.command 0x5_00000004_000010FB none (some [7, 7, 7, 7, 7]) true], resets := [some 327] })).map
        (fun t => (t.rbuf, t.rsps)) = some ([2, 3, 4, 7, 7], []) := by decide +kernel
/-- R220: block reset before the response of `IDENT`, and behind it. -/
theorem test_reset_around_a_response : [some 0, some 1].map (fun r =>
    (after (step { fed [] with
      h := { (fed []).h with jedec := ⟨0xEF, 0x40, 0x18⟩ }
      host := [.command 0x10000000000000000 none none true], resets := [r, none, some 2] })).map
        fun t => (t.rsps, t.h.initialized, t.resets)) =
          [some ([], false, [none, some 2]), some ([⟨.done, 0x00EF4018⟩], false, [none, some 2])] := by decide +kernel
/-- R90, R36: an `RDBUF` comes with its own read buffer; the bytes above the length stay. -/
theorem test_read_buffer_presented :
    (after (step { fed [0xFF, 0, 0xFF, 0xFF, 0xFF, 0xFF, 0xFF, 0x12] with
      rbuf := [1], host := [.command 0x50000000100000000 none (some [7, 8]) true] })).map (fun t => (t.rbuf, t.rspVal)) =
        some ([0x12, 8], 1) := by decide +kernel
/-- R6: the counts agree with the sizes. -/
theorem test_geometry : Config.nSectors * Config.sectorSize = Config.capacity ∧
    Config.nBlock32 * Config.block32Size = Config.capacity ∧ Config.nBlock64 * Config.block64Size = Config.capacity := by
  decide
/-- T-CHUNK. -/
theorem test_chunks :
    chunks 0x1FF 512 = [(0x1FF, 1), (0x200, 256), (0x300, 255)] ∧
    chunks 0x180 1000 = [(0x180, 128), (0x200, 256), (0x300, 256), (0x400, 256), (0x500, 104)] ∧
    chunks 0xFFFFFF 2 = [(0xFFFFFF, 1), (0x1000000, 1)] ∧ chunks 0 0 = [] := by decide +kernel
theorem test_chunk_size : chunkSize 0x10FA 10 = 6 ∧ chunkSize 0x1100 4 = 4 ∧ chunkSize 0x200 1000 = 256 := by decide

/-! ### Witnesses: for each statement with hypotheses, concrete values that meet them all, one for each of its clauses -/

/-- An outcome that is a next state with a property. -/
theorem exists_next {o : Host.Outcome State Fault Refusal} {p : State → Bool} (h : (after o).any p = true) :
    ∃ t, o = .next t ∧ p t = true := by
  cases o with
  | next t => exact ⟨t, rfl, by simpa [after] using h⟩
  | fault f => cases f
  | refused r => simp [after] at h

/-- Lines between frames. -/
def idleLines : Lines := ⟨⟨.out, some true⟩, ⟨.out, some false⟩, ⟨.out, some false⟩, ⟨.inPullup, none⟩, ⟨.out, some true⟩,
  ⟨.out, some true⟩⟩

/-- The chip answers a poll with this status byte. -/
def polling (st : Byte) : State := fed [0xFF, st]

/-- Another half-period. -/
def slow (s : State) : State := { s with h := { s.h with clockHalfPeriod := 0xFFFFFFFF } }

/-- An operation in progress at these tasks. -/
def waiting (ts : List Task) (s : State) : State := { s with h := { s.h with busy := true }, todo := ts }

theorem witness_DecodeOfEncodeIsTheInstruction :
    Config.default.Distinct ∧ ∀ x ∈ [(AddrWidth.three, Instr.ersec 0xFFFFFFFF), (.three, .rdbuf 0 0xFFFFFFFF),
      (.three, .fastrd 0xFFFFFF 1), (.four, .fastrd 0xFFFFFFFF 0), (.three, .pp 0xFFFFFF [0xFF]), (.four, .pp 0x01000000 []),
      (.three, .se 0), (.four, .be64 0xFFFFFFFF), (.three, .rdid), (.three, .ce)],
      x.2.wf x.1 = true ∧ (encode Config.default x.1 x.2).isSome = true := by decide

theorem witness_StepRunsTheDecodedInstruction_command :
    ∀ s ∈ [{ fed [] with host := [.command 0 none none true] }],
      s.resetDue = none ∧ s.host = .command 0 none none true :: [] ∧ (true = false ∨ s.inProgress = false) := by decide
theorem witness_StepRunsTheDecodedInstruction_while_busy :
    ∀ s ∈ [{ waiting [.scan] (fed []) with host := [.command 0 none none false] }],
      s.resetDue = none ∧ s.host = .command 0 none none false :: [] ∧ (false = false ∨ s.inProgress = false) := by decide
theorem witness_StepRunsTheDecodedInstruction_frame :
    ∀ s ∈ [{ fed [] with host := [.framer [0x06]] }],
      s.resetDue = none ∧ s.host = .framer [0x06] :: [] ∧ decodeFrame s.cfg s.h.addressWidth [0x06] = some .wren := by decide
theorem witness_StepRunsTheDecodedInstruction_no_frame :
    ∀ s ∈ [{ fed [] with host := [.framer []] }],
      s.resetDue = none ∧ s.host = .framer [] :: [] ∧ decodeFrame s.cfg s.h.addressWidth [] = none := by decide
theorem witness_StepRunsTheDecodedInstruction_buffers :
    (fed []).h.busy = false ∧ (waiting [.scan] (fed [])).h.busy = true := ⟨rfl, rfl⟩
theorem witness_StepContinuesOrWaits :
    (waiting [.scan] (fed [])).Undisturbed ∧ (fed []).resetDue = none ∧ (fed []).host = [] ∧ (fed []).todo = [] :=
  ⟨⟨rfl, .inl rfl⟩, rfl, rfl, rfl⟩
theorem witness_StepContinuesOrWaits_blocked :
    State.Undisturbed { waiting [.scan] (fed []) with host := [.command 0 none none true], resets := [none, some 3] } :=
  ⟨rfl, .inr ⟨0, none, none, [], rfl, rfl⟩⟩

/-- `WREN` to the framer, and block resets to come. -/
def cutAt (r : List (Option Nat)) : State := { fed [0xFF] with host := [.framer [0x06]], resets := r }
theorem witness_BlockResetCutsARunShort_first :
    (cutAt [some 0, some 5]).resetDue = some 0 ∧
      ∃ t, stepCore (cutAt [some 0, some 5]).tick = .next t ∧ decide (0 ≤ newEvents (cutAt [some 0, some 5]) t) = true :=
  ⟨rfl, exists_next (by decide +kernel)⟩
theorem witness_BlockResetCutsARunShort_last :
    (cutAt [some 34]).resetDue = some 34 ∧
      ∃ t, stepCore (cutAt [some 34]).tick = .next t ∧ decide (34 ≤ newEvents (cutAt [some 34]) t) = true :=
  ⟨rfl, exists_next (by decide +kernel)⟩
theorem witness_BlockResetCutsARunShort_behind :
    (cutAt [some 35]).resetDue = some 35 ∧
      ∃ t, stepCore (cutAt [some 35]).tick = .next t ∧ decide (newEvents (cutAt [some 35]) t < 35) = true :=
  ⟨rfl, exists_next (by decide +kernel)⟩

theorem witness_ClockPulseIsHighThenLow :
    (fed []).h.clockHalfPeriod = 0 ∧ (slow (fed [])).h.clockHalfPeriod ≠ 0 := by decide
theorem witness_TransferByteReceivesWhatIsAnswered :
    (fed [0xFF]).bus.env = .draws (byteBits 0xFF ++ []) ∧ (fed [0x00, 0x12]).bus.env = .draws (byteBits 0 ++ wireBits [0x12]) := by
  decide
theorem witness_TransferBufferWorksInPlace :
    ∀ s ∈ [{ fed [] with rbuf := [7, 8] }], 0 < s.rbuf.length ∧ 0 < (1 : U32).toNat ∧ 1 < s.rbuf.length ∧
      1 < (2 : U32).toNat ∧ (2 : U32) = 1 + 1 ∧ (0xFFFFFFFF : U32) = 0xFFFFFFFE + 1 ∧ (2 : U32) ≠ 0 := by decide
theorem witness_FrameCost : ([] : List Byte).length = ([] : List Byte).length ∧ [(0xEF : Byte)].length = [(0x9F : Byte)].length := by
  decide

theorem witness_WaitUntilReadyPollsThenYields :
    (∀ s ∈ [polling 0xFC], s.polled.getLsbD 0 = false ∧ s.polled.getLsbD s.cfg.welBit.val = false) ∧
    (polling 0x01).polled.getLsbD 0 = true ∧ (polling 0x02).polled.getLsbD (polling 0x02).cfg.welBit.val = true := by
  decide +kernel
theorem witness_WaitingStepPollsOnceMore_notReady :
    (waiting [.gate, .eraseAll] (polling 0x02)).Undisturbed ∧
      (waiting [.gate, .eraseAll] (polling 0x02)).todo = .gate :: [.eraseAll] ∧
      (waiting [.gate, .eraseAll] (polling 0x02)).pollsReady = false :=
  ⟨⟨rfl, .inl rfl⟩, rfl, by decide +kernel⟩
theorem witness_WaitingStepPollsOnceMore_ready :
    (waiting [.gate, .eraseAll] (polling 0)).Undisturbed ∧
      (waiting [.gate, .eraseAll] (polling 0)).todo = .gate :: [.eraseAll] ∧
      (waiting [.gate, .eraseAll] (polling 0)).pollsReady = true ∧
      afterGate (polling 0).cfg .erchip = some .eraseAll ∧ (waiting [.gate, .eraseAll] (polling 0)).h.busy = true ∧
      (waiting [.gate, .eraseAll] (polling 0)).h.initialized = true :=
  ⟨⟨rfl, .inl rfl⟩, rfl, by decide +kernel, rfl, rfl, rfl⟩
theorem witness_WaitingStepPollsOnceMore_begin :
    (waiting [.gate, .finishBegin] (polling 0)).Undisturbed ∧
      (waiting [.gate, .finishBegin] (polling 0)).todo = .gate :: [.finishBegin] ∧
      (waiting [.gate, .finishBegin] (polling 0)).pollsReady = true :=
  ⟨⟨rfl, .inl rfl⟩, rfl, by decide +kernel⟩
theorem witness_AccessWaitsForAReadyChip :
    ∀ s ∈ [polling 0x01], ∀ i ∈ [Instr.rd8 0, .rd16 0, .rd32 0, .rdbuf 0 0, .erchip, .ersec 0, .erb32 0, .erb64 0],
      (afterGate s.cfg i).isSome = true ∧ s.h.busy = false ∧ s.h.initialized = true ∧ s.pollsReady = false ∧
      (1 : U32) ≠ 0 := by
  decide +kernel
/-- A later chunk is due. -/
def chunkDue (st : Byte) : State :=
  { waiting [.writeLoop 300] (polling st) with w := { (polling st).w with addr := 0x1100, pos := 256, rem := 44 } }
theorem witness_AccessWaitsForAReadyChip_chunk :
    (chunkDue 0x02).Undisturbed ∧ (chunkDue 0x02).todo = [.writeLoop 300] ∧ (chunkDue 0x02).w.rem ≠ 0 ∧
      (chunkDue 0x02).pollsReady = false := ⟨⟨rfl, .inl rfl⟩, rfl, by decide, by decide +kernel⟩
theorem witness_AccessWaitsForAReadyChip_scan :
    (waiting [.scan] (polling 0x01)).Undisturbed ∧ (waiting [.scan] (polling 0x01)).todo = [.scan] ∧
      (waiting [.scan] (polling 0x01)).pollsReady = false := ⟨⟨rfl, .inl rfl⟩, rfl, by decide +kernel⟩

theorem witness_RefusalChangesNothing_busy :
    isHostOp (.beginOp 0) = true ∧ (waiting [.scan] (fed [])).h.busy = true := by decide
theorem witness_RefusalChangesNothing_reserved :
    ∀ i ∈ [Instr.reservedC, .reservedD, .reservedE, .reservedF], isHostOp i = true ∧ isReserved i = true := by decide
theorem witness_RefusalChangesNothing_before_begin :
    isHostOp .ident = true ∧ State.reset.h.initialized = false ∧ ∀ hp, Instr.ident ≠ .beginOp hp :=
  ⟨rfl, rfl, by intro _ h; cases h⟩

/-- What a ready chip answers during `BEGIN`: WIP clear, SUS clear, WIP and WEL clear, every other bit set. -/
def readyAnswers : List Byte := [0xFF, 0xEF, 0x40, 0x18, 0xFF, 0xFE, 0xFF, 0x7F, 0xFF, 0xFF, 0xFF, 0xFC]
theorem witness_BeginBringsAReadyChipUp :
    ∀ s ∈ [boot (.draws (wireBits readyAnswers))], s.h.busy = false ∧
      s.bus.env = .draws (wireBits [0xFF, 0xEF, 0x40, 0x18, 0xFF, 0xFE, 0xFF, 0x7F, 0xFF, 0xFF, 0xFF, 0xFC] ++ []) ∧
      (0xFE : Byte).getLsbD 0 = false ∧ (0x7F : Byte).getLsbD 7 = false ∧ isReady s.cfg 0xFC = true := by decide
theorem witness_BeginPollsWithoutYield :
    ∀ s ∈ [boot (.draws (wireBits [0xFF, 0xEF, 0x40, 0x18, 0xFF, 0x01]))], s.h.busy = false ∧
      s.bus.env = .draws (wireBits [0xFF, 0xEF, 0x40, 0x18, 0xFF, 0x01] ++ []) ∧ (0x01 : Byte).getLsbD 0 = true := by
  decide
theorem witness_BeginPollsWithoutYield_suspended :
    ∀ s ∈ [boot (.draws (wireBits [0xFF, 0xEF, 0x40, 0x18, 0xFF, 0xFE, 0xFF, 0x80]))], s.h.busy = false ∧
      s.bus.env = .draws (wireBits [0xFF, 0xEF, 0x40, 0x18, 0xFF, 0xFE, 0xFF, 0x80] ++ []) ∧
      (0xFE : Byte).getLsbD 0 = false ∧ (0x80 : Byte).getLsbD 7 = true := by
  decide
theorem witness_BeginPollsWithoutYield_lastPoll :
    ∀ st ∈ [(0x01 : Byte), 0x02, 0xFF],
      ∀ s ∈ [boot (.draws (wireBits [0xFF, 0xEF, 0x40, 0x18, 0xFF, 0xFE, 0xFF, 0x7F, 0xFF, 0xFF, 0xFF, st]))],
        s.h.busy = false ∧
        s.bus.env = .draws (wireBits [0xFF, 0xEF, 0x40, 0x18, 0xFF, 0xFE, 0xFF, 0x7F, 0xFF, 0xFF, 0xFF, st] ++ []) ∧
        (0xFE : Byte).getLsbD 0 = false ∧ (0x7F : Byte).getLsbD 7 = false ∧
        (st.getLsbD 0 = true ∨ st.getLsbD s.cfg.welBit.val = true) := by decide
theorem witness_BeginPollsWithoutYield_chipReset :
    (waiting (beginTasks.drop 1) (polling 0x7F)).Undisturbed ∧
      (waiting (beginTasks.drop 1) (polling 0x7F)).todo = .pollSus :: beginTasks.drop 2 ∧
      beginTasks.drop 2 = .chipReset :: [.gate, .finishBegin] ∧
      (waiting (beginTasks.drop 1) (polling 0x7F)).polled2.getLsbD 7 = false :=
  ⟨⟨rfl, .inl rfl⟩, rfl, rfl, by decide +kernel⟩
theorem witness_BeginPollsWithoutYield_later :
    (waiting beginTasks (polling 0x01)).Undisturbed ∧
      (waiting beginTasks (polling 0x01)).todo = .pollWip :: beginTasks.drop 1 ∧
      (waiting beginTasks (polling 0x01)).polled.getLsbD 0 = true ∧
      (waiting beginTasks (polling 0xFE)).polled.getLsbD 0 = false :=
  ⟨⟨rfl, .inl rfl⟩, rfl, by decide +kernel, by decide +kernel⟩
theorem witness_BeginPollsWithoutYield_later_suspended :
    (waiting (beginTasks.drop 1) (polling 0x80)).Undisturbed ∧
      (waiting (beginTasks.drop 1) (polling 0x80)).todo = .pollSus :: beginTasks.drop 2 ∧
      (waiting (beginTasks.drop 1) (polling 0x80)).polled2.getLsbD 7 = true ∧
      (waiting (beginTasks.drop 1) (polling 0x7F)).polled2.getLsbD 7 = false :=
  ⟨⟨rfl, .inl rfl⟩, rfl, by decide +kernel, by decide +kernel⟩
/-- The common premise of the accepted operations. -/
theorem witness_ready : ∀ s ∈ [polling 0x00, polling 0xFC], s.h.busy = false ∧ s.h.initialized = true ∧ s.pollsReady = true := by
  decide +kernel
theorem witness_IdentReturnsTheStoredId : (fed []).h.busy = false ∧ (fed []).h.initialized = true := ⟨rfl, rfl⟩
theorem witness_TypedReadsAreLittleEndian :
    (polling 0).h.busy = false ∧ (polling 0).h.initialized = true ∧ (polling 0).pollsReady = true := witness_ready _ (by simp)
theorem witness_ReadBufferIsOneFrame :
    (polling 0).h.busy = false ∧ (polling 0).h.initialized = true ∧ (polling 0).pollsReady = true := witness_ready _ (by simp)
theorem witness_EraseIsPollEnableErase :
    (polling 0).h.busy = false ∧ (polling 0).h.initialized = true ∧ (polling 0).pollsReady = true := witness_ready _ (by simp)

/-- Zeros to answer with, and two bytes to write. -/
def writing (n : Nat) : State := { up (.draws (List.replicate n false)) with wbuf := [6, 7] }
theorem witness_WriteBufferSendsEveryChunk :
    ∀ x ∈ [((0x10FF : U32), (2 : U32), 128), (0xFFFFFF, 0, 0), (0xFFFFFFFF, 1, 64)], ∀ s ∈ [writing x.2.2],
      s.h.busy = false ∧ s.h.initialized = true ∧ x.2.1.toNat ≤ s.wbuf.length ∧
      s.bus.env = .draws (List.replicate (8 * segmentBytes
        (chunkSegments s.cfg s.h.addressWidth s.wbuf 0 (chunks x.1.toNat x.2.1.toNat))) false ++ []) := by decide +kernel
theorem witness_WriteBufferSendsEveryChunk_loop :
    (polling 0).h.busy = false ∧ (polling 0).h.initialized = true ∧ (polling 0).todo = [] ∧
      (chunkDue 0).todo = [.writeLoop 300] ∧ (chunkDue 0).w.rem ≠ 0 ∧ (chunkDue 0).pollsReady = true ∧
      (waiting [.writeLoop 300] (polling 0)).todo = [.writeLoop 300] ∧ (waiting [.writeLoop 300] (polling 0)).w.rem = 0 := by
  decide +kernel
theorem witness_WriteBufferWithinAPage :
    ((polling 0).h.busy = false ∧ (polling 0).h.initialized = true ∧ (polling 0).pollsReady = true) ∧
    (0x10FF : U32).toNat % 256 + (0 : U32).toNat ≤ 256 ∧ (0x10FF : U32).toNat % 256 + (1 : U32).toNat ≤ 256 ∧
    (0x1000 : U32).toNat % 256 + (256 : U32).toNat ≤ 256 ∧ (0xFFFFFFFF : U32).toNat % 256 + (1 : U32).toNat ≤ 256 ∧
    (1 : U32) ≠ 0 ∧ (256 : U32) ≠ 0 := ⟨witness_ready _ (by simp), by decide⟩
theorem witness_ChunkSizeFollowsTheLaw : (1 : U32) ≠ 0 ∧ (0xFFFFFFFF : U32) ≠ 0 := by decide

/-- A poll answered ready, then a read frame whose data are these. -/
def scanning (d : List Byte) : State := fed ([0xFF, 0, 0xFF, 0xFF, 0xFF, 0xFF, 0xFF] ++ d)
theorem witness_UsedReadsTheFirstWord_erased :
    ∀ s ∈ [scanning [0xFF, 0xFF, 0xFF, 0xFF]], s.h.busy = false ∧ s.h.initialized = true ∧ s.pollsReady = true ∧
      s.wordAt 0 = 0xFFFFFFFF := by decide +kernel
theorem witness_UsedReadsTheFirstWord_used :
    ∀ s ∈ [scanning [0xFF, 0xFF, 0xFF, 0xFE]], s.h.busy = false ∧ s.h.initialized = true ∧ s.pollsReady = true ∧
      s.wordAt 0 ≠ 0xFFFFFFFF := by decide +kernel
/-- The scan at an address. -/
def scanAt (a : U32) (d : List Byte) : State :=
  { waiting [.scan] (scanning d) with w := { (scanning d).w with addr := a } }
theorem witness_UsedScansOnByFour_erased :
    (scanAt 4 [0xFF, 0xFF, 0xFF, 0xFF]).Undisturbed ∧ ∀ s ∈ [scanAt 4 [0xFF, 0xFF, 0xFF, 0xFF]],
      s.todo = [.scan] ∧ s.pollsReady = true ∧ s.wordAt s.w.addr = 0xFFFFFFFF := ⟨⟨rfl, .inl rfl⟩, by decide +kernel⟩
theorem witness_UsedScansOnByFour_used :
    (scanAt 0xFFFFFFFC [0, 0, 0, 0]).Undisturbed ∧ ∀ s ∈ [scanAt 0xFFFFFFFC [0, 0, 0, 0]],
      s.todo = [.scan] ∧ s.pollsReady = true ∧ s.wordAt s.w.addr ≠ 0xFFFFFFFF := ⟨⟨rfl, .inl rfl⟩, by decide +kernel⟩

theorem witness_OnlyBeginWritesTheHandle : ∃ t, exec .ident (fed []) = .next t ∧ ∀ hp, Instr.ident ≠ .beginOp hp :=
  ⟨_, rfl, by simp⟩
theorem witness_BuffersAndLinesFrame : ∃ t, exec .wren (fed [0xFF]) = .next t ∧ fillsRbuf .wren = false ∧ configures .wren = false :=
  ⟨_, rfl, rfl, rfl⟩
theorem witness_WorkingRegistersFrame :
    ∃ t, exec .wren (fed [0xFF]) = .next t ∧ (∀ a n, Instr.wren ≠ .wrbuf a n) ∧ (∀ n, Instr.wren ≠ .transferBuffer n) ∧
      Instr.wren ≠ .used ∧ isHostOp .wren = false :=
  ⟨_, rfl, by simp, by simp, by simp, rfl⟩
theorem witness_OperationsActThroughEvents : ∃ t, exec (.rd32 0xFFFFFFFF) (polling 0) = .next t := ⟨_, rfl⟩
theorem witness_WorkingRegistersFrame_resumed :
    (waiting [.scan] (polling 0)).Coherent ∧ (waiting [.scan] (polling 0)).todo ≠ [] ∧
      (∀ len, Task.writeLoop len ∉ (waiting [.scan] (polling 0)).todo) ∧
      .scan ∉ (waiting [.gate, .eraseAll] (polling 0)).todo ∧
      (∀ len, Task.writeLoop len ∉ (waiting [.gate, .eraseAll] (polling 0)).todo) :=
  ⟨.inr ⟨rfl, .inr ⟨.inr (.inr rfl), rfl⟩⟩, by decide, by simp [waiting], by decide, by simp [waiting]⟩
theorem witness_OnlyBeginWritesTheHandle_resumed : Task.finishBegin ∉ (waiting [.scan] (polling 0)).todo := by decide
theorem witness_BuffersAndLinesFrame_resumed : ∀ a n, Task.readBuffer a n ∉ (waiting [.scan] (polling 0)).todo := by
  simp [waiting]
theorem witness_OperationsActThroughEvents_step : ∃ t, step (cutAt [some 5]) = .next t := ⟨_, rfl⟩
theorem witness_HalfPeriodOnlyAddsDelays :
    ∃ t u v, (polling 0).SameButDelays (slow (polling 0)) ∧ exec .used (polling 0) = .next t ∧
      (polling 0).resetDue = none ∧ step (polling 0) = .next u ∧ (∀ hp, Instr.used ≠ .beginOp hp) ∧
      exec (.beginOp 0) (polling 0) = .next v ∧ (polling 0).h.busy = false :=
  ⟨_, _, _, ⟨rfl, rfl⟩, rfl, rfl, rfl, by simp, rfl, rfl⟩

/-- An initialised block with idle lines, `ERSEC 1` presented, and an operation waiting to erase. -/
def between : State :=
  { polling 0 with bus := { (polling 0).bus with line := idleLines }, host := [.command 0x80000000000000001 none none true] }
theorem witness_StepKeepsIdleLines : ∃ t, between.IdleLines ∧ between.h.initialized = true ∧ step between = .next t :=
  ⟨_, by decide, rfl, rfl⟩
theorem witness_StepKeepsControlCoherent : ∃ t, between.Coherent ∧ step between = .next t := ⟨_, Or.inl ⟨rfl, rfl⟩, rfl⟩
theorem witness_StepKeepsControlCoherent_waiting :
    ∃ t, (waiting [.gate, .eraseUnit 0x20 0x1000] (polling 2)).Coherent ∧
      step (waiting [.gate, .eraseUnit 0x20 0x1000] (polling 2)) = .next t :=
  ⟨_, Or.inr ⟨rfl, Or.inr ⟨Or.inl ⟨_, rfl, by decide⟩, rfl⟩⟩, rfl⟩
theorem witness_StepKeepsControlCoherent_begin :
    ∃ t, (waiting beginTasks (boot .absent)).Coherent ∧ step (waiting beginTasks (boot .absent)) = .next t :=
  ⟨_, Or.inr ⟨rfl, Or.inl (by decide)⟩, rfl⟩
theorem typedFlash_wf : typedFlash.wf := by decide
theorem witness_StepKeepsFlashCanonical :
    ∃ t, (onMock typedFlash).FlashWf ∧ step (onMock typedFlash) = .next t :=
  ⟨_, fun c h => by obtain rfl : { chip with mem := typedFlash } = c := by simpa [onMock, up, boot] using h
                    exact typedFlash_wf, rfl⟩
theorem witness_ClockRisesOnlyUnderSelect : ∃ t u, step between = .next t ∧ step (cutAt [some 5]) = .next u := ⟨_, _, rfl, rfl⟩
theorem witness_StepEmitsGatedWireFrames :
    ∃ t, between.Coherent ∧ between.HostOnly ∧ between.resetDue = none ∧ between.cfg.Distinct ∧ step between = .next t :=
  ⟨_, Or.inl ⟨rfl, rfl⟩, fun r h => ⟨_, _, _, _, by simpa [between] using h⟩, rfl, by decide, rfl⟩
theorem witness_BeginLeavesTheLinesIdle : State.reset.h.busy = false := rfl
theorem witness_BeginHangsWithoutAChip :
    ∀ s ∈ [{ boot .absent with host := [.command (commandWord 0 0 0xFFFFFFFF) none none true] }],
      s.bus.env = .absent ∧ s.h.busy = false ∧ s.todo = [] ∧ s.resets = [] ∧
      s.host = [.command (commandWord 0 0 0xFFFFFFFF) none none true] := by decide

/-- The mock, attached and ready, whatever its array and its busy times. -/
theorem attached (c : Chip) (hc : c.cfg = Config.default) (hs : c.sel = false) (hk : c.clk = false) (hw : c.wip = false)
    (hl : c.wel = false) : c.Attached (up (.mock c)) :=
  ⟨rfl, hc, rfl, by show Config.default.Distinct; decide, hs, hk, hw, hl⟩
theorem witness_ReadBufferDeliversTheArray :
    { chip with mem := typedFlash }.Attached (onMock typedFlash) ∧ (onMock typedFlash).h.busy = false ∧
      (onMock typedFlash).h.initialized = true := ⟨attached _ rfl rfl rfl rfl rfl, rfl, rfl⟩
theorem witness_TypedReadsDeliverTheArray :
    { chip with mem := typedFlash }.Attached (onMock typedFlash) ∧ (onMock typedFlash).h.busy = false ∧
      (onMock typedFlash).h.initialized = true := ⟨attached _ rfl rfl rfl rfl rfl, rfl, rfl⟩
theorem witness_ReadsLeaveTheArray :
    ∀ c ∈ [{ chip with wip := true, cnt := 1 }, { chip with wel := true }], ∃ t, leavesFlash (.rd8 0) = true ∧
      (up (.mock c)).bus.env = .mock c ∧ c.cfg = (up (.mock c)).cfg ∧ (up (.mock c)).cfg.Distinct ∧ c.sel = false ∧
      c.clk = false ∧ (up (.mock c)).h.addressWidth = (up (.mock c)).cfg.addressWidth ∧
      exec (.rd8 0) (up (.mock c)) = .next t := by
  intro c hc
  have h : c.cfg = Config.default ∧ c.sel = false ∧ c.clk = false := by
    rcases List.mem_pair.mp hc with rfl | rfl <;> exact ⟨rfl, rfl, rfl⟩
  exact ⟨_, rfl, rfl, h.1, by show Config.default.Distinct; decide, h.2.1, h.2.2, rfl, rfl⟩
theorem witness_ProgramFrameAndsIntoThePage :
    ∀ w ∈ [true, false], ∀ d ∈ [[], List.replicate 256 (0xAA : Byte)], ∀ c ∈ [{ chip with wel := w }], ∀ s ∈ [up (.mock c)],
      s.bus.env = .mock c ∧ c.cfg = s.cfg ∧ s.cfg.Distinct ∧ c.sel = false ∧ c.clk = false ∧ c.wip = false ∧
      s.h.addressWidth = s.cfg.addressWidth ∧ d.length ≤ 256 ∧ s.h.addressWidth.fits 0xFFFFFF = true ∧ c.wel = w := by
  decide +kernel
theorem witness_EraseSetsTheUnitToOnes :
    { chip with mem := typedFlash }.Attached (onMock typedFlash) ∧ (onMock typedFlash).h.busy = false ∧
      (onMock typedFlash).h.initialized = true := ⟨attached _ rfl rfl rfl rfl rfl, rfl, rfl⟩
theorem witness_EraseFramesNeedTheLatch :
    ∀ w ∈ [true, false], ∀ c ∈ [{ chip with wel := w }], ∀ s ∈ [up (.mock c)],
      s.bus.env = .mock c ∧ c.cfg = s.cfg ∧ s.cfg.Distinct ∧ c.sel = false ∧ c.clk = false ∧ c.wip = false ∧
      s.h.addressWidth = s.cfg.addressWidth ∧ c.wel = w := by decide +kernel
/-- The three operations of the round trip presented to a mock with these busy times. -/
def roundTrip (k a : U32) (d : List Byte) (nProg nErase : Nat) : State :=
  { up (.mock { chip with nProg := nProg, nErase := nErase }) with
    host := [.command (commandWord 8 0 k) none none true,
      .command (commandWord 6 (BitVec.ofNat 32 d.length) a) (some d) none true,
      .command (commandWord 5 (BitVec.ofNat 32 d.length) a) none none true] }
theorem witness_EraseWriteReadRoundTrip :
    ∀ x ∈ [((0 : U32), (0 : U32), ([] : List Byte), 0, 0), (4095, 0xFFFFFF, [0x5A], 0, 0), (1, 0x1000, [1, 2], 3, 5)],
      { chip with nProg := x.2.2.2.1, nErase := x.2.2.2.2 }.Attached (roundTrip x.1 x.2.1 x.2.2.1 x.2.2.2.1 x.2.2.2.2) ∧
      (roundTrip x.1 x.2.1 x.2.2.1 x.2.2.2.1 x.2.2.2.2).h.busy = false ∧
      (roundTrip x.1 x.2.1 x.2.2.1 x.2.2.2.1 x.2.2.2.2).h.initialized = true ∧
      (roundTrip x.1 x.2.1 x.2.2.1 x.2.2.2.1 x.2.2.2.2).todo = [] ∧
      (roundTrip x.1 x.2.1 x.2.2.1 x.2.2.2.1 x.2.2.2.2).resets = [] ∧
      x.1.toNat < Config.nSectors ∧ x.1.toNat * Config.sectorSize ≤ x.2.1.toNat ∧
      x.2.1.toNat + x.2.2.1.length ≤ (x.1.toNat + 1) * Config.sectorSize := by
  intro x hx
  have h : x.1.toNat < Config.nSectors ∧ x.1.toNat * Config.sectorSize ≤ x.2.1.toNat ∧
      x.2.1.toNat + x.2.2.1.length ≤ (x.1.toNat + 1) * Config.sectorSize := by revert x; decide
  exact ⟨⟨rfl, rfl, rfl, by show Config.default.Distinct; decide, rfl, rfl, rfl, rfl⟩, rfl, rfl, rfl, rfl, h⟩
/-- `USED` presented to a ready mock with this array. -/
def askUsed (m : Memory) : State := { onMock m with host := [.command (commandWord 0xB 0 0) none none true] }
theorem witness_UsedFindsTheFirstErasedWord :
    ∀ x ∈ [(0, ([] : Memory)), (1, [(3, 0)])],
      { chip with mem := x.2 }.Attached (askUsed x.2) ∧ (askUsed x.2).h.busy = false ∧ (askUsed x.2).h.initialized = true ∧
      (askUsed x.2).todo = [] ∧ (askUsed x.2).resets = [] ∧
      (askUsed x.2).host = [.command (commandWord 0xB 0 0) none none true] ∧ 4 * x.1 + 4 ≤ Config.capacity ∧
      (∀ j < 4, Memory.read x.2 (4 * x.1 + j) = 0xFF) ∧ (∀ m < x.1, ∃ j < 4, Memory.read x.2 (4 * m + j) ≠ 0xFF) := by
  intro x hx
  refine ⟨⟨rfl, rfl, rfl, by show Config.default.Distinct; decide, rfl, rfl, rfl, rfl⟩, rfl, rfl, rfl, rfl, rfl, ?_⟩
  revert x
  decide

end Sys2Proof.Tests
end

section
/-! SUPPORT. The bit-transport statements of 40_bit_transport.md: the select line (R120, R121) and the byte exchange (R124). -/

namespace Sys2Proof.Machine

/-! ### The select line (R120, R121) -/

/-- Driving select is one event; it sets the level of select and leaves the shift register and the cell index. -/
theorem Bus.drive_select (v : Bool) (b : Bus) :
    b.Emitted (b.emit (.drv .cs v)) [.drv .cs v] ∧ (b.emit (.drv .cs v)).line.cs.level = some v ∧
      (b.emit (.drv .cs v)).sr = b.sr ∧ (b.emit (.drv .cs v)).i = b.i :=
  ⟨b.emitted_drv .cs v, rfl, rfl, rfl⟩

/-- Settles O9: each of the two operations is the one event that drives select. -/
theorem selectDrivesTheSelectLine : Obligations.SelectDrivesTheSelectLine := fun s =>
  ⟨⟨s.bus.selectAssert, exec_selectAssert s, s.bus.drive_select false⟩,
    ⟨s.bus.selectDeassert, exec_selectDeassert s, s.bus.drive_select true⟩⟩

/-! ### The byte exchange (R124) -/

/-- Wire order counts the bits of a byte down from bit 7 (R53). -/
theorem getMsbD_eq_getLsbD_seven_sub (x : Byte) {k : Nat} (hk : k < 8) : x.getMsbD k = x.getLsbD (7 - k) := by
  simp [BitVec.getMsbD, hk]

/-- The events of a byte exchange with the bits named by their position in the byte, bit 7 first (R124). -/
theorem byteEvents_eq_flatMap_getLsbD (hp : U32) (tx rx : Byte) :
    byteEvents hp tx rx = (List.range 8).flatMap fun k =>
      [Event.drv .mosi (tx.getLsbD (7 - k)), .smp .miso (rx.getLsbD (7 - k))] ++ pulseEvents hp := by
  refine List.flatMap_congr fun k hk => ?_
  have hk : k < 8 := List.mem_range.1 hk
  rw [getMsbD_eq_getLsbD_seven_sub tx hk, getMsbD_eq_getLsbD_seven_sub rx hk]
  rfl

/-- After a byte exchange data-out holds the last bit sent, the clock is low and no other line has changed. -/
theorem Bus.transferByte_line (hp : U32) (out : Byte) (b : Bus) :
    (b.transferByte hp out).line =
      { b.line with
        mosi := { b.line.mosi with level := some (out.getLsbD 0) }
        sck := { b.line.sck with level := some false } } := by
  rw [(b.transferByte_spec hp out).line, Lines.after_byte]

/-- Settles O11: the events are `Bus.transferByte_spec` with the bits counted down from bit 7, and the lines after
them are `Bus.transferByte_line`. -/
theorem transferByteShiftsEightBitsEachWay : Obligations.TransferByteShiftsEightBitsEachWay := by
  intro out s
  have events := s.bus.transferByte_spec s.hp out
  rw [byteEvents_eq_flatMap_getLsbD] at events
  refine ⟨s.bus.transferByte s.hp out, exec_transferByte out s, events, ?_⟩
  rw [Bus.transferByte_line]
  exact ⟨rfl, rfl, rfl⟩

end Sys2Proof.Machine
end

section
/-! SUPPORT. The framer statements of 41_command_framer.md: the opcode-only frames (R140), readCommand (R142), the address frames (R144) and the address phase (R146). Each is the framer's law of the operation, at the state that exec answers. -/

namespace Sys2Proof.Machine

/-! ### The frames without a response (R140, R144) -/

/-- Settles O16: each of the six operations is `runCommand` with its opcode, which is one frame (`runCommand_spec`). -/
theorem opcodeOnlyFrames : Obligations.OpcodeOnlyFrames := by
  intro op s x hx
  have runs : exec x.1 s = .next (runCommand x.2 s) := by
    simp only [List.mem_cons, List.not_mem_nil, or_false] at hx
    obtain rfl | rfl | rfl | rfl | rfl | rfl := hx <;> rfl
  obtain ⟨r, framed⟩ := runCommand_spec x.2 s
  exact ⟨r, (runCommand x.2 s).bus, runs, framed⟩

/-- Settles O19: each of the four operations is `eraseCommand` with its opcode, which is one frame
(`eraseCommand_spec`); the bytes of `addressFrame` after the opcode are R100's formula. -/
theorem addressFrames : Obligations.AddressFrames := by
  intro op a s x hx
  have runs : exec x.1 s = .next (eraseCommand x.2 a s) := by
    simp only [List.mem_cons, List.not_mem_nil, or_false] at hx
    obtain rfl | rfl | rfl | rfl := hx <;> rfl
  obtain ⟨rx, framed⟩ := eraseCommand_spec x.2 a s
  exact ⟨rx, (eraseCommand x.2 a s).bus, runs, framed⟩

/-! ### The response of a read command (R142) -/

/-- Settles O17: `readCommand_spec` splits the bytes received into the one for the opcode and the response. -/
theorem readCommandCapturesTheResponse : Obligations.ReadCommandCapturesTheResponse := by
  intro op n s
  obtain ⟨r, length, framed⟩ := readCommand_spec op n.toNat s
  exact ⟨r, (readCommand op n.toNat s).resp, (readCommand op n.toNat s).bus, exec_readCommand op n s, length, framed⟩

/-! ### The address phase (R146) -/

/-- Settles O20: the address bytes are one run of exchanges (`State.exchange_spec`), with no select event around it. -/
theorem addressPhaseSendsTheAddressBytes : Obligations.AddressPhaseSendsTheAddressBytes := by
  intro a s
  obtain ⟨length, emitted⟩ := s.exchange_spec (addressBytes s.h.addressWidth a)
  rw [addressBytes_length] at length
  exact ⟨(s.exchange (addressBytes s.h.addressWidth a)).1, (s.exchange (addressBytes s.h.addressWidth a)).2.bus,
    exec_addressPhase a s, length, emitted⟩

end Sys2Proof.Machine
end

section
/-! SUPPORT. The exception statement of 60_exceptions.md: the set of synchronous exceptions is empty (R200). -/

namespace Sys2Proof.Machine

/-- Settles O6, row by row of the opcode table (R104 to R107): the arm of each answers a next state without a test of
the state. The operations that R202 refuses answer one too: `acceptOp` picks the state, not the outcome. -/
theorem noOperationFaults : Obligations.NoOperationFaults := by
  intro i s
  cases i <;> exact ⟨_, rfl⟩

end Sys2Proof.Machine
end

section
/-! SUPPORT. The encoding statements of 30_encoding.md: the address bytes (R100), the round trip of decoder and encoder (R91, R93 to R98, R104, R105), and the words written out from the spec's tables. -/

namespace Sys2Proof

open Sys2Proof.Machine

/-! ### Address bytes (R100) -/

/-- The number that four bytes stand for when the first one is the most significant (R54). -/
theorem bigEndian_toNat (b0 b1 b2 b3 : Byte) :
    ((b0.setWidth 32 <<< 24) ||| (b1.setWidth 32 <<< 16) ||| (b2.setWidth 32 <<< 8) ||| b3.setWidth 32 : U32).toNat =
      b0.toNat * 16777216 + b1.toNat * 65536 + b2.toNat * 256 + b3.toNat := by
  have reversed : ∀ x y z w : U32, x ||| y ||| z ||| w = w ||| z ||| y ||| x := by intro x y z w; ac_rfl
  have e := loadWord_toNat b3 b2 b1 b0
  simp only [loadWord, List.getD_cons_zero, List.getD_cons_succ] at e
  rw [reversed, e]
  omega

/-- The bytes of an address as numbers. -/
theorem extractByte_toNat (a : U32) (k : Nat) : (a.extractLsb' k 8).toNat = a.toNat / 2 ^ k % 256 := by
  rw [BitVec.extractLsb'_toNat, Nat.shiftRight_eq_div_pow]

/-- R100: the address bytes read back as the low `8 * aw` bits of the address. -/
theorem takeAddress_addressBytes (aw : AddrWidth) (a : U32) (rest : List Byte) :
    takeAddress aw (addressBytes aw a ++ rest) = some (BitVec.ofNat 32 (a.toNat % 2 ^ (8 * aw.bytes)), rest) := by
  have ha := a.isLt
  cases aw with
  | three =>
    have e := Jedec.compose_toNat ⟨a.extractLsb' 16 8, a.extractLsb' 8 8, a.extractLsb' 0 8⟩
    simp only [Jedec.compose, extractByte_toNat] at e
    rw [addressBytes_three]
    refine congrArg (fun x => some (x, rest)) (BitVec.eq_of_toNat_eq ?_)
    rw [e, BitVec.toNat_ofNat, AddrWidth.bytes]
    omega
  | four =>
    have e := bigEndian_toNat (a.extractLsb' 24 8) (a.extractLsb' 16 8) (a.extractLsb' 8 8) (a.extractLsb' 0 8)
    simp only [extractByte_toNat] at e
    rw [addressBytes_four]
    refine congrArg (fun x => some (x, rest)) (BitVec.eq_of_toNat_eq ?_)
    rw [e, BitVec.toNat_ofNat, AddrWidth.bytes]
    omega

/-- R100, R239: the address bytes depend on the low `8 * aw` bits alone. -/
theorem addressBytes_congr {aw : AddrWidth} {a b : U32}
    (h : a.toNat % 2 ^ (8 * aw.bytes) = b.toNat % 2 ^ (8 * aw.bytes)) : addressBytes aw a = addressBytes aw b := by
  have key : ∀ k, k + 8 ≤ 8 * aw.bytes → a.extractLsb' k 8 = b.extractLsb' k 8 := by
    intro k hk
    have low : ∀ x : Nat, x / 2 ^ k % 2 ^ 8 = x % 2 ^ (8 * aw.bytes) / 2 ^ k % 2 ^ 8 := by
      intro x
      rw [← Nat.mod_mul_right_div_self, ← Nat.mod_mul_right_div_self, ← Nat.pow_add,
        Nat.mod_mod_of_dvd _ (Nat.pow_dvd_pow 2 hk)]
    apply BitVec.eq_of_toNat_eq
    rw [extractByte_toNat, extractByte_toNat]
    exact (low _).trans ((congrArg (· / 2 ^ k % 2 ^ 8) h).trans (low _).symm)
  cases aw with
  | three => rw [addressBytes_three, addressBytes_three, key 16 (by decide), key 8 (by decide), key 0 (by decide)]
  | four =>
    rw [addressBytes_four, addressBytes_four, key 24 (by decide), key 16 (by decide), key 8 (by decide),
      key 0 (by decide)]

/-- Settles O3: the bytes read back as the low bits (`takeAddress_addressBytes`), so equal bytes have equal low bits;
the other direction is `addressBytes_congr`. -/
theorem addressBytesCarryTheLowBits : Obligations.AddressBytesCarryTheLowBits := by
  intro aw a rest
  refine ⟨takeAddress_addressBytes aw a rest, fun b => ⟨fun h => ?_, addressBytes_congr⟩⟩
  have e := takeAddress_addressBytes aw a []
  rw [h, takeAddress_addressBytes aw b []] at e
  have hp : 2 ^ (8 * aw.bytes) ≤ 2 ^ 32 := Nat.pow_le_pow_right (by decide) (by cases aw <;> decide)
  have lt : ∀ x : Nat, x % 2 ^ (8 * aw.bytes) < 2 ^ 32 := fun x =>
    lt_of_lt_of_le (Nat.mod_lt _ (by positivity)) hp
  have := congrArg BitVec.toNat (Prod.ext_iff.1 (Option.some.inj e)).1
  simpa only [BitVec.toNat_ofNat, Nat.mod_eq_of_lt (lt _)] using this.symm

/-- An address that fits into the address bytes reads back as itself. -/
theorem takeAddress_fits {aw : AddrWidth} {a : U32} (h : aw.fits a = true) (rest : List Byte) :
    takeAddress aw (addressBytes aw a ++ rest) = some (a, rest) := by
  have h : a.toNat < 2 ^ (8 * aw.bytes) := of_decide_eq_true h
  rw [takeAddress_addressBytes, Nat.mod_eq_of_lt h, BitVec.ofNat_toNat, BitVec.setWidth_eq]

/-! ### The formats read their own bytes back (R94 to R98) -/

theorem addressed_addressBytes {aw : AddrWidth} {a : U32} (h : aw.fits a = true) (mk : U32 → Instr) :
    addressed aw mk (addressBytes aw a) = some (mk a) := by
  have := takeAddress_fits h []
  rw [List.append_nil] at this
  rw [addressed, this]

theorem fastRead_readBytes {aw : AddrWidth} {a : U32} (h : aw.fits a = true) (n : U32) (d f : Byte) :
    fastRead aw (addressBytes aw a ++ d :: List.replicate n.toNat f) = some (.fastrd a n) := by
  simp only [fastRead, takeAddress_fits h, List.length_replicate, n.isLt, if_true, BitVec.ofNat_toNat, BitVec.setWidth_eq]

theorem pageProgram_payload {aw : AddrWidth} {a : U32} (h : aw.fits a = true) {payload : List Byte}
    (hp : payload.length < 2 ^ 32) : pageProgram aw (addressBytes aw a ++ payload) = some (.pp a payload) := by
  simp only [pageProgram, takeAddress_fits h, hp, if_true]

/-! ### The command word (R91) -/

theorem commandWord_toNat (op : BitVec 4) (len arg : U32) :
    (commandWord op len arg).toNat = arg.toNat + len.toNat * 2 ^ 32 + op.toNat * 2 ^ 64 := by
  have ho := op.isLt; have hl := len.isLt; have ha := arg.isLt
  have e1 : (op.setWidth 68 <<< 64 : CmdWord).toNat = op.toNat <<< 64 := by
    rw [BitVec.toNat_shiftLeft, BitVec.toNat_setWidth, Nat.mod_eq_of_lt (by omega : op.toNat < 2 ^ 68),
      Nat.shiftLeft_eq, Nat.mod_eq_of_lt (by omega)]
  have e2 : (len.setWidth 68 <<< 32 : CmdWord).toNat = len.toNat <<< 32 := by
    rw [BitVec.toNat_shiftLeft, BitVec.toNat_setWidth, Nat.mod_eq_of_lt (by omega : len.toNat < 2 ^ 68),
      Nat.shiftLeft_eq, Nat.mod_eq_of_lt (by omega)]
  have e3 : (arg.setWidth 68 : CmdWord).toNat = arg.toNat := by
    rw [BitVec.toNat_setWidth, Nat.mod_eq_of_lt (by omega : arg.toNat < 2 ^ 68)]
  rw [commandWord, BitVec.or_assoc, BitVec.or_comm, BitVec.or_comm (len.setWidth 68 <<< 32)]
  rw [BitVec.toNat_or, BitVec.toNat_or, e1, e2, e3, or_shiftLeft_eq_add _ _ 32 (by omega),
    or_shiftLeft_eq_add _ _ 64 (by omega)]

@[simp] theorem cmdOp_commandWord (op : BitVec 4) (len arg : U32) : cmdOp (commandWord op len arg) = op :=
  Laws.EncodingClass.cmdOp_commandWord op len arg

@[simp] theorem cmdArg_commandWord (op : BitVec 4) (len arg : U32) : cmdArg (commandWord op len arg) = arg := by
  have ha := arg.isLt
  apply BitVec.eq_of_toNat_eq
  rw [cmdArg, BitVec.extractLsb'_toNat, commandWord_toNat, Nat.shiftRight_eq_div_pow]
  omega

@[simp] theorem cmdLen_commandWord (op : BitVec 4) (len arg : U32) : cmdLen (commandWord op len arg) = len := by
  have ha := arg.isLt; have hl := len.isLt
  apply BitVec.eq_of_toNat_eq
  rw [cmdLen, BitVec.extractLsb'_toNat, commandWord_toNat, Nat.shiftRight_eq_div_pow]
  omega

/-- The packet of a host command decodes to what its code and its two operands say. -/
theorem decode_encodeCommand {c : Cfg} {aw : AddrWidth} {op : BitVec 4} {len arg : U32} {p : Packet} {i : Instr}
    (h : encodeCommand op arg len = some p) (hi : decodeCommand (commandWord op len arg) = i) :
    decode c aw p = some i := by
  cases h
  exact congrArg some hi

/-- The twelve opcode bytes differ pairwise, said both ways round, as a test of one against another may read. -/
theorem Cfg.Distinct.ne {c : Cfg} (h : c.Distinct) : c.opcodes.Pairwise fun x y => x ≠ y ∧ y ≠ x :=
  List.Pairwise.imp (fun h => ⟨h, h.symm⟩) h

/-- Settles O2, instruction by instruction: a host command is its code and its two operands (`decode_encodeCommand`);
a wire frame is selected by its opcode, which no earlier row has (`Cfg.Distinct.ne`), and its format reads its bytes
back. -/
theorem decodeOfEncodeIsTheInstruction : Obligations.DecodeOfEncodeIsTheInstruction := by
  intro c aw i p distinct wf he
  have command : ∀ op len arg, encodeCommand op arg len = some p → decodeCommand (commandWord op len arg) = i →
      decode c aw p = some i := fun _ _ _ => decode_encodeCommand
  have ne := distinct.ne
  simp [Cfg.opcodes] at ne
  cases i
  case rdid | rdsr1 | rdsr2 | rsten | rst | wren | ce =>
    cases he
    simp [decode, decodeFrame, ne, bare]
  case fastrd a n =>
    cases he
    simp [decode, decodeFrame, ne, fastRead_readBytes wf]
  case pp a payload =>
    cases he
    have ⟨fits, short⟩ := Bool.and_eq_true_iff.1 wf
    simp [decode, decodeFrame, ne, pageProgram_payload fits (of_decide_eq_true short)]
  case se a | be32 a | be64 a =>
    cases he
    simp [decode, decodeFrame, ne, addressed_addressBytes wf]
  case beginOp | ident | rd8 | rd16 | rd32 | rdbuf | wrbuf | erchip | ersec | erb32 | erb64 | used | reservedC
      | reservedD | reservedE | reservedF =>
    exact command _ _ _ he (by simp [decodeCommand])
  all_goals cases he

/-- Settles O1: the decoders evaluated on the words and bytes the spec's tables write out. -/
theorem specWordsDecode : Obligations.SpecWordsDecode := by
  unfold Obligations.SpecWordsDecode
  decide

end Sys2Proof
end

section
/-! SUPPORT. The remaining bit-transport statements of 40_bit_transport.md: the clock pulse (R122), the byte exchange against scripted answers (R124, R10), the buffer exchange (R125), the line configuration (R163) and the cost of a frame (R99). -/

namespace Sys2Proof.Machine

/-! ### The clock pulse (R122) -/

theorem Bus.clockPulse_i (hp : U32) (b : Bus) : (b.clockPulse hp).i = b.i := by
  unfold Bus.clockPulse Bus.halfCycle
  split <;> rfl

/-- Settles O10: the pulse is `pulseEvents`, whose delays are there exactly when the half-period is not 0. -/
theorem clockPulseIsHighThenLow : Obligations.ClockPulseIsHighThenLow := by
  intro s
  have pulse := s.bus.emitted_clockPulse s.hp
  refine ⟨s.bus.clockPulse s.hp, exec_clockPulse s, Bus.clockPulse_sr _ _, Bus.clockPulse_i _ _, ?_, fun h => ?_,
    fun h => ?_⟩
  · rw [pulse.line]
    simp [pulseEvents, Lines.after_delay, Lines.after, Lines.set]
  · rwa [pulseEvents, show delayEvents s.hp = [] from if_pos h] at pulse
  · rwa [pulseEvents, show delayEvents s.hp = [.dly s.hp] from if_neg h] at pulse

/-! ### Answers that do not depend on the events (R10, R69, R124) -/

/-- The environment answers the coming samples with `vs`, whatever the block drives, and is `e'` after them: a script
does while it lasts, and with no chip every answer is 1. -/
inductive Env.Answers : Env → List Bool → Env → Prop where
  | ended (rest : List Bool) : Env.Answers (.draws rest) [] (.draws rest)
  | none : Env.Answers .absent [] .absent
  | drawn (v : Bool) {script vs : List Bool} {e' : Env} (h : Env.Answers (.draws script) vs e') :
      Env.Answers (.draws (v :: script)) (v :: vs) e'
  | pulledUp {vs : List Bool} {e' : Env} (h : Env.Answers .absent vs e') : Env.Answers .absent (true :: vs) e'

namespace Env.Answers

theorem draws (vs rest : List Bool) : Env.Answers (.draws (vs ++ rest)) vs (.draws rest) := by
  induction vs with
  | nil => exact .ended rest
  | cons v vs ih => exact .drawn v ih

theorem absent (n : Nat) : Env.Answers .absent (List.replicate n true) .absent := by
  induction n with
  | zero => exact .none
  | succ n ih => exact .pulledUp ih

/-- Such an environment does not follow the events. -/
theorem observe {e e' : Env} {vs : List Bool} (h : e.Answers vs e') (ev : Event) : e.observe ev = e := by
  cases h <;> rfl

theorem cons {e e' : Env} {v : Bool} {vs : List Bool} (h : e.Answers (v :: vs) e') (fresh : Nat) :
    e.answer fresh = v ∧ e.advance.Answers vs e' := by
  cases h with
  | drawn _ h => exact ⟨rfl, h⟩
  | pulledUp h => exact ⟨rfl, h⟩

end Env.Answers

/-- An event leaves such an environment as it is. -/
theorem Bus.emit_answers {b : Bus} {vs : List Bool} {e' : Env} (h : b.env.Answers vs e') (ev : Event) :
    (b.emit ev).env.Answers vs e' := by
  rw [Bus.emit, h.observe]
  exact h

theorem Bus.clockPulse_answers {hp : U32} {b : Bus} {vs : List Bool} {e' : Env} (h : b.env.Answers vs e') :
    (b.clockPulse hp).env.Answers vs e' := by
  have half : ∀ b : Bus, b.env.Answers vs e' → (b.halfCycle hp).env.Answers vs e' := by
    intro b hb
    unfold Bus.halfCycle
    split
    · exact hb
    · exact Bus.emit_answers hb _
  exact half _ (Bus.emit_answers (half _ (Bus.emit_answers h _)) _)

/-- A bit cell takes the next answer. -/
theorem Bus.bitCell_answers {hp : U32} {i : BitVec 3} {b : Bus} {v : Bool} {vs : List Bool} {e' : Env}
    (h : b.env.Answers (v :: vs) e') :
    (b.bitCell hp i).env.Answers vs e' ∧ (b.bitCell hp i).sr = shiftedIn b.sr v := by
  let b2 := ({ b with i := i }.emit (.drv .mosi b.sr.msb)).setSr (b.sr <<< 1)
  have h2 : b2.env.Answers (v :: vs) e' := Bus.emit_answers (b := { b with i := i }) h _
  have sampled : b2.sample.env.Answers vs e' := ((Bus.emit_answers h2 (.smp .miso b2.level)).cons 0).2
  have level : b2.level = v := (h2.cons _).1
  refine ⟨Bus.clockPulse_answers sampled, (Bus.clockPulse_sr hp _).trans ?_⟩
  show (b.sr <<< 1) ||| (if b2.level then 1 else 0) = shiftedIn b.sr v
  rw [level, shiftedIn]

theorem Bus.bitCells_answers {hp : U32} (is : List (BitVec 3)) {b : Bus} {us vs : List Bool} {e' : Env}
    (hl : us.length = is.length) (h : b.env.Answers (us ++ vs) e') :
    (is.foldl (fun b i => b.bitCell hp i) b).env.Answers vs e' ∧
      (is.foldl (fun b i => b.bitCell hp i) b).sr = us.foldl shiftedIn b.sr := by
  induction is generalizing b us with
  | nil =>
    obtain rfl := List.length_eq_zero_iff.1 hl
    exact ⟨h, rfl⟩
  | cons i is ih =>
    obtain ⟨u, us, rfl⟩ := List.exists_cons_of_length_eq_add_one hl
    obtain ⟨env, sr⟩ := Bus.bitCell_answers (hp := hp) (i := i) h
    obtain ⟨env', sr'⟩ := ih (by simpa using hl) env
    exact ⟨env', sr'.trans (by rw [sr]; rfl)⟩

/-- R124 against answers that are the bits of a byte: that byte is received, whatever is sent. -/
theorem Bus.transferByte_answers {hp : U32} {out r : Byte} {b : Bus} {vs : List Bool} {e' : Env}
    (h : b.env.Answers (byteBits r ++ vs) e') :
    (b.transferByte hp out).env.Answers vs e' ∧ (b.transferByte hp out).sr = r := by
  obtain ⟨env, sr⟩ := Bus.bitCells_answers (hp := hp) cellIndices (b := b.setSr out) (us := byteBits r) rfl h
  exact ⟨env, sr.trans (shiftedIn_byte out r)⟩

/-- With no answer left to give, the environment is the one that stands behind the answers. -/
theorem Env.Answers.eq {e e' : Env} (h : e.Answers [] e') : e = e' := by
  cases h <;> rfl

theorem samples_byteEvents (hp : U32) (tx rx : Byte) : samples (byteEvents hp tx rx) = 8 := by
  have delay : samples (delayEvents hp) = 0 := by unfold delayEvents; split <;> rfl
  simp [byteEvents, cellEvents, pulseEvents, samples, delay, List.range, List.range.loop]

/-- Settles O12: a script answers in order (`Env.Answers.draws`), so the exchange receives its first byte
(`Bus.transferByte_answers`); it takes eight samples. -/
theorem transferByteReceivesWhatIsAnswered : Obligations.TransferByteReceivesWhatIsAnswered := by
  intro out r rest s h
  have answers : s.bus.env.Answers (byteBits r ++ []) (.draws rest) := by
    rw [h, List.append_nil]
    exact .draws _ rest
  obtain ⟨env, sr⟩ := Bus.transferByte_answers (hp := s.hp) (out := out) answers
  refine ⟨s.bus.transferByte s.hp out, exec_transferByte out s, sr, env.eq, ?_⟩
  rw [(s.bus.transferByte_spec s.hp out).fresh, samples_byteEvents]

/-! ### The buffer exchange (R125) -/

/-- Settles O13: one run of exchanges of the bytes of `rbuf` (`State.exchange_spec`), stored where they came from. -/
theorem transferBufferWorksInPlace : Obligations.TransferBufferWorksInPlace := by
  intro count s
  let tx := hostBytes s.rbuf s.bus.fresh 0 count.toNat
  obtain ⟨length, emitted⟩ := s.exchange_spec tx
  have length : (s.exchange tx).1.length = count.toNat := length.trans (hostBytes_length _ _ _ _)
  refine ⟨tx, (s.exchange tx).1, (s.exchange tx).2.bus, if count = 0 then s.w.pos else count - 1, ?_,
    fun h => if_pos h, ?_, hostBytes_length _ _ _ _, fun k hk hn => ?_, length, emitted⟩
  · rw [exec_transferBuffer, ← length]
    rfl
  · rintro k rfl hk
    rw [if_neg hk, BitVec.add_sub_cancel]
  · simpa using hostBytes_getElem? s.rbuf s.bus.fresh 0 count.toNat k hn (by omega)

/-! ### The line configuration (R163) -/

/-- Settles O14: the eleven events of `configureLines_spec` make any lines idle (`Lines.idle_after_config`). -/
theorem configureLinesSetsTheIdleLevels : Obligations.ConfigureLinesSetsTheIdleLevels := by
  intro s
  have config := configureLines_spec s
  have idle : (configureLines s).bus.line.Idle := config.line ▸ Lines.idle_after_config s.bus.line
  exact ⟨_, configEvents, exec_configureLines s, config, rfl, idle⟩

/-! ### The cost of a frame (R99) -/

theorem delayEvents_length (hp : U32) : (delayEvents hp).length = if hp = 0 then 0 else 1 := by
  unfold delayEvents; split <;> rfl

theorem byteEvents_length (hp : U32) (tx rx : Byte) : (byteEvents hp tx rx).length = if hp = 0 then 32 else 48 := by
  have cell : ∀ u v, (cellEvents hp u v).length = if hp = 0 then 4 else 6 := by
    intro u v
    simp only [cellEvents, pulseEvents, List.length_cons, List.length_append, delayEvents_length]
    split <;> rfl
  simp only [byteEvents, List.range, List.range.loop, List.flatMap_cons, List.flatMap_nil, List.length_append, cell,
    List.length_nil]
  split <;> rfl

theorem count_rise_byteEvents (hp : U32) (tx rx : Byte) : (byteEvents hp tx rx).count (.drv .sck true) = 8 := by
  have delay : (delayEvents hp).count (.drv .sck true) = 0 := by
    unfold delayEvents; split <;> simp
  simp [byteEvents, cellEvents, pulseEvents, delay, List.range, List.range.loop]

/-- What a run of byte exchanges costs: events, samples and rising clock edges. -/
theorem exchangeEvents_cost (hp : U32) (tx rx : List Byte) (h : rx.length = tx.length) :
    (exchangeEvents hp tx rx).length = (if hp = 0 then 32 else 48) * tx.length ∧
      samples (exchangeEvents hp tx rx) = 8 * tx.length ∧
      (exchangeEvents hp tx rx).count (.drv .sck true) = 8 * tx.length := by
  induction tx generalizing rx with
  | nil => exact ⟨rfl, rfl, rfl⟩
  | cons t ts ih =>
    obtain ⟨r, rs, rfl⟩ := List.exists_cons_of_length_eq_add_one h
    obtain ⟨length, sampled, rises⟩ := ih rs (by simpa using h)
    simp only [exchangeEvents, List.length_append, samples_append, List.count_append, byteEvents_length,
      samples_byteEvents, count_rise_byteEvents, length, sampled, rises, List.length_cons, Nat.mul_succ]
    exact ⟨Nat.add_comm _ _, Nat.add_comm _ _, Nat.add_comm _ _⟩

/-- Settles O15: the exchanges cost what `exchangeEvents_cost` says, and the two select events add 2. -/
theorem frameCost : Obligations.FrameCost := by
  intro hp tx rx h
  obtain ⟨length, sampled, rises⟩ := exchangeEvents_cost hp tx rx h
  simp [frameEvents, samples, length, sampled, rises]

end Sys2Proof.Machine
end

section
/-! SUPPORT. The remaining framer statements of 41_command_framer.md: the status and identification reads (R152 to R154), the fast read (R148) and the page program (R150). -/

namespace Sys2Proof.Machine

/-- Settles O18: a status read is `readStatus1` or `readStatus2`, whose one response byte becomes `W.status`; an
identification read is `readCommand` with three response bytes. -/
theorem statusAndIdFrames : Obligations.StatusAndIdFrames := by
  intro s
  refine ⟨fun x hx => ?_, fun i hi => ?_⟩
  · obtain ⟨r1, framed1⟩ := polled_spec s
    obtain ⟨r2, framed2⟩ := polled2_spec s
    simp only [List.mem_cons, List.not_mem_nil, or_false] at hx
    obtain rfl | rfl | rfl | rfl := hx
    · exact ⟨r1, s.polled, _, congrArg Host.Outcome.next (readStatus1_eq s), framed1⟩
    · exact ⟨r1, s.polled, _, congrArg Host.Outcome.next (readStatus1_eq s), framed1⟩
    · exact ⟨r2, s.polled2, _, congrArg Host.Outcome.next (readStatus2_eq s), framed2⟩
    · exact ⟨r2, s.polled2, _, congrArg Host.Outcome.next (readStatus2_eq s), framed2⟩
  · have runs : exec i s = .next (readCommand s.cfg.opRdid 3 s) := by
      simp only [List.mem_cons, List.not_mem_nil, or_false] at hi
      obtain rfl | rfl := hi <;> rfl
    obtain ⟨r, length, framed⟩ := readCommand_spec s.cfg.opRdid 3 s
    obtain ⟨a0, a1, a2, resp⟩ := List.length_eq_three.1 length
    rw [resp] at framed
    refine ⟨r, a0, a1, a2, _, ?_, framed⟩
    rw [runs, ← resp]
    rfl

/-- Settles O21: the two operations are `readMemory`, which stores what `readBytes` received after the header. -/
theorem fastReadFillsTheReadBuffer : Obligations.FastReadFillsTheReadBuffer := by
  intro a n s i hi
  obtain ⟨hdr, header, length, framed⟩ := readBytes_spec a n.toNat s
  have runs : exec i s = .next (readMemory a n.toNat s) := by
    simp only [List.mem_cons, List.not_mem_nil, or_false] at hi
    obtain rfl | rfl := hi <;> rfl
  refine ⟨hdr, (readBytes a n.toNat s).1, (readBytes a n.toNat s).2.bus, ?_, header, length, framed⟩
  rw [runs, readMemory, storeAtFront, length]
  rfl

/-- Settles O22: both operations are `programBuffer`, `writeMemory` with the bytes of `wbuf` at `W.pos`. -/
theorem pageProgramSendsThePayload : Obligations.PageProgramSendsThePayload := by
  intro a n payload s
  obtain ⟨rx, framed⟩ := programBuffer_spec a payload s
  obtain ⟨rx', framed'⟩ := programBuffer_spec a (s.payload n.toNat) s
  exact ⟨⟨rx, _, exec_pp a payload s, framed⟩,
    s.payload n.toNat, rx', _, exec_writeMemory a n s, hostBytes_length _ _ _ _,
    fun k hk hb => hostBytes_getElem? _ _ _ _ _ hk hb, framed'⟩

end Sys2Proof.Machine
end

section
/-! SUPPORT. What the host operations run (R104, R162 to R186), said once: an operation is refused, or it is accepted and runs its tasks from its starting state. With it the statements about the step's choice (R90) and about refusals (R202). -/

namespace Sys2Proof.Machine

/-! ### The tasks of the host operations -/

/-- The state of the block once it has accepted an operation (R90). -/
def State.accepted (s : State) : State := { s with h := { s.h with busy := true } }

@[simp] theorem accepted_polled (s : State) : s.accepted.polled = s.polled := polled_setBusy true s
@[simp] theorem accepted_pollsReady (s : State) : s.accepted.pollsReady = s.pollsReady := pollsReady_setBusy true s

theorem accepted_keeps (s : State) : s.Keeps s.accepted := ⟨rfl, rfl, rfl, rfl, rfl, rfl, rfl⟩

/-- R202: every operation but `BEGIN` is refused before bring-up. -/
def needsInit : Instr → Bool
  | .beginOp _ => false
  | _ => true

/-- What an operation accepted in the state `s` runs: its tasks, and the state that they start from. -/
inductive Started (s : State) : Instr → List Task → State → Prop where
  | beginOp (hp : U32) : Started s (.beginOp hp) beginTasks (bringUp hp s)
  | ident : Started s .ident [] (finish s.h.jedec.compose s)
  | gated {i : Instr} {task : Task} (h : afterGate s.cfg i = some task) : Started s i [.gate, task] s
  | wrbuf (a n : U32) : Started s (.wrbuf a n) [.writeLoop n] (startWrite a n s)
  | used : Started s .used [.scan] { s with w := { s.w with addr := 0 } }

/-- A read or an erase is the readiness wait and then its one task (R174 to R182). -/
theorem exec_gated {i : Instr} {s : State} {task : Task} (h : afterGate s.cfg i = some task) :
    exec i s = .next (acceptOp true (runTasks [.gate, task]) s) := by
  cases i <;> cases h <;> rfl

/-- A host operation is refused as reserved, or tested by `acceptOp` before it runs its tasks (R107, R202). -/
theorem exec_hostOp {i : Instr} (hi : isHostOp i = true) (s : State) :
    (isReserved i = true ∧ exec i s = .next (refuse s)) ∨
      (isReserved i = false ∧ ∃ body ts s1, exec i s = .next (acceptOp (needsInit i) body s) ∧
        Started s.accepted i ts s1 ∧ body s.accepted = runTasks ts s1) := by
  cases i with
  | beginOp hp => exact .inr ⟨rfl, _, _, _, rfl, .beginOp hp, rfl⟩
  | ident => exact .inr ⟨rfl, _, _, _, rfl, .ident, rfl⟩
  | rd8 | rd16 | rd32 | rdbuf | erchip | ersec | erb32 | erb64 => exact .inr ⟨rfl, _, _, _, rfl, .gated rfl, rfl⟩
  | wrbuf a n => exact .inr ⟨rfl, _, _, _, rfl, .wrbuf a n, rfl⟩
  | used => exact .inr ⟨rfl, _, _, _, rfl, .used, rfl⟩
  | reservedC | reservedD | reservedE | reservedF => exact .inl ⟨rfl, rfl⟩
  | _ => cases hi

/-- The two things a host operation can do. -/
theorem exec_hostOp_cases {i : Instr} (hi : isHostOp i = true) (s : State) :
    exec i s = .next (refuse s) ∨
      (s.h.busy = false ∧ (needsInit i = true → s.h.initialized = true) ∧
        ∃ ts s1, Started s.accepted i ts s1 ∧ exec i s = .next (runTasks ts s1)) := by
  rcases exec_hostOp hi s with ⟨-, h⟩ | ⟨-, body, ts, s1, h, started, runs⟩
  · exact .inl h
  · rcases acceptOp_cases (needsInit i) body s with e | ⟨busy, init, e⟩
    · exact .inl (by rw [h, e])
    · exact .inr ⟨busy, init, ts, s1, started, by rw [h, e, ← runs]; rfl⟩

theorem exec_beginOp_accepted (hp : U32) {s : State} (hb : s.h.busy = false) :
    exec (.beginOp hp) s = .next (runTasks beginTasks (bringUp hp s.accepted)) :=
  congrArg Host.Outcome.next (acceptOp_accepts hb (.inl rfl))

theorem exec_gated_accepted {i : Instr} {s : State} {task : Task} (h : afterGate s.cfg i = some task)
    (hb : s.h.busy = false) (hi : s.h.initialized = true) :
    exec i s = .next (runTasks [.gate, task] s.accepted) :=
  (exec_gated h).trans (congrArg Host.Outcome.next (acceptOp_accepts hb (.inr hi)))

theorem exec_wrbuf_accepted (a n : U32) {s : State} (hb : s.h.busy = false) (hi : s.h.initialized = true) :
    exec (.wrbuf a n) s = .next (runTasks [.writeLoop n] (startWrite a n s.accepted)) :=
  congrArg Host.Outcome.next (acceptOp_accepts hb (.inr hi))

theorem exec_used_accepted {s : State} (hb : s.h.busy = false) (hi : s.h.initialized = true) :
    exec .used s = .next (runTasks [.scan] { s.accepted with w := { s.w with addr := 0 } }) :=
  congrArg Host.Outcome.next (acceptOp_accepts hb (.inr hi))

/-- Every command word is a host operation or a reserved code (R104, R107). -/
theorem isHostOp_decodeCommand (w : CmdWord) : isHostOp (decodeCommand w) = true := by
  unfold decodeCommand
  split <;> rfl

/-! ### Refusals (R202) -/

/-- Settles O26: with a reserved code the operation is `refuse`; otherwise `acceptOp` refuses while busy and, but for
`BEGIN`, before bring-up. -/
theorem refusalChangesNothing : Obligations.RefusalChangesNothing := by
  intro i s hi why
  refine ⟨Config.freeRspVal s.bus.fresh, ?_⟩
  suffices refused : exec i s = .next (refuse s) from refused
  rcases exec_hostOp hi s with ⟨-, h⟩ | ⟨permitted, body, ts, s1, h, -, -⟩
  · exact h
  · rw [h]
    refine congrArg Host.Outcome.next ?_
    rcases why with busy | reserved | ⟨uninitialized, other⟩
    · exact acceptOp_busy busy
    · exact absurd reserved (Bool.eq_false_iff.1 permitted)
    · have init : needsInit i = true := by
        cases i with
        | beginOp hp => exact absurd rfl (other hp)
        | _ => rfl
      rw [init]
      exact acceptOp_uninitialized uninitialized

/-! ### What a step runs (R90) -/

theorem fetch_command {s : State} {w : CmdWord} {wb rb : Option (List Byte)} {blocking : Bool} {rest : List Request}
    (h : s.host = .command w wb rb blocking :: rest) (free : blocking = false ∨ s.inProgress = false) :
    fetch s = some (.command w, takeBuffers wb rb { s with host := rest }) := by
  have taken : (blocking && s.inProgress) = false := by
    rcases free with e | e <;> simp [e]
  simp only [fetch, h, taken]
  rfl

theorem fetch_framer {s : State} {bytes : List Byte} {rest : List Request} (h : s.host = .framer bytes :: rest) :
    fetch s = some (.frame bytes, { s with host := rest }) := by
  simp only [fetch, h]

/-- Settles O4: without a block reset the step is `stepCore`, which runs what `fetch` takes and `decode` reads. -/
theorem stepRunsTheDecodedInstruction : Obligations.StepRunsTheDecodedInstruction := by
  refine ⟨fun s w wb rb blocking rest due host free => ?_, fun s wb rb busy => ?_, fun s wb rb busy => ?_,
    fun s bytes rest i due host decoded => ?_, fun s bytes rest due host decoded => ?_⟩
  · rw [step_eq_stepCore due, stepCore, fetch_command (s := s.tick) host free]
    rfl
  · simp [takeBuffers, busy]
  · simp [takeBuffers, busy]
  · rw [step_eq_stepCore due, stepCore, fetch_framer (s := s.tick) host]
    simp only [decode, State.tick_cfg, State.tick_h, decoded]
  · rw [step_eq_stepCore due, stepCore, fetch_framer (s := s.tick) host]
    simp only [decode, State.tick_cfg, State.tick_h, decoded]

/-- Settles O5: a step that takes no request is `resume`, and with nothing left to do `resume` changes nothing. -/
theorem stepContinuesOrWaits : Obligations.StepContinuesOrWaits := by
  intro s
  refine ⟨step_undisturbed, fun due host todo => ?_⟩
  rw [step_undisturbed ⟨due, .inl host⟩, resume_nothing (s := s.tick) todo]

end Sys2Proof.Machine
end

section
/-! SUPPORT. The readiness statements of 42_sequencer.md section 3: one pass of the wait (R164), a later step of it, and the operations that stand behind it (R82). -/

namespace Sys2Proof.Machine

/-! ### What a poll looks at -/

@[simp] theorem State.tick_polled (s : State) : s.tick.polled = s.polled := polled_congr rfl rfl rfl
@[simp] theorem State.tick_polled2 (s : State) : s.tick.polled2 = s.polled2 := polled2_congr rfl rfl rfl
@[simp] theorem State.tick_pollsReady (s : State) : s.tick.pollsReady = s.pollsReady := pollsReady_congr rfl rfl rfl
@[simp] theorem setChunk_polled (s : State) : (setChunk s).polled = s.polled := polled_congr rfl rfl rfl
@[simp] theorem startWrite_polled (a n : U32) (s : State) : (startWrite a n s).polled = s.polled :=
  polled_congr rfl rfl rfl
@[simp] theorem startWrite_pollsReady (a n : U32) (s : State) : (startWrite a n s).pollsReady = s.pollsReady :=
  pollsReady_congr rfl rfl rfl
@[simp] theorem polled_setWork (w : Work) (s : State) : State.polled { s with w := w } = s.polled :=
  polled_congr rfl rfl rfl
@[simp] theorem pollsReady_setWork (w : Work) (s : State) : State.pollsReady { s with w := w } = s.pollsReady :=
  pollsReady_congr rfl rfl rfl

/-- R165 for the byte that a poll reads. -/
theorem pollsReady_iff (s : State) :
    s.pollsReady = true ↔ s.polled.getLsbD 0 = false ∧ s.polled.getLsbD s.cfg.welBit.val = false :=
  isReady_iff s.cfg s.polled

theorem pollsReady_eq_false {s : State} (h : s.polled.getLsbD 0 = true ∨ s.polled.getLsbD s.cfg.welBit.val = true) :
    s.pollsReady = false := by
  rw [Bool.eq_false_iff, Ne, pollsReady_iff]
  rcases h with h | h <;> simp [h]

/-- A poll changes what it changes whatever tasks are left. -/
theorem afterPoll_setTodo (ts : List Task) (s : State) :
    afterPoll { s with todo := ts } = { afterPoll s with todo := ts } := by
  simp only [afterPoll, polled_setTodo, State.hp]

theorem afterPoll_tick (s : State) : afterPoll s.tick = (afterPoll s).tick := by
  simp only [afterPoll, State.tick_polled]
  rfl

/-! ### Waiting -/

/-- Settles O23: the one task `gate` goes on after the poll, or waits after one yield, as `pollsReady_iff` says. -/
theorem waitUntilReadyPollsThenYields : Obligations.WaitUntilReadyPollsThenYields := by
  intro s
  obtain ⟨r, framed⟩ := afterPoll_spec s
  refine ⟨fun ready => ⟨r, _, ?_, framed⟩, fun notReady => ⟨r, _, _, ?_, framed, Bus.emitted_yld _⟩⟩
  · exact congrArg Host.Outcome.next (runTasks_gate_ready [] ((pollsReady_iff s).2 ready))
  · exact congrArg Host.Outcome.next (runTasks_gate_notReady [] (pollsReady_eq_false notReady))

/-- An operation at the gate that finds the chip not ready polls, yields and still waits. -/
theorem resume_gate_notReady {s : State} {ts : List Task} (h : s.todo = .gate :: ts) (hr : s.pollsReady = false) :
    resume s = (afterPoll s).emit .yld := by
  rw [resume, h, runTasks_gate_notReady ts (by rw [pollsReady_setTodo, hr]), afterPoll_setTodo, List.append_nil, ← h]
  rfl

/-- One that finds it ready goes on with what stands behind the gate. -/
theorem resume_gate_ready {s : State} {ts : List Task} (h : s.todo = .gate :: ts) (hr : s.pollsReady = true) :
    resume s = resume { afterPoll s with todo := ts } := by
  rw [resume, h, runTasks_gate_ready ts (by rw [pollsReady_setTodo, hr]), afterPoll_setTodo]
  rfl

/-- Settles O24: the step is `resume` of the ticked state; at the gate that is `resume_gate_notReady` or
`resume_gate_ready`, and a read or an erase presented anew runs the same tasks. -/
theorem waitingStepPollsOnceMore : Obligations.WaitingStepPollsOnceMore := by
  intro s ts undisturbed todo
  obtain ⟨r, framed⟩ := afterPoll_spec s
  have goesOn (hr : s.pollsReady = true) : step s = .next (resume { (afterPoll s).tick with todo := ts }) := by
    rw [step_undisturbed undisturbed, resume_gate_ready (s := s.tick) todo (by rw [State.tick_pollsReady, hr]),
      afterPoll_tick]
  refine ⟨fun hr => ⟨r, _, _, ?_, framed, Bus.emitted_yld _⟩, fun hr => ⟨r, _, framed, goesOn hr⟩,
    fun i task behind hts busy init => ?_, fun hts hr => ⟨r, _, framed, ?_⟩⟩
  · rw [step_undisturbed undisturbed, resume_gate_notReady (s := s.tick) todo (by rw [State.tick_pollsReady, hr]),
      afterPoll_tick]
    rfl
  · rw [step_undisturbed undisturbed, resume, State.tick_todo, todo, hts]
    refine Eq.symm (Eq.trans (exec_gated_accepted behind rfl init) ?_)
    simp only [State.accepted, ← busy]
    rfl
  · rw [goesOn hr, hts]
    rfl

/-- A pass of the scan that finds the chip not ready polls and yields. -/
theorem runTask_scan_notReady {s : State} (hr : s.pollsReady = false) :
    runTask .scan s = .wait ((afterPoll s).emit .yld) := by
  show scanWord s = _
  rw [scanWord, pollReady_notReady hr, readStatus1_afterPoll]

/-- A pass of the writing loop that has something left and finds the chip not ready polls and yields, the size of its
chunk in `W.chunk`. -/
theorem runTask_writeLoop_notReady {len : U32} {s : State} (h : s.w.rem ≠ 0) (hr : s.pollsReady = false) :
    runTask (.writeLoop len) s = .wait ((afterPoll (setChunk s)).emit .yld) := by
  obtain ⟨k, hk⟩ : ∃ k, s.w.rem.toNat = k + 1 :=
    Nat.exists_eq_add_one_of_ne_zero fun h0 => h (BitVec.eq_of_toNat_eq h0)
  show writeLoop len s.w.rem.toNat s = _
  rw [hk, writeLoop_notReady h hr, readStatus1_afterPoll]

/-- An operation whose first task has to wait again is left as it was. -/
theorem resume_wait {s s1 : State} {t : Task} {ts : List Task} (h : s.todo = t :: ts)
    (hw : runTask t { s with todo := [] } = .wait s1) (h1 : s1.todo = []) : resume s = { s1 with todo := s.todo } := by
  rw [resume, h, runTasks_wait hw, h1, List.append_nil]

/-- One whose first task does not have to wait goes on with the others. -/
theorem resume_goOn {s s1 : State} {t : Task} {ts : List Task} (h : s.todo = t :: ts)
    (hg : runTask t { s with todo := [] } = .goOn s1) (h1 : s1.todo = []) :
    resume s = resume { s1 with todo := ts } := by
  rw [resume, h, runTasks_goOn hg, resume]
  show _ = runTasks ts { s1 with todo := [] }
  rw [← h1]

theorem resume_scan_notReady {s : State} (h : s.todo = [.scan]) (hr : s.pollsReady = false) :
    resume s = (afterPoll s).emit .yld := by
  rw [resume_wait h (runTask_scan_notReady (by rw [pollsReady_setTodo, hr])) rfl, afterPoll_setTodo]
  rfl

theorem resume_writeLoop_notReady {len : U32} {s : State} (h : s.todo = [.writeLoop len]) (rem : s.w.rem ≠ 0)
    (hr : s.pollsReady = false) : resume s = (afterPoll (setChunk s)).emit .yld := by
  have e : setChunk { s with todo := [] } = { setChunk s with todo := [] } := rfl
  rw [resume_wait h (runTask_writeLoop_notReady (s := { s with todo := [] }) rem (by rw [pollsReady_setTodo, hr])) rfl,
    e, afterPoll_setTodo]
  rfl

/-- Settles O25: each of these operations starts with a wait of one kind or another (the gate, a pass of the writing
loop, a pass of the scan), and each wait that finds the chip not ready is one poll and one yield. -/
theorem accessWaitsForAReadyChip : Obligations.AccessWaitsForAReadyChip := by
  intro s hr
  obtain ⟨r, framed⟩ := afterPoll_spec s
  refine ⟨r, _, _, framed, Bus.emitted_yld _, fun busy init => ⟨fun i task behind => ?_, fun a n hn => ?_, ?_⟩,
    fun undisturbed => ⟨fun len todo rem => ?_, fun todo => ?_⟩⟩
  · rw [exec_gated_accepted behind busy init, runTasks_gate_notReady _ (by rw [accepted_pollsReady, hr])]
    simp only [afterPoll, accepted_polled]
    rfl
  · rw [exec_wrbuf_accepted a n busy init,
      runTasks_wait (runTask_writeLoop_notReady hn (by rw [startWrite_pollsReady, accepted_pollsReady, hr]))]
    simp only [afterPoll, setChunk_polled, startWrite_polled, accepted_polled]
    rfl
  · rw [exec_used_accepted busy init,
      runTasks_wait (runTask_scan_notReady (by rw [pollsReady_setWork, accepted_pollsReady, hr]))]
    simp only [afterPoll, polled_setWork, accepted_polled]
    rfl
  · rw [step_undisturbed undisturbed,
      resume_writeLoop_notReady (s := s.tick) todo rem (by rw [State.tick_pollsReady, hr])]
    simp only [afterPoll, setChunk_polled, State.tick_polled]
    rfl
  · rw [step_undisturbed undisturbed, resume_scan_notReady (s := s.tick) todo (by rw [State.tick_pollsReady, hr]),
      afterPoll_tick]
    rfl

end Sys2Proof.Machine
end

section
/-! SUPPORT. The reads, the erases, the scan and the identification of 42_sequencer.md sections 5 to 8 against a chip that the poll finds ready: what each operation answers, state and frames. -/

namespace Sys2Proof.Machine

/-! ### Accepted and finished -/

/-- An accepted operation that finishes leaves the handle as it was before it was accepted. -/
theorem finish_accepted {s t : State} (v : U32) (hb : s.h.busy = false) (h : t.h = s.accepted.h) :
    finish v t =
      { t with h := s.h, rspCode := .done, rspVal := v, rsps := t.rsps ++ [⟨.done, v⟩] } := by
  have e : { t.h with busy := false } = s.h := by
    rw [h]
    exact busy_roundtrip hb
  show { t.respond .done v with h := { t.h with busy := false } } = _
  rw [e]
  rfl

theorem afterPoll_accepted (s : State) : afterPoll s.accepted = (afterPoll s).accepted := by
  simp only [afterPoll, accepted_polled]
  rfl

/-- A read or an erase against a ready chip runs its task after the poll. -/
theorem exec_gated_ready {i : Instr} {s : State} {task : Task} (h : afterGate s.cfg i = some task)
    (hb : s.h.busy = false) (hi : s.h.initialized = true) (hr : s.pollsReady = true) :
    exec i s = .next (runTasks [task] (afterPoll s).accepted) := by
  rw [exec_gated_accepted h hb hi, runTasks_gate_ready _ (by rw [accepted_pollsReady, hr]), afterPoll_accepted]

/-! ### Identification (R186) -/

/-- Settles O29: the accepted operation finishes at once with the composed ID. -/
theorem identReturnsTheStoredId : Obligations.IdentReturnsTheStoredId := by
  intro s busy init
  refine ⟨s.h.jedec.compose, ?_, s.h.jedec.compose_toNat⟩
  have runs : exec .ident s = .next (finish s.h.jedec.compose s.accepted) :=
    congrArg Host.Outcome.next (acceptOp_accepts busy (.inr init))
  rw [runs, finish_accepted _ busy rfl]
  rfl

/-! ### Reads (R174 to R177) -/

/-- A typed read against a ready chip: the poll, one fast-read frame, and the value its bytes are assembled to. -/
theorem exec_typedRead_ready {i : Instr} {s : State} {task : Task} {a : U32} {n : Nat} {load : List Byte → U32}
    (h : afterGate s.cfg i = some task)
    (run : ∀ s, runTask task s = .goOn (finish (load (readBytes a n s).1) (readBytes a n s).2))
    (hb : s.h.busy = false) (hi : s.h.initialized = true) (hr : s.pollsReady = true) :
    exec i s = .next { afterPoll s with
      bus := (readBytes a n (afterPoll s)).2.bus, rspCode := .done, rspVal := load (readBytes a n (afterPoll s)).1
      rsps := s.rsps ++ [⟨.done, load (readBytes a n (afterPoll s)).1⟩] } := by
  rw [exec_gated_ready h hb hi hr, runTasks_last (run _), finish_accepted _ hb] <;> rfl

/-- The three typed reads, each with its task and its assembly, which is little-endian. -/
theorem typedRead_task (c : Cfg) {a : U32} {x : Instr × Nat} (h : x ∈ [(Instr.rd8 a, 1), (.rd16 a, 2), (.rd32 a, 4)]) :
    ∃ (task : Task) (load : List Byte → U32), afterGate c x.1 = some task ∧
      (∀ s, runTask task s = .goOn (finish (load (readBytes a x.2 s).1) (readBytes a x.2 s).2)) ∧
      ∀ t : List Byte, t.length = x.2 → (load t).toNat = littleEndian t := by
  simp only [List.mem_cons, List.not_mem_nil, or_false] at h
  obtain rfl | rfl | rfl := h
  · exact ⟨.read8 a, loadByte, rfl, fun _ => rfl, fun _ => loadByte_littleEndian⟩
  · exact ⟨.read16 a, loadHalf, rfl, fun _ => rfl, fun _ => loadHalf_littleEndian⟩
  · exact ⟨.read32 a, loadWord, rfl, fun _ => rfl, fun _ => loadWord_littleEndian⟩

/-- Settles O30: the three typed reads are `exec_typedRead_ready` with their own assembly, which is little-endian. -/
theorem typedReadsAreLittleEndian : Obligations.TypedReadsAreLittleEndian := by
  intro a s busy init ready x hx
  obtain ⟨task, load, behind, run, little⟩ := typedRead_task s.cfg hx
  obtain ⟨r, polled⟩ := afterPoll_spec s
  obtain ⟨hdr, header, length, framed⟩ := readBytes_spec a x.2 (afterPoll s)
  exact ⟨r, _, hdr, _, _, _, exec_typedRead_ready behind run busy init ready, polled, header, length, framed,
    little _ length⟩

/-- `RDBUF` against a ready chip. -/
theorem exec_rdbuf_ready (a n : U32) {s : State} (hb : s.h.busy = false) (hi : s.h.initialized = true)
    (hr : s.pollsReady = true) :
    exec (.rdbuf a n) s = .next { readMemory a n.toNat (afterPoll s) with
      rspCode := .done, rspVal := n, rsps := s.rsps ++ [⟨.done, n⟩] } := by
  rw [exec_gated_ready (task := .readBuffer a n) rfl hb hi hr, runTasks_last rfl, finish_accepted _ hb] <;> rfl

/-- Settles O31. -/
theorem readBufferIsOneFrame : Obligations.ReadBufferIsOneFrame := by
  intro a n s busy init ready
  obtain ⟨r, polled⟩ := afterPoll_spec s
  obtain ⟨hdr, header, length, framed⟩ := readBytes_spec a n.toNat (afterPoll s)
  refine ⟨r, _, hdr, _, _, ?_, polled, header, length, framed⟩
  rw [exec_rdbuf_ready a n busy init ready, readMemory, storeAtFront, length]
  rfl

/-! ### Erases (R178 to R182) -/

/-- An erase against a ready chip: the poll, write-enable, and the task's own frame `send`. -/
theorem exec_erase_ready {i : Instr} {s : State} {task : Task} {send : State → State}
    (h : afterGate s.cfg i = some task) (run : ∀ s, runTask task s = .goOn (finish successFlag (send (writeEnable s))))
    (keeps : ∀ s, (send s).h = s.h) (hb : s.h.busy = false) (hi : s.h.initialized = true) (hr : s.pollsReady = true) :
    exec i s = .next { send (writeEnable (afterPoll s).accepted) with
      h := s.h, rspCode := .done, rspVal := 1
      rsps := (send (writeEnable (afterPoll s).accepted)).rsps ++ [⟨.done, 1⟩] } := by
  rw [exec_gated_ready h hb hi hr, runTasks_last (run _), finish_accepted _ hb]
  · rfl
  · exact keeps _

/-- The erase of a unit, whichever unit it is. -/
theorem exec_eraseUnit_ready {i : Instr} {s : State} {op : Byte} {a : U32}
    (h : afterGate s.cfg i = some (.eraseUnit op a)) (hb : s.h.busy = false) (hi : s.h.initialized = true)
    (hr : s.pollsReady = true) :
    exec i s = .next { eraseCommand op a (writeEnable (afterPoll s)) with
      rspCode := .done, rspVal := 1, rsps := s.rsps ++ [⟨.done, 1⟩] } :=
  exec_erase_ready (send := eraseCommand op a) h (fun _ => rfl) (fun _ => rfl) hb hi hr

theorem exec_erchip_ready {s : State} (hb : s.h.busy = false) (hi : s.h.initialized = true)
    (hr : s.pollsReady = true) :
    exec .erchip s = .next { runCommand s.cfg.opCe (writeEnable (afterPoll s)) with
      rspCode := .done, rspVal := 1, rsps := s.rsps ++ [⟨.done, 1⟩] } := by
  rw [exec_gated_ready (task := .eraseAll) rfl hb hi hr, runTasks_last rfl, finish_accepted _ hb] <;> rfl

/-- Settles O32: the units are `exec_eraseUnit_ready` at the address of `eraseAddress_eq`, the chip is
`exec_erchip_ready`. -/
theorem eraseIsPollEnableErase : Obligations.EraseIsPollEnableErase := by
  intro k s busy init ready x hx
  obtain ⟨r, polled⟩ := afterPoll_spec s
  obtain ⟨r', enabled⟩ := runCommand_spec s.cfg.opWren (afterPoll s)
  simp only [List.mem_cons, List.not_mem_nil, or_false] at hx
  obtain rfl | rfl | rfl | rfl := hx
  · obtain ⟨rx, erased⟩ := eraseCommand_spec s.cfg.opSe (BitVec.ofNat 32 (k.toNat * 4096)) (writeEnable (afterPoll s))
    exact ⟨r, _, r', _, rx, _, exec_eraseUnit_ready (by rw [afterGate, eraseAddress_eq]; rfl) busy init ready, polled,
      enabled, erased⟩
  · obtain ⟨rx, erased⟩ := eraseCommand_spec s.cfg.opBe32 (BitVec.ofNat 32 (k.toNat * 32768))
      (writeEnable (afterPoll s))
    exact ⟨r, _, r', _, rx, _, exec_eraseUnit_ready (by rw [afterGate, eraseAddress_eq]; rfl) busy init ready, polled,
      enabled, erased⟩
  · obtain ⟨rx, erased⟩ := eraseCommand_spec s.cfg.opBe64 (BitVec.ofNat 32 (k.toNat * 65536))
      (writeEnable (afterPoll s))
    exact ⟨r, _, r', _, rx, _, exec_eraseUnit_ready (by rw [afterGate, eraseAddress_eq]; rfl) busy init ready, polled,
      enabled, erased⟩
  · obtain ⟨rx, erased⟩ := runCommand_spec s.cfg.opCe (writeEnable (afterPoll s))
    exact ⟨r, _, r', _, [rx], _, exec_erchip_ready busy init ready, polled, enabled, erased⟩

/-! ### The scan (R184) -/

/-- What a pass of the scan has read: the word at `W.addr`, in `W.word`. -/
def scanned (s : State) : State :=
  { (readBytes s.w.addr 4 (afterPoll s)).2 with
    w := { s.w with status := s.polled, word := s.wordAt s.w.addr } }

theorem wordAt_congr {s t : State} (a : U32) (hb : s.bus = t.bus) (hp : s.hp = t.hp) (hc : s.cfg = t.cfg)
    (hw : s.h.addressWidth = t.h.addressWidth) : s.wordAt a = t.wordAt a := by
  simp only [State.wordAt, readBytes_data, readStatus1_bus, readStatus1_cfg, readStatus1_h, State.hp] at hp ⊢
  rw [hb, hp, hc, hw]

/-- A pass against a ready chip ends the scan at an all-ones word. -/
theorem runTask_scan_erased {s : State} (hr : s.pollsReady = true) (hw : s.wordAt s.w.addr = 0xFFFFFFFF) :
    runTask .scan s = .goOn (finish s.w.addr (scanned s)) := by
  have e : loadWord (readBytes s.w.addr 4 (afterPoll s)).1 = s.wordAt s.w.addr := by
    rw [State.wordAt, readStatus1_afterPoll]
  show scanWord s = _
  rw [scanWord, pollReady_ready hr, readStatus1_afterPoll]
  exact (if_pos (e.trans hw)).trans (by rw [scanned, ← e]; rfl)

/-- At any other word the scan waits for its next pass, four bytes on. -/
theorem runTask_scan_used {s : State} (hr : s.pollsReady = true) (hw : s.wordAt s.w.addr ≠ 0xFFFFFFFF) :
    runTask .scan s =
      .wait { scanned s with w := { s.w with status := s.polled, word := s.wordAt s.w.addr, addr := s.w.addr + 4 } } := by
  have e : loadWord (readBytes s.w.addr 4 (afterPoll s)).1 = s.wordAt s.w.addr := by
    rw [State.wordAt, readStatus1_afterPoll]
  show scanWord s = _
  rw [scanWord, pollReady_ready hr, readStatus1_afterPoll]
  refine (if_neg fun h => hw (e.symm.trans h)).trans ?_
  rw [← e]
  rfl

/-- The frame of a pass, and the word read from it. -/
theorem scanned_spec (s : State) :
    ∃ hdr data, hdr.length = s.h.addressWidth.bytes + 2 ∧ data.length = 4 ∧
      Bus.Framed s.hp (readFrame s.cfg s.h.addressWidth s.w.addr 4) (hdr ++ data) (afterPoll s).bus (scanned s).bus ∧
      (s.wordAt s.w.addr).toNat = littleEndian data := by
  obtain ⟨hdr, header, length, framed⟩ := readBytes_spec s.w.addr 4 (afterPoll s)
  refine ⟨hdr, _, header, length, framed, ?_⟩
  rw [State.wordAt, readStatus1_afterPoll, loadWord_littleEndian length]

/-- Settles O37: `USED` starts the scan at 0, whose first pass ends it or waits (`runTask_scan_erased`,
`runTask_scan_used`). -/
theorem usedReadsTheFirstWord : Obligations.UsedReadsTheFirstWord := by
  intro s busy init ready
  let s0 : State := { s.accepted with w := { s.w with addr := 0 } }
  have word : s0.wordAt 0 = s.wordAt 0 := wordAt_congr 0 rfl rfl rfl rfl
  have polled0 : s0.polled = s.polled := by rw [polled_setWork, accepted_polled]
  have ready0 : s0.pollsReady = true := by rw [pollsReady_setWork, accepted_pollsReady, ready]
  obtain ⟨r, polled⟩ := afterPoll_spec s
  obtain ⟨hdr, data, header, length, framed, little⟩ := scanned_spec s0
  refine ⟨r, _, hdr, data, _, polled, header, length, framed, word ▸ little, fun h => ?_, fun h => ?_⟩
  · rw [exec_used_accepted busy init, runTasks_last (runTask_scan_erased ready0 (word.trans h)),
      finish_accepted _ busy, ← word, ← polled0] <;> rfl
  · rw [exec_used_accepted busy init, runTasks_wait (runTask_scan_used ready0 (fun e => h (word.symm.trans e))),
      ← word, ← polled0]
    rfl

/-- Settles O38: a later pass is `resume` of the one task `scan`. -/
theorem usedScansOnByFour : Obligations.UsedScansOnByFour := by
  intro s undisturbed todo ready
  let s0 : State := { s.tick with todo := [] }
  have word : s0.wordAt s0.w.addr = s.wordAt s.w.addr := wordAt_congr _ rfl rfl rfl rfl
  have polled0 : s0.polled = s.polled := by rw [polled_setTodo, State.tick_polled]
  have ready0 : s0.pollsReady = true := by rw [pollsReady_setTodo, State.tick_pollsReady, ready]
  obtain ⟨r, polled⟩ := afterPoll_spec s
  obtain ⟨hdr, data, header, length, framed, little⟩ := scanned_spec s0
  refine ⟨r, _, hdr, data, _, polled, header, length, framed, word ▸ little, fun h => ?_, fun h => ?_⟩
  · rw [step_undisturbed undisturbed, resume, State.tick_todo, todo,
      runTasks_last (runTask_scan_erased ready0 (word.trans h)), ← word, ← polled0]
    rfl
  · rw [step_undisturbed undisturbed, resume_wait (s := s.tick) todo
      (runTask_scan_used ready0 (fun e => h (word.symm.trans e))) rfl, ← word, ← polled0]
    rfl

/-! ### Operand laws (R55, R57, R172) -/

/-- Settles O36: the minimum is below `2 ^ 9`, so the 9-bit register holds it. -/
theorem chunkSizeFollowsTheLaw : Obligations.ChunkSizeFollowsTheLaw := by
  intro a rem
  have value : (chunkSize a rem).toNat = min rem.toNat (256 - a.toNat % 256) := by
    rw [chunkSize, BitVec.toNat_ofNat, Nat.mod_eq_of_lt (by simp only [Config.pageSize]; omega)]
    rfl
  exact ⟨value, by omega, fun h => (chunkSize_pos_le h).1⟩

/-- Settles O39: both sides are sums of the same bytes at the same weights. -/
theorem mixedWidthsSeeTheSameBytes : Obligations.MixedWidthsSeeTheSameBytes := by
  intro b0 b1 b2 b3
  simp only [loadByte_toNat, loadHalf_toNat, loadWord_toNat]
  omega

end Sys2Proof.Machine
end

section
/-! SUPPORT. Frames against answers that do not depend on the events (R10, R15): the bytes that the answers spell are received. -/

namespace Sys2Proof.Machine

@[simp] theorem wireBits_cons (b : Byte) (bs : List Byte) : wireBits (b :: bs) = byteBits b ++ wireBits bs := rfl

/-- Zero bytes are zero bits. -/
theorem wireBits_zeros (n : Nat) : wireBits (List.replicate n 0) = List.replicate (8 * n) false := by
  induction n with
  | zero => rfl
  | succ n ih =>
    rw [List.replicate_succ, wireBits_cons, ih, Nat.mul_succ, Nat.add_comm, List.replicate_add]
    rfl

theorem Bus.exchange_answers {hp : U32} {tx rx : List Byte} {b : Bus} {vs : List Bool} {e' : Env}
    (hl : rx.length = tx.length) (h : b.env.Answers (wireBits rx ++ vs) e') :
    (b.exchange hp tx).1 = rx ∧ (b.exchange hp tx).2.env.Answers vs e' := by
  induction tx generalizing rx b with
  | nil =>
    obtain rfl := List.length_eq_zero_iff.1 hl
    exact ⟨rfl, h⟩
  | cons t ts ih =>
    obtain ⟨r, rs, rfl⟩ := List.exists_cons_of_length_eq_add_one hl
    rw [wireBits_cons, List.append_assoc] at h
    obtain ⟨env, sr⟩ := Bus.transferByte_answers (hp := hp) (out := t) h
    obtain ⟨received, env'⟩ := ih (by simpa using hl) env
    exact ⟨by rw [Bus.exchange, sr, received], env'⟩

/-- R15 against such answers: the frame receives the bytes they start with. -/
theorem Bus.frame_answers {hp : U32} {tx rx : List Byte} {b : Bus} {vs : List Bool} {e' : Env}
    (hl : rx.length = tx.length) (h : b.env.Answers (wireBits rx ++ vs) e') :
    (b.frame hp tx).1 = rx ∧ (b.frame hp tx).2.env.Answers vs e' ∧
      (b.frame hp tx).2.trace = b.trace ++ frameEvents hp tx rx := by
  obtain ⟨received, env⟩ := Bus.exchange_answers (hp := hp) hl (Bus.emit_answers h (.drv .cs false))
  have received : (b.frame hp tx).1 = rx := received
  exact ⟨received, Bus.emit_answers env (.drv .cs true), received ▸ (b.frame_spec hp tx).2.trace⟩

/-- The same for answers that are all zero. -/
theorem Bus.frame_zeros {hp : U32} {tx : List Byte} {b : Bus} {k : Nat} {e' : Env}
    (h : b.env.Answers (List.replicate (8 * (tx.length + k)) false) e') :
    (b.frame hp tx).1 = tx.map (fun _ => 0) ∧
      (b.frame hp tx).2.env.Answers (List.replicate (8 * k) false) e' ∧
      (b.frame hp tx).2.trace = b.trace ++ (Segment.frame tx (tx.map fun _ => 0)).events hp := by
  refine Bus.frame_answers (by rw [List.length_map]) ?_
  rw [List.map_const', wireBits_zeros, ← List.replicate_add, ← Nat.mul_add]
  exact h

end Sys2Proof.Machine
end

section
/-! SUPPORT. The buffered write of 42_sequencer.md section 4: the chunk law (R172), a chunk (R173), and the whole write. -/

namespace Sys2Proof.Machine

/-! ### The chunk law (R172) -/

/-- The first chunk starts at the address of the write. -/
theorem chunksFrom_head {fuel a n : Nat} {c : Nat × Nat} (h : c ∈ (chunksFrom fuel a n).head?) : c.1 = a := by
  cases fuel with
  | zero => cases h
  | succ fuel =>
    rw [chunksFrom] at h
    split at h
    · cases h
    · cases h; rfl

/-- The chunk law, for any bound that is enough. -/
theorem chunksFrom_law {fuel a n : Nat} (h : n ≤ fuel) :
    ((chunksFrom fuel a n).map Prod.snd).sum = n ∧
      (∀ c ∈ chunksFrom fuel a n, 0 < c.2 ∧ c.1 % 256 + c.2 ≤ 256 ∧ a ≤ c.1 ∧ c.1 + c.2 ≤ a + n) ∧
      (chunksFrom fuel a n).IsChain (fun c d => c.1 + c.2 = d.1 ∧ d.1 % 256 = 0) ∧
      (chunksFrom fuel a n).length = (if n = 0 then 0 else (a % 256 + n + 255) / 256) := by
  induction fuel generalizing a n with
  | zero =>
    obtain rfl := Nat.le_zero.1 h
    exact ⟨rfl, fun _ h => absurd h List.not_mem_nil, .nil, rfl⟩
  | succ fuel ih =>
    rw [chunksFrom]
    by_cases hn : n = 0
    · rw [if_pos hn, if_pos hn]
      exact ⟨hn.symm, fun _ h => absurd h List.not_mem_nil, .nil, rfl⟩
    · rw [if_neg hn, if_neg hn]
      have page : a % Config.pageSize < 256 := Nat.mod_lt _ (by decide)
      have size : Config.pageSize = 256 := rfl
      generalize hm : min n (Config.pageSize - a % Config.pageSize) = m
      rw [size] at page hm
      obtain ⟨sum, inside, chain, length⟩ := ih (a := a + m) (n := n - m) (by omega)
      refine ⟨?_, fun c hc => ?_, List.isChain_cons.2 ⟨fun d hd => ?_, chain⟩, ?_⟩
      · rw [List.map_cons, List.sum_cons, sum]
        omega
      · rcases List.mem_cons.1 hc with rfl | hc
        · simp only
          omega
        · have := inside c hc
          omega
      · have start := chunksFrom_head hd
        have := inside d (List.mem_of_mem_head? hd)
        simp only
        omega
      · rw [List.length_cons, length]
        split <;> omega

/-- Settles O35. -/
theorem chunksCoverTheRangeWithinPages : Obligations.ChunksCoverTheRangeWithinPages := fun _ _ => chunksFrom_law le_rfl

/-! ### One chunk (R173) -/

/-- What a pass of the loop against a ready chip does: the poll, then one chunk. -/
def writePass (s : State) : State := writeChunk (afterPoll (setChunk s))

theorem writePass_eq (s : State) :
    writePass s = { s with
      bus := (writePass s).bus, resp := [s.polled]
      w := { s.w with
        status := s.polled, chunk := chunkSize s.w.addr s.w.rem
        addr := s.w.addr + (chunkSize s.w.addr s.w.rem).setWidth 32
        pos := s.w.pos + (chunkSize s.w.addr s.w.rem).setWidth 32
        rem := s.w.rem - (chunkSize s.w.addr s.w.rem).setWidth 32 } } := by
  rw [← setChunk_polled s]
  rfl

/-- The bus of a pass after its poll and its write-enable. -/
def State.enabledBus (s : State) : Bus :=
  ((s.bus.frame s.hp (responseFrame s.cfg.opRdsr1 1)).2.frame s.hp [s.cfg.opWren]).2

/-- The bytes of `wbuf` that the pass sends. -/
def State.passBytes (s : State) : List Byte :=
  hostBytes s.wbuf s.enabledBus.fresh s.w.pos.toNat (chunkSize s.w.addr s.w.rem).toNat

theorem passBytes_length (s : State) : s.passBytes.length = (chunkSize s.w.addr s.w.rem).toNat :=
  hostBytes_length _ _ _ _

theorem passBytes_getElem? (s : State) {k : Nat} (hk : k < (chunkSize s.w.addr s.w.rem).toNat)
    (hb : s.w.pos.toNat + k < s.wbuf.length) : s.passBytes[k]? = s.wbuf[s.w.pos.toNat + k]? :=
  hostBytes_getElem? _ _ _ _ _ hk hb

theorem passBytes_eq {s : State} (h : s.w.pos.toNat + (chunkSize s.w.addr s.w.rem).toNat ≤ s.wbuf.length) :
    s.passBytes = (s.wbuf.drop s.w.pos.toNat).take (chunkSize s.w.addr s.w.rem).toNat :=
  hostBytes_eq _ _ _ _ h

/-- The bus after the three frames of a pass. -/
theorem writePass_bus (s : State) :
    (writePass s).bus = (s.enabledBus.frame s.hp (programFrame s.cfg s.h.addressWidth s.w.addr s.passBytes)).2 := rfl

/-- The three frames of a pass. -/
theorem writePass_spec (s : State) :
    ∃ r b1 r' b2 rx, Bus.Framed s.hp (responseFrame s.cfg.opRdsr1 1) [r, s.polled] s.bus b1 ∧
      Bus.Framed s.hp [s.cfg.opWren] [r'] b1 b2 ∧
      Bus.Framed s.hp (programFrame s.cfg s.h.addressWidth s.w.addr s.passBytes) rx b2 (writePass s).bus := by
  obtain ⟨r, polled⟩ := afterPoll_spec s
  obtain ⟨r', enabled⟩ := runCommand_spec s.cfg.opWren (afterPoll s)
  rw [writePass_bus]
  exact ⟨r, (afterPoll s).bus, r', s.enabledBus, _, polled, enabled, Bus.frame_spec _ _ _⟩

theorem writePass_setTodo (ts : List Task) (s : State) :
    writePass { s with todo := ts } = { writePass s with todo := ts } := by
  rw [writePass_eq, writePass_eq s, writePass_bus, writePass_bus, polled_setTodo]
  rfl

/-- A chunk as a 32-bit number. -/
theorem chunkSize_setWidth_toNat (a rem : U32) : ((chunkSize a rem).setWidth 32).toNat = (chunkSize a rem).toNat := by
  have h := (chunkSizeFollowsTheLaw a rem).2.1
  rw [BitVec.toNat_setWidth]
  exact Nat.mod_eq_of_lt (by omega)

/-! ### The loop -/

theorem runTasks_writeLoop_done {len : U32} {s : State} (h : s.w.rem = 0) :
    runTasks [.writeLoop len] s = finish len s := runTasks_last (writeLoop_done h)

/-- A pass of the loop against a chip that the poll finds ready: one chunk, and the loop again. -/
theorem runTasks_writeLoop_pass {len : U32} {s : State} (h : s.w.rem ≠ 0) (hr : s.pollsReady = true) :
    runTasks [.writeLoop len] s = runTasks [.writeLoop len] (writePass s) := by
  rw [runTasks_writeLoop_ready h hr, readStatus1_afterPoll]
  rfl

/-- `t` is `s` but for the bus, the working registers and the last response read. -/
def State.SameOutside (s t : State) : Prop := t = { s with bus := t.bus, w := t.w, resp := t.resp }

/-- The loop against answers that are all zero, from the byte `p` of `wbuf` and the address `a` on: for each chunk of
the law a poll, write-enable and a program frame with the chunk's bytes. -/
theorem runTasks_writeLoop_zeros (len : U32) (fuel a p : Nat) (s : State) (e' : Env)
    (bound : s.w.rem.toNat ≤ fuel) (addr : s.w.addr = BitVec.ofNat 32 a) (pos : s.w.pos = BitVec.ofNat 32 p)
    (small : p + s.w.rem.toNat < 2 ^ 32) (supplied : p + s.w.rem.toNat ≤ s.wbuf.length)
    (env : s.bus.env.Answers (List.replicate (8 * segmentBytes
      (chunkSegments s.cfg s.h.addressWidth s.wbuf p (chunksFrom fuel a s.w.rem.toNat))) false) e') :
    ∃ t, runTasks [.writeLoop len] s = finish len t ∧ s.SameOutside t ∧ t.bus.env = e' ∧
      t.bus.trace = s.bus.trace ++ segmentEvents s.hp
        (chunkSegments s.cfg s.h.addressWidth s.wbuf p (chunksFrom fuel a s.w.rem.toNat)) := by
  induction fuel generalizing a p s with
  | zero =>
    have h : s.w.rem = 0 := BitVec.eq_of_toNat_eq (Nat.le_zero.1 bound)
    exact ⟨s, runTasks_writeLoop_done h, rfl, env.eq, (List.append_nil _).symm⟩
  | succ fuel ih =>
    by_cases h : s.w.rem = 0
    · have none : chunksFrom (fuel + 1) a s.w.rem.toNat = [] := by rw [h]; rfl
      rw [none] at env ⊢
      exact ⟨s, runTasks_writeLoop_done h, rfl, env.eq, (List.append_nil _).symm⟩
    · have ne : s.w.rem.toNat ≠ 0 := fun e => h (BitVec.eq_of_toNat_eq e)
      let n := chunkSize s.w.addr s.w.rem
      have same : s.w.addr.toNat % 256 = a % 256 := by
        rw [addr, BitVec.toNat_ofNat]
        omega
      have hn : n.toNat = min s.w.rem.toNat (Config.pageSize - a % Config.pageSize) := by
        rw [(chunkSizeFollowsTheLaw _ _).1, same]
        rfl
      have hn32 : (n.setWidth 32).toNat = n.toNat := chunkSize_setWidth_toNat _ _
      have le : 0 < n.toNat ∧ n.toNat ≤ s.w.rem.toNat := chunkSize_pos_le h
      have posNat : s.w.pos.toNat = p := by
        rw [pos, BitVec.toNat_ofNat]
        exact Nat.mod_eq_of_lt (by omega)
      -- The three frames of the pass, and the script after each.
      let prog := programFrame s.cfg s.h.addressWidth (BitVec.ofNat 32 a) ((s.wbuf.drop p).take n.toNat)
      have chunks : chunksFrom (fuel + 1) a s.w.rem.toNat =
          (a, n.toNat) :: chunksFrom fuel (a + n.toNat) (s.w.rem.toNat - n.toNat) := by
        rw [chunksFrom, if_neg ne, hn]
      rw [chunks, chunkSegments] at env ⊢
      simp only [segmentBytes] at env
      obtain ⟨polled, env1, trace1⟩ := Bus.frame_zeros (hp := s.hp) env
      obtain ⟨-, env2, trace2⟩ := Bus.frame_zeros (hp := s.hp) env1
      obtain ⟨-, env3, trace3⟩ := Bus.frame_zeros (hp := s.hp) env2
      have ready : s.pollsReady = true := by
        rw [pollsReady_iff, polled_eq, polled]
        simp [responseFrame]
      have sent : s.passBytes = (s.wbuf.drop p).take n.toNat := by
        rw [passBytes_eq (by show s.w.pos.toNat + n.toNat ≤ _; omega), posNat]
      let s1 := writePass s
      have bus : s1.bus = (((s.bus.frame s.hp (responseFrame s.cfg.opRdsr1 1)).2.frame s.hp [s.cfg.opWren]).2.frame
          s.hp prog).2 := by
        rw [writePass_bus, sent, addr]
        rfl
      have rem1 : s1.w.rem.toNat = s.w.rem.toNat - n.toNat := by
        show (s.w.rem - n.setWidth 32).toNat = _
        rw [BitVec.toNat_sub_of_le (by rw [BitVec.le_def, hn32]; exact le.2), hn32]
      have advance : ∀ {x : U32} {k : Nat}, x = BitVec.ofNat 32 k → x + n.setWidth 32 = BitVec.ofNat 32 (k + n.toNat) := by
        rintro x k rfl
        apply BitVec.eq_of_toNat_eq
        simp only [BitVec.toNat_add, BitVec.toNat_ofNat, hn32]
        omega
      obtain ⟨t, run, outside, env', trace'⟩ := ih (a + n.toNat) (p + n.toNat) s1 (by omega) (advance addr) (advance pos)
        (by omega) (by rw [rem1]; show _ ≤ s.wbuf.length; omega) (by rw [rem1, bus]; exact env3)
      refine ⟨t, by rw [runTasks_writeLoop_pass h ready, run], outside, env', ?_⟩
      rw [trace', bus, trace3, trace2, trace1, rem1]
      simp only [segmentEvents_cons, List.append_assoc]
      rfl

/-- Settles O33: the run against zeros is `runTasks_writeLoop_zeros` from the start of the write; the clauses about the
loop are `runTasks_writeLoop_done` and `runTasks_writeLoop_pass`. -/
theorem writeBufferSendsEveryChunk : Obligations.WriteBufferSendsEveryChunk := by
  refine ⟨fun a n s rest => ?_, fun a n s busy init todo => ?_, fun len s todo rem => ?_,
    fun len s todo rem ready => ?_⟩
  · intro segs busy init supplied env
    have hn := n.isLt
    have answers : s.bus.env.Answers (List.replicate (8 * segmentBytes segs) false) (.draws rest) := by
      rw [env]
      exact .draws _ rest
    obtain ⟨t, run, outside, env', trace⟩ := runTasks_writeLoop_zeros n n.toNat a.toNat 0 (startWrite a n s.accepted)
      (.draws rest) le_rfl (by simp [startWrite]) rfl (by show 0 + n.toNat < _; omega)
      (by show 0 + n.toNat ≤ s.wbuf.length; omega) answers
    refine ⟨finish n t, by rw [exec_wrbuf_accepted a n busy init, run], ?_⟩
    rw [outside] at trace env' ⊢
    rw [finish_accepted n busy]
    · exact ⟨rfl, rfl, rfl, rfl, rfl, rfl, rfl, rfl, trace, env'⟩
    · rfl
  · rw [exec_wrbuf_accepted a n busy init, resume]
    show _ = Host.Outcome.next (runTasks [.writeLoop n] { s with
      h := { s.h with busy := true }, w := { s.w with addr := a, pos := 0, rem := n }, todo := [] })
    rw [← todo]
    rfl
  · rw [resume, todo, runTasks_writeLoop_done (s := { s with todo := [] }) rem]
    rfl
  · obtain ⟨r, b1, r', b2, rx, polled, enabled, programmed⟩ := writePass_spec s
    refine ⟨r, b1, r', b2, s.passBytes, rx, (writePass s).bus, ?_, passBytes_length s,
      fun k => passBytes_getElem? s, polled, enabled, programmed⟩
    have ready0 : ({ s with todo := [] } : State).pollsReady = true := by rw [pollsReady_setTodo, ready]
    rw [resume, todo, runTasks_writeLoop_pass (s := { s with todo := [] }) rem ready0, writePass_setTodo, writePass_eq,
      resume]

/-- Settles O34: inside one page the first chunk is the whole write. -/
theorem writeBufferWithinAPage : Obligations.WriteBufferWithinAPage := by
  intro a n s busy init page
  refine ⟨fun h => ?_, fun h ready => ?_⟩
  · subst h
    rw [exec_wrbuf_accepted a 0 busy init, runTasks_writeLoop_done rfl, finish_accepted _ busy] <;> rfl
  · let s0 := startWrite a n s.accepted
    have polled0 : s0.polled = s.polled := by rw [startWrite_polled, accepted_polled]
    have ready0 : s0.pollsReady = true := by rw [startWrite_pollsReady, accepted_pollsReady, ready]
    have chunk : chunkSize a n = n.setWidth 9 := by
      apply BitVec.eq_of_toNat_eq
      rw [(chunkSizeFollowsTheLaw a n).1, BitVec.toNat_setWidth]
      omega
    have whole : (chunkSize a n).setWidth 32 = n := by
      apply BitVec.eq_of_toNat_eq
      rw [chunkSize_setWidth_toNat, (chunkSizeFollowsTheLaw a n).1]
      omega
    have len : (chunkSize a n).toNat = n.toNat := by rw [← chunkSize_setWidth_toNat, whole]
    have last : (writePass s0).w.rem = 0 := by
      show n - (chunkSize a n).setWidth 32 = 0
      rw [whole, BitVec.sub_self]
      rfl
    obtain ⟨r, b1, r', b2, rx, polled, enabled, programmed⟩ := writePass_spec s0
    rw [polled0] at polled
    refine ⟨r, b1, r', b2, s0.passBytes, rx, (writePass s0).bus, ?_, (passBytes_length s0).trans len,
      fun k hk hb => ?_, polled, enabled, programmed⟩
    · rw [exec_wrbuf_accepted a n busy init, runTasks_writeLoop_pass h ready0, runTasks_writeLoop_done last,
        finish_accepted n busy]
      · rw [writePass_eq, polled0]
        show Host.Outcome.next ({ s with
          bus := (writePass s0).bus, resp := [s.polled]
          w := { s.w with
            status := s.polled, chunk := chunkSize a n, addr := a + (chunkSize a n).setWidth 32
            pos := 0 + (chunkSize a n).setWidth 32, rem := n - (chunkSize a n).setWidth 32 }
          rspCode := .done, rspVal := n, rsps := s.rsps ++ [⟨.done, n⟩] } : State) = _
        rw [whole, chunk, BitVec.sub_self, show (0 : U32) + n = n from BitVec.zero_add n]
        rfl
      · rfl
    · have := passBytes_getElem? s0 (k := k) (by show k < (chunkSize a n).toNat; omega)
        (by show 0 + k < s.wbuf.length; omega)
      rw [this]
      exact congrArg (s.wbuf[·]?) (Nat.zero_add k)

end Sys2Proof.Machine
end

section
/-! SUPPORT. Bring-up (R162, R163, R226): `BEGIN` against a chip that answers, at its waits, and without a chip (R206, R236). -/

namespace Sys2Proof.Machine

/-! ### The pieces of bring-up against answers that do not depend on the events -/

theorem readStatus1_answers {s : State} {x st : Byte} {vs : List Bool} {e' : Env}
    (h : s.bus.env.Answers (wireBits [x, st] ++ vs) e') :
    s.polled = st ∧ (readStatus1 s).bus.env.Answers vs e' ∧
      (readStatus1 s).bus.trace = s.bus.trace ++ frameEvents s.hp [s.cfg.opRdsr1, 0xFF] [x, st] := by
  obtain ⟨received, env, trace⟩ := Bus.frame_answers (hp := s.hp) (tx := responseFrame s.cfg.opRdsr1 1)
    (rx := [x, st]) rfl h
  exact ⟨by rw [polled_eq, received]; rfl, env, trace⟩

theorem polled2_eq (s : State) :
    s.polled2 = ((s.bus.frame s.hp (responseFrame s.cfg.opRdsr2 1)).1.drop 1).getD 0 0 := rfl

theorem readStatus2_answers {s : State} {x st : Byte} {vs : List Bool} {e' : Env}
    (h : s.bus.env.Answers (wireBits [x, st] ++ vs) e') :
    s.polled2 = st ∧ (readStatus2 s).bus.env.Answers vs e' ∧
      (readStatus2 s).bus.trace = s.bus.trace ++ frameEvents s.hp [s.cfg.opRdsr2, 0xFF] [x, st] := by
  obtain ⟨received, env, trace⟩ := Bus.frame_answers (hp := s.hp) (tx := responseFrame s.cfg.opRdsr2 1)
    (rx := [x, st]) rfl h
  exact ⟨by rw [polled2_eq, received]; rfl, env, trace⟩

theorem chipReset_answers {s : State} {x y : Byte} {vs : List Bool} {e' : Env}
    (h : s.bus.env.Answers (wireBits [x] ++ (wireBits [y] ++ vs)) e') :
    (chipReset s).bus.env.Answers vs e' ∧
      (chipReset s).bus.trace = s.bus.trace ++ frameEvents s.hp [s.cfg.opRsten] [x] ++
        frameEvents s.hp [s.cfg.opRst] [y] ++ [.dly 30] := by
  obtain ⟨-, env1, trace1⟩ := Bus.frame_answers (hp := s.hp) (tx := [s.cfg.opRsten]) (rx := [x]) rfl h
  obtain ⟨-, env2, trace2⟩ := Bus.frame_answers (hp := s.hp) (tx := [s.cfg.opRst]) (rx := [y]) rfl env1
  rw [trace1] at trace2
  exact ⟨Bus.emit_answers env2 _, congrArg (· ++ [Event.dly 30]) trace2⟩

theorem Bus.emitAll_answers {b : Bus} {vs : List Bool} {e' : Env} (h : b.env.Answers vs e') (evs : List Event) :
    (b.emitAll evs).env.Answers vs e' := by
  induction evs generalizing b with
  | nil => exact h
  | cons ev evs ih => exact ih (Bus.emit_answers h ev)

/-- Everything before the first loop: the configuration, the identification frame, the ID and the half-period stored. -/
theorem bringUp_answers {hp : U32} {s : State} {x i0 i1 i2 : Byte} {vs : List Bool} {e' : Env}
    (h : s.bus.env.Answers (wireBits [x, i0, i1, i2] ++ vs) e') :
    (bringUp hp s).h = { s.h with clockHalfPeriod := hp, jedec := ⟨i0, i1, i2⟩ } ∧
      (bringUp hp s).bus.env.Answers vs e' ∧
      (bringUp hp s).bus.trace = s.bus.trace ++ configEvents ++
        frameEvents hp [s.cfg.opRdid, 0xFF, 0xFF, 0xFF] [x, i0, i1, i2] := by
  let s0 := configureLines { s with h := { s.h with clockHalfPeriod := hp } }
  have env0 : s0.bus.env.Answers (wireBits [x, i0, i1, i2] ++ vs) e' := Bus.emitAll_answers h configEvents
  have trace0 : s0.bus.trace = s.bus.trace ++ configEvents :=
    (configureLines_spec { s with h := { s.h with clockHalfPeriod := hp } }).trace
  obtain ⟨received, env, trace⟩ := Bus.frame_answers (hp := hp) (tx := responseFrame s.cfg.opRdid 3)
    (rx := [x, i0, i1, i2]) rfl env0
  have resp : (bringUp hp s).resp = [i0, i1, i2] := congrArg (List.drop 1) received
  refine ⟨?_, env, trace.trans (by rw [trace0]; rfl)⟩
  show { s.h with clockHalfPeriod := hp, jedec := Jedec.ofBytes (bringUp hp s).resp } = _
  rw [resp]
  rfl

/-! ### The lines after bring-up (R35, R163) -/

theorem bringUp_idle (hp : U32) (s : State) : (bringUp hp s).bus.line.Idle := by
  obtain ⟨r, resp, -, -, -, emitted⟩ := bringUp_emits hp s
  rw [emitted.line, segmentEvents_cons, segmentEvents_cons, segmentEvents_nil, List.append_nil, List.foldl_append]
  exact Lines.idle_after_frame (Lines.idle_after_config _)

/-- Settles O51: the lines are idle before the first loop, and the tasks of `BEGIN` keep them so. -/
theorem beginLeavesTheLinesIdle : Obligations.BeginLeavesTheLinesIdle := fun hp s busy =>
  ⟨_, exec_beginOp_accepted hp busy, (runTasks_pieces _ _).idle (bringUp_idle hp s.accepted)⟩

/-- After a status frame data-out holds the last bit of the fill byte, which is 1. -/
theorem Lines.mosi_after_statusFrame (hp : U32) (op : Byte) {x st : Byte} (y : Lines) :
    ((frameEvents hp [op, 0xFF] [x, st]).foldl Lines.after y).mosi.level = some true := by
  simp [frameEvents, exchangeEvents, Lines.after_byte, Lines.after, Lines.set]

/-! ### `BEGIN` poll by poll -/

theorem wipClear_eq {st : Byte} {v : Bool} (h : st.getLsbD 0 = v) : wipClear st = !v := by rw [wipClear, h]

theorem susClear_eq {st : Byte} {v : Bool} (h : st.getLsbD 7 = v) : susClear st = !v := by rw [susClear, h]

/-- The state of `BEGIN` after the poll of its first loop. -/
def begun1 (hp : U32) (s : State) : State := readStatus1 (bringUp hp s.accepted)
/-- The state of `BEGIN` after the poll of its second loop. -/
def begun2 (hp : U32) (s : State) : State := readStatus2 (begun1 hp s)
/-- The state of `BEGIN` after the chip reset. -/
def begun3 (hp : U32) (s : State) : State := chipReset (begun2 hp s)

/-- The state of `BEGIN` after the poll of its last wait. -/
def begun4 (hp : U32) (s : State) : State := readStatus1 (begun3 hp s)

/-- What `BEGIN` leaves alone until its last poll is answered, told from the state in which it was accepted. -/
structure State.BeginKeeps (s t : State) : Prop where
  cfg : t.cfg = s.cfg
  todo : t.todo = s.todo
  rspCode : t.rspCode = s.rspCode
  rspVal : t.rspVal = s.rspVal
  rsps : t.rsps = s.rsps
  rbuf : t.rbuf = s.rbuf
  wbuf : t.wbuf = s.wbuf
  host : t.host = s.host
  resets : t.resets = s.resets

namespace State.BeginKeeps

theorem trans {a b c : State} (h : a.BeginKeeps b) (k : b.BeginKeeps c) : a.BeginKeeps c :=
  ⟨k.cfg.trans h.cfg, k.todo.trans h.todo, k.rspCode.trans h.rspCode, k.rspVal.trans h.rspVal, k.rsps.trans h.rsps,
    k.rbuf.trans h.rbuf, k.wbuf.trans h.wbuf, k.host.trans h.host, k.resets.trans h.resets⟩

theorem accepted (s : State) : s.BeginKeeps s.accepted :=
  ⟨rfl, rfl, rfl, rfl, rfl, rfl, rfl, rfl, rfl⟩
theorem bringUp (hp : U32) (s : State) : s.BeginKeeps (bringUp hp s) :=
  ⟨rfl, rfl, rfl, rfl, rfl, rfl, rfl, rfl, rfl⟩
theorem readStatus1 (s : State) : s.BeginKeeps (readStatus1 s) :=
  ⟨rfl, rfl, rfl, rfl, rfl, rfl, rfl, rfl, rfl⟩
theorem readStatus2 (s : State) : s.BeginKeeps (readStatus2 s) :=
  ⟨rfl, rfl, rfl, rfl, rfl, rfl, rfl, rfl, rfl⟩
theorem chipReset (s : State) : s.BeginKeeps (chipReset s) :=
  ⟨rfl, rfl, rfl, rfl, rfl, rfl, rfl, rfl, rfl⟩

end State.BeginKeeps

theorem begun1_keeps (hp : U32) (s : State) : s.BeginKeeps (begun1 hp s) :=
  ((State.BeginKeeps.accepted s).trans (.bringUp hp _)).trans (.readStatus1 _)

theorem begun2_keeps (hp : U32) (s : State) : s.BeginKeeps (begun2 hp s) := (begun1_keeps hp s).trans (.readStatus2 _)

theorem begun3_keeps (hp : U32) (s : State) : s.BeginKeeps (begun3 hp s) := (begun2_keeps hp s).trans (.chipReset _)

theorem begun4_keeps (hp : U32) (s : State) : s.BeginKeeps (begun4 hp s) := (begun3_keeps hp s).trans (.readStatus1 _)

section
variable {hp : U32} {s : State} {x0 i0 i1 i2 x1 st1 x2 st2 x3 x4 x5 st3 : Byte} {vs : List Bool} {e' : Env}

/-- The first poll of `BEGIN`. -/
theorem begun1_answers (h : s.bus.env.Answers (wireBits [x0, i0, i1, i2] ++ (wireBits [x1, st1] ++ vs)) e') :
    (begun1 hp s).h = { s.h with clockHalfPeriod := hp, jedec := ⟨i0, i1, i2⟩, busy := true } ∧
      (bringUp hp s.accepted).polled = st1 ∧ (begun1 hp s).bus.env.Answers vs e' ∧
      (begun1 hp s).bus.trace = s.bus.trace ++ configEvents ++
        frameEvents hp [s.cfg.opRdid, 0xFF, 0xFF, 0xFF] [x0, i0, i1, i2] ++
        frameEvents hp [s.cfg.opRdsr1, 0xFF] [x1, st1] := by
  obtain ⟨handle, env, trace⟩ := bringUp_answers (s := s.accepted) (hp := hp) h
  obtain ⟨polled, env1, trace1⟩ := readStatus1_answers env
  rw [State.hp, handle, trace, bringUp_cfg] at trace1
  exact ⟨by rw [begun1, readStatus1_h, handle]; rfl, polled, env1, trace1⟩

/-- The second poll. -/
theorem begun2_answers
    (h : s.bus.env.Answers (wireBits [x0, i0, i1, i2] ++ (wireBits [x1, st1] ++ (wireBits [x2, st2] ++ vs))) e') :
    (begun2 hp s).h = { s.h with clockHalfPeriod := hp, jedec := ⟨i0, i1, i2⟩, busy := true } ∧
      (begun1 hp s).polled2 = st2 ∧ (begun2 hp s).bus.env.Answers vs e' ∧
      (begun2 hp s).bus.trace = s.bus.trace ++ configEvents ++
        frameEvents hp [s.cfg.opRdid, 0xFF, 0xFF, 0xFF] [x0, i0, i1, i2] ++
        frameEvents hp [s.cfg.opRdsr1, 0xFF] [x1, st1] ++ frameEvents hp [s.cfg.opRdsr2, 0xFF] [x2, st2] := by
  obtain ⟨handle, -, env, trace⟩ := begun1_answers (hp := hp) h
  obtain ⟨polled, env1, trace1⟩ := readStatus2_answers env
  rw [State.hp, handle, trace, (begun1_keeps hp s).cfg] at trace1
  exact ⟨by rw [begun2, readStatus2_h, handle], polled, env1, trace1⟩

/-- The chip reset and the last poll. -/
theorem begun4_answers
    (h : s.bus.env.Answers (wireBits [x0, i0, i1, i2, x1, st1, x2, st2, x3, x4, x5, st3] ++ vs) e') :
    (bringUp hp s.accepted).polled = st1 ∧ (begun1 hp s).polled2 = st2 ∧ (begun3 hp s).polled = st3 ∧
      (begun4 hp s).h = { s.h with clockHalfPeriod := hp, jedec := ⟨i0, i1, i2⟩, busy := true } ∧
      (begun4 hp s).bus.env.Answers vs e' ∧
      (begun4 hp s).bus.trace = s.bus.trace ++ configEvents ++
        frameEvents hp [s.cfg.opRdid, 0xFF, 0xFF, 0xFF] [x0, i0, i1, i2] ++
        frameEvents hp [s.cfg.opRdsr1, 0xFF] [x1, st1] ++ frameEvents hp [s.cfg.opRdsr2, 0xFF] [x2, st2] ++
        frameEvents hp [s.cfg.opRsten] [x3] ++ frameEvents hp [s.cfg.opRst] [x4] ++ [.dly 30] ++
        frameEvents hp [s.cfg.opRdsr1, 0xFF] [x5, st3] := by
  have h : s.bus.env.Answers (wireBits [x0, i0, i1, i2] ++ (wireBits [x1, st1] ++ (wireBits [x2, st2] ++
      (wireBits [x3] ++ (wireBits [x4] ++ (wireBits [x5, st3] ++ vs)))))) e' := by
    simpa [wireBits] using h
  obtain ⟨-, polled1, -, -⟩ := begun1_answers (hp := hp) h
  obtain ⟨handle, polled2, env, trace⟩ := begun2_answers (hp := hp) h
  obtain ⟨env3, trace3⟩ := chipReset_answers env
  obtain ⟨polled3, env4, trace4⟩ := readStatus1_answers (s := begun3 hp s) env3
  have handle3 : (begun3 hp s).h = _ := (chipReset_h (begun2 hp s)).trans handle
  rw [State.hp, handle3, (begun3_keeps hp s).cfg, begun3, trace3, State.hp, handle, trace, (begun2_keeps hp s).cfg]
    at trace4
  exact ⟨polled1, polled2, polled3, by rw [begun4, readStatus1_h, handle3], env4, trace4⟩

end

/-- When both polls pass, `BEGIN` reaches its last wait. -/
theorem runTasks_begin_gate {hp : U32} {s : State} {st1 st2 : Byte} (h1 : (bringUp hp s.accepted).polled = st1)
    (h2 : (begun1 hp s).polled2 = st2) (wip : st1.getLsbD 0 = false) (sus : st2.getLsbD 7 = false) :
    runTasks beginTasks (bringUp hp s.accepted) = runTasks [.gate, .finishBegin] (begun3 hp s) := by
  have clear1 : wipClear (bringUp hp s.accepted).polled = true := by rw [h1, wipClear_eq wip]; rfl
  have clear2 : susClear (begun1 hp s).polled2 = true := by rw [h2, susClear_eq sus]; rfl
  rw [beginTasks, runTasks_goOn (pollWip_clear clear1), ← begun1, runTasks_goOn (pollSus_clear clear2), ← begun2,
    runTasks_goOn rfl, ← begun3]

/-- The lines at the last wait. -/
theorem begun4_idle (hp : U32) (s : State) : (begun4 hp s).bus.line.Idle := by
  have pieces : (bringUp hp s.accepted).DoesPieces (begun4 hp s) :=
    (((readStatus1_pieces _).trans (readStatus2_pieces _)).trans (chipReset_pieces _)).trans (readStatus1_pieces _)
  exact pieces.idle (bringUp_idle hp s.accepted)

/-- Settles O27: the polls pass, so `BEGIN` ends behind its last one. -/
theorem beginBringsAReadyChipUp : Obligations.BeginBringsAReadyChipUp := by
  intro hp s x0 i0 i1 i2 x1 st1 x2 st2 x3 x4 x5 st3 rest busy env wip sus ready
  have answers : s.bus.env.Answers (wireBits [x0, i0, i1, i2, x1, st1, x2, st2, x3, x4, x5, st3] ++ [])
      (.draws rest) := by
    rw [env, List.append_nil]
    exact .draws _ rest
  obtain ⟨polled1, polled2, polled3, handle, env', trace⟩ := begun4_answers (hp := hp) answers
  have keeps := begun4_keeps hp s
  have ready3 : (begun3 hp s).pollsReady = true := by
    rw [State.pollsReady, polled3, (begun3_keeps hp s).cfg]
    exact ready
  have mosi : (begun4 hp s).bus.line.mosi.level = some true := by
    obtain ⟨r, framed⟩ := readStatus1_spec (begun3 hp s)
    rw [begun4, framed.2.line]
    exact Lines.mosi_after_statusFrame _ _ _
  let ended : State := { begun4 hp s with h := { (begun4 hp s).h with initialized := true } }
  refine ⟨finish 1 ended, ?_, ?_, rfl, rfl, congrArg (· ++ [Rsp.mk .done 1]) keeps.rsps, keeps.todo, trace,
    begun4_idle hp s, mosi, env'.eq, keeps.cfg, keeps.rbuf, keeps.wbuf⟩
  · rw [exec_beginOp_accepted hp busy, runTasks_begin_gate polled1 polled2 wip sus, runTasks_gate_ready _ ready3,
      ← readStatus1_afterPoll, ← begun4]
    rfl
  · show { (begun4 hp s).h with initialized := true, busy := false } = _
    rw [handle]

/-! ### `BEGIN` at its waits -/

/-- The state after a poll of the secondary status register (R153). -/
def afterPoll2 (s : State) : State :=
  { s with
    bus := (s.bus.frame s.hp (responseFrame s.cfg.opRdsr2 1)).2
    resp := [s.polled2]
    w := { s.w with status := s.polled2 } }

theorem readStatus2_afterPoll2 (s : State) : readStatus2 s = afterPoll2 s := by
  rw [readStatus2_eq, readStatus2_bus]
  rfl

theorem polled2_setTodo (ts : List Task) (s : State) : State.polled2 { s with todo := ts } = s.polled2 :=
  polled2_congr rfl rfl rfl

theorem afterPoll2_setTodo (ts : List Task) (s : State) :
    afterPoll2 { s with todo := ts } = { afterPoll2 s with todo := ts } := by
  simp only [afterPoll2, polled2_setTodo, State.hp]

theorem afterPoll2_tick (s : State) : afterPoll2 s.tick = (afterPoll2 s).tick := by
  simp only [afterPoll2, State.tick_polled2]
  rfl

theorem afterPoll2_spec (s : State) :
    ∃ r, Bus.Framed s.hp (responseFrame s.cfg.opRdsr2 1) [r, s.polled2] s.bus (afterPoll2 s).bus := by
  have h := polled2_spec s
  rwa [readStatus2_afterPoll2] at h

/-- `begin` at its first loop: a poll, and it still waits, or goes on. -/
theorem resume_pollWip {s : State} {ts : List Task} (h : s.todo = .pollWip :: ts) :
    (s.polled.getLsbD 0 = true → resume s = afterPoll s) ∧
      (s.polled.getLsbD 0 = false → resume s = resume { afterPoll s with todo := ts }) := by
  refine ⟨fun set => ?_, fun clear => ?_⟩
  · have wait := pollWip_set (s := { s with todo := [] }) (by rw [polled_setTodo, wipClear_eq set]; rfl)
    rw [readStatus1_afterPoll, afterPoll_setTodo] at wait
    rw [resume_wait h wait rfl]
    rfl
  · have go := pollWip_clear (s := { s with todo := [] }) (by rw [polled_setTodo, wipClear_eq clear]; rfl)
    rw [readStatus1_afterPoll, afterPoll_setTodo] at go
    rw [resume_goOn h go rfl]

/-- `begin` at its second loop. -/
theorem resume_pollSus {s : State} {ts : List Task} (h : s.todo = .pollSus :: ts) :
    (s.polled2.getLsbD 7 = true → resume s = afterPoll2 s) ∧
      (s.polled2.getLsbD 7 = false → resume s = resume { afterPoll2 s with todo := ts }) := by
  have sus (v : Bool) (hv : s.polled2.getLsbD 7 = v) :
      susClear (readStatus2 { s with todo := [] }).w.status = !v := by
    rw [← susClear_eq hv, ← polled2_setTodo []]
    rfl
  refine ⟨fun set => ?_, fun clear => ?_⟩
  · have wait := pollSus_set (sus true set)
    rw [readStatus2_afterPoll2, afterPoll2_setTodo] at wait
    rw [resume_wait h wait rfl]
    rfl
  · have go := pollSus_clear (sus false clear)
    rw [readStatus2_afterPoll2, afterPoll2_setTodo] at go
    rw [resume_goOn h go rfl]

/-- The bus after enable-reset, reset and the 30 microseconds (R162). -/
def State.resetBus (s : State) : Bus :=
  ((s.bus.frame s.hp [s.cfg.opRsten]).2.frame s.hp [s.cfg.opRst]).2.emit (.dly Config.resetDelayUs)

theorem chipReset_eq (s : State) : chipReset s = { s with bus := s.resetBus } := rfl

theorem resetBus_spec (s : State) :
    ∃ r1 b1 r2 b2, Bus.Framed s.hp [s.cfg.opRsten] [r1] s.bus b1 ∧ Bus.Framed s.hp [s.cfg.opRst] [r2] b1 b2 ∧
      b2.Emitted s.resetBus [.dly 30] := by
  obtain ⟨r1, enabled⟩ := runCommand_spec s.cfg.opRsten s
  obtain ⟨r2, reset⟩ := runCommand_spec s.cfg.opRst (runCommand s.cfg.opRsten s)
  exact ⟨r1, _, r2, _, enabled, reset, Bus.emitted_dly _ _⟩

/-- The reset between the second loop and the last wait. -/
theorem resume_chipReset {s : State} {ts : List Task} (h : s.todo = .chipReset :: ts) :
    resume s = resume { s with bus := s.resetBus, todo := ts } := by
  have go : runTask .chipReset { s with todo := [] } = .goOn { s with bus := s.resetBus, todo := [] } :=
    congrArg Progress.goOn (chipReset_eq _)
  rw [resume_goOn h go rfl]

/-- Settles O28: where `BEGIN` waits is where a poll does not pass (`begun1_answers`, `begun2_answers`,
`begun4_answers`); a later pass is `resume_pollWip` or `resume_pollSus`. -/
theorem beginPollsWithoutYield : Obligations.BeginPollsWithoutYield := by
  refine ⟨?_, ?_, ?_, ?_, ?_⟩
  · intro hp s x0 i0 i1 i2 x1 st1 rest busy env wip
    have answers : s.bus.env.Answers (wireBits [x0, i0, i1, i2] ++ (wireBits [x1, st1] ++ [])) (.draws rest) := by
      rw [env]
      simpa [wireBits] using Env.Answers.draws (wireBits [x0, i0, i1, i2, x1, st1]) rest
    obtain ⟨handle, polled, env', trace⟩ := begun1_answers (hp := hp) answers
    have keeps := begun1_keeps hp s
    have wait := pollWip_set (s := bringUp hp s.accepted) (by rw [polled, wipClear_eq wip]; rfl)
    refine ⟨{ begun1 hp s with todo := beginTasks ++ (begun1 hp s).todo }, ?_, handle, ?_, keeps.rsps, trace, env'.eq⟩
    · rw [exec_beginOp_accepted hp busy, beginTasks, runTasks_wait wait]
      rfl
    · exact congrArg (beginTasks ++ ·) keeps.todo
  · intro hp s x0 i0 i1 i2 x1 st1 x2 st2 rest busy env wip sus
    have answers : s.bus.env.Answers (wireBits [x0, i0, i1, i2] ++ (wireBits [x1, st1] ++ (wireBits [x2, st2] ++ [])))
        (.draws rest) := by
      rw [env]
      simpa [wireBits] using Env.Answers.draws (wireBits [x0, i0, i1, i2, x1, st1, x2, st2]) rest
    obtain ⟨-, polled, -, -⟩ := begun1_answers (hp := hp) answers
    obtain ⟨handle, polled2, env', trace⟩ := begun2_answers (hp := hp) answers
    have keeps := begun2_keeps hp s
    have go := pollWip_clear (s := bringUp hp s.accepted) (by rw [polled, wipClear_eq wip]; rfl)
    have wait := pollSus_set (s := begun1 hp s) (by rw [← State.polled2, polled2, susClear_eq sus]; rfl)
    refine ⟨{ begun2 hp s with todo := beginTasks.drop 1 ++ (begun2 hp s).todo }, ?_, handle, ?_, keeps.rsps, trace,
      env'.eq⟩
    · rw [exec_beginOp_accepted hp busy, beginTasks, runTasks_goOn go, ← begun1, runTasks_wait wait]
      rfl
    · exact congrArg (beginTasks.drop 1 ++ ·) keeps.todo
  · intro hp s x0 i0 i1 i2 x1 st1 x2 st2 x3 x4 x5 st3 rest busy env wip sus notReady
    have answers : s.bus.env.Answers (wireBits [x0, i0, i1, i2, x1, st1, x2, st2, x3, x4, x5, st3] ++ [])
        (.draws rest) := by
      rw [env, List.append_nil]
      exact .draws _ rest
    obtain ⟨polled1, polled2, polled3, handle, env', trace⟩ := begun4_answers (hp := hp) answers
    have keeps := begun4_keeps hp s
    have notReady3 : (begun3 hp s).pollsReady = false :=
      pollsReady_eq_false (by rw [polled3, (begun3_keeps hp s).cfg]; exact notReady)
    refine ⟨{ (begun4 hp s).emit .yld with todo := .gate :: ([.finishBegin] ++ (begun3 hp s).todo) }, ?_, handle, ?_,
      keeps.rsps, keeps.rspCode, keeps.rspVal, polled3, congrArg (· ++ [Event.yld]) trace, begun4_idle hp s, ?_,
      keeps.cfg, keeps.rbuf, keeps.wbuf⟩
    · have waits := runTasks_gate_notReady [.finishBegin] notReady3
      rw [← readStatus1_afterPoll, ← begun4] at waits
      rw [exec_beginOp_accepted hp busy, runTasks_begin_gate polled1 polled2 wip sus, waits]
    · exact congrArg ([.gate, .finishBegin] ++ ·) (begun3_keeps hp s).todo
    · exact (Bus.emit_answers env' .yld).eq
  · intro s ts undisturbed todo
    obtain ⟨r, framed⟩ := afterPoll_spec s
    obtain ⟨waits, goesOn⟩ := resume_pollWip (s := s.tick) todo
    rw [State.tick_polled, afterPoll_tick] at waits goesOn
    refine ⟨r, _, framed, fun h => ?_, fun h => ?_⟩
    · rw [step_undisturbed undisturbed, waits h]
      rfl
    · rw [step_undisturbed undisturbed, goesOn h]
      rfl
  · intro s ts undisturbed todo
    obtain ⟨r, framed⟩ := afterPoll2_spec s
    obtain ⟨waits, goesOn⟩ := resume_pollSus (s := s.tick) todo
    rw [State.tick_polled2, afterPoll2_tick] at waits goesOn
    refine ⟨r, _, framed, fun h => ?_, fun h => ?_, fun ts' hts h => ?_⟩
    · rw [step_undisturbed undisturbed, waits h]
      rfl
    · rw [step_undisturbed undisturbed, goesOn h]
      rfl
    · obtain ⟨r1, b1, r2, b2, enabled, reset, delayed⟩ := resetBus_spec (afterPoll2 s)
      refine ⟨r1, b1, r2, b2, (afterPoll2 s).resetBus, enabled, reset, delayed, ?_⟩
      rw [step_undisturbed undisturbed, goesOn h, resume_chipReset (ts := ts') hts]
      rfl

/-! ### Runs of steps -/

/-- One step at the front of a run, on any machine behind the host's interface. -/
theorem run_succ {M : Host.Core} {s t : M.State} (h : M.step s = .next t) (k : Nat) :
    M.run (k + 1) s = M.run k t := by
  rw [Host.Core.run, h]

theorem core_run_succ {s t : State} (h : step s = .next t) (k : Nat) :
    Sys2Proof.core.run (k + 1) s = Sys2Proof.core.run k t := run_succ (M := Sys2Proof.core) h k

/-- What every step keeps holds after any number of steps, and no step of them stops. -/
theorem core_run_keeps {p : State → Prop} (keeps : ∀ s, p s → ∃ t, step s = .next t ∧ p t) (k : Nat) {s : State}
    (h : p s) : ∃ t, Sys2Proof.core.run k s = .next t ∧ p t := by
  induction k generalizing s with
  | zero => exact ⟨s, rfl, h⟩
  | succ k ih =>
    obtain ⟨t, e, ht⟩ := keeps s h
    rw [core_run_succ e]
    exact ih ht

@[simp] theorem takeBuffers_none (s : State) : takeBuffers none none s = s := by
  unfold takeBuffers
  split <;> rfl

/-- A step that takes a command word with no buffers beside it, the block being free. -/
theorem step_command {s : State} {w : CmdWord} {blocking : Bool} {rest : List Request} (due : s.resetDue = none)
    (host : s.host = .command w none none blocking :: rest) (free : s.inProgress = false) :
    step s = exec (decodeCommand w) { s.tick with host := rest } := by
  rw [stepRunsTheDecodedInstruction.1 s w none none blocking rest due host (.inr free), takeBuffers_none]

/-! ### No chip (R206, R236) -/

/-- With no chip a frame receives ones, and there still is no chip. -/
theorem ones_of_absent (n : Nat) (vs : List Bool) (h : Env.Answers .absent vs .absent) :
    Env.Answers .absent (wireBits (List.replicate n 0xFF) ++ vs) .absent := by
  induction n with
  | zero => exact h
  | succ n ih =>
    rw [List.replicate_succ, wireBits_cons, List.append_assoc]
    show Env.Answers .absent (List.replicate 8 true ++ _) .absent
    simpa using ((((((((ih.pulledUp).pulledUp).pulledUp).pulledUp).pulledUp).pulledUp).pulledUp).pulledUp)

/-- `BEGIN` hangs at its first loop, in front of no chip, as it has since it was accepted in `s`. -/
structure Hung (s t : State) : Prop where
  env : t.bus.env = .absent
  busy : t.h.busy = true
  initialized : t.h.initialized = s.h.initialized
  rsps : t.rsps = s.rsps
  jedec : t.h.jedec = ⟨0xFF, 0xFF, 0xFF⟩
  todo : t.todo = beginTasks
  idle : t.bus.line.Idle
  host : t.host = []
  resets : t.resets = []

/-- Every step is one more poll that reads all ones, WIP among them. -/
theorem Hung.step {s t : State} (h : Hung s t) : ∃ u, step t = .next u ∧ Hung s u := by
  have answers : t.bus.env.Answers (wireBits [0xFF, 0xFF] ++ []) .absent := by
    rw [h.env]
    exact ones_of_absent 2 [] .none
  obtain ⟨polled, env, -⟩ := readStatus1_answers answers
  have idle := (readStatus1_pieces t).idle h.idle
  rw [readStatus1_afterPoll] at env idle
  have waits := (resume_pollWip (s := t.tick) h.todo).1 (by rw [State.tick_polled, polled]; rfl)
  rw [afterPoll_tick] at waits
  refine ⟨(afterPoll t).tick, ?_, ?_⟩
  · rw [step_undisturbed ⟨State.resetDue_nil h.resets, .inl h.host⟩, waits]
  · exact ⟨env.eq, h.busy, h.initialized, h.rsps, h.jedec, h.todo, idle, h.host, congrArg List.tail h.resets⟩

/-- Settles O52: the first step leaves `BEGIN` at its first loop, and every later one keeps it there (`Hung.step`). -/
theorem beginHangsWithoutAChip : Obligations.BeginHangsWithoutAChip := by
  intro s hp k env busy todo resets host
  have free : s.inProgress = false := by rw [State.inProgress, busy, todo]; rfl
  let s0 : State := { s.tick with host := [] }
  have first : step s = exec (.beginOp hp) s0 := by
    rw [step_command (State.resetDue_nil resets) host free, decodeCommand, cmdOp_commandWord, cmdArg_commandWord]
    rfl
  have answers : s0.bus.env.Answers (wireBits [0xFF, 0xFF, 0xFF, 0xFF] ++ (wireBits [0xFF, 0xFF] ++ [])) .absent := by
    rw [show s0.bus.env = .absent from env]
    exact ones_of_absent 4 _ (ones_of_absent 2 [] .none)
  obtain ⟨handle, polled, env1, -⟩ := begun1_answers (hp := hp) answers
  have keeps := begun1_keeps hp s0
  have wait := pollWip_set (s := bringUp hp s0.accepted) (by rw [polled]; rfl)
  let s1 : State := { begun1 hp s0 with todo := .pollWip :: (beginTasks.tail ++ (begun1 hp s0).todo) }
  have run : step s = .next s1 := by
    rw [first, exec_beginOp_accepted (s := s0) hp busy, beginTasks, runTasks_wait wait]
    rfl
  have handle1 : s1.h = _ := handle
  have idle : (begun1 hp s0).bus.line.Idle :=
    (readStatus1_pieces (bringUp hp s0.accepted)).idle (bringUp_idle hp s0.accepted)
  have hung : Hung s s1 := by
    refine ⟨env1.eq, by rw [handle1], by rw [handle1]; rfl, keeps.rsps, by rw [handle1], ?_, ?_, keeps.host, ?_⟩
    · show .pollWip :: (beginTasks.tail ++ (begun1 hp s0).todo) = beginTasks
      rw [keeps.todo, show s0.todo = [] from todo]
      rfl
    · exact idle
    · exact keeps.resets.trans (congrArg List.tail resets)
  obtain ⟨t, later, h⟩ := core_run_keeps (p := Hung s) (fun _ => Hung.step) k hung
  exact ⟨t, (core_run_succ run k).trans later, h.busy, h.initialized, h.rsps, h.jedec, h.todo, h.idle⟩

end Sys2Proof.Machine
end

section
/-! SUPPORT. What an operation and a task leave alone, said once: which state fields each can write (R170, R36, R27), which events each can emit (R10), and how an operation ends (R29, R90). With it the statements about the frame of an operation. -/

namespace Sys2Proof.Machine

/-! ### The framer and the polls -/

/-- From `s` to `u` only the bus, the last response read and `W.status` may have changed: what framer operations and
polls do. -/
def State.FramesOnly (s u : State) : Prop :=
  u = { s with bus := u.bus, resp := u.resp, w := { s.w with status := u.w.status } }

namespace State.FramesOnly

theorem refl (s : State) : s.FramesOnly s := rfl

theorem trans {a b c : State} (h : a.FramesOnly b) (k : b.FramesOnly c) : a.FramesOnly c := by
  unfold State.FramesOnly at *
  rw [k, h]

theorem emit (e : Event) (s : State) : s.FramesOnly (s.emit e) := rfl
theorem runCommand (op : Byte) (s : State) : s.FramesOnly (runCommand op s) := rfl
theorem eraseCommand (op : Byte) (a : U32) (s : State) : s.FramesOnly (eraseCommand op a s) := rfl
theorem readBytes (a : U32) (n : Nat) (s : State) : s.FramesOnly (readBytes a n s).2 := rfl
theorem readStatus1 (s : State) : s.FramesOnly (readStatus1 s) := rfl
theorem readStatus2 (s : State) : s.FramesOnly (readStatus2 s) := rfl

theorem pollReady (s : State) : s.FramesOnly (pollReady s).state := by
  cases hr : s.pollsReady with
  | true => rw [pollReady_ready hr]; exact readStatus1 s
  | false => rw [pollReady_notReady hr]; exact (readStatus1 s).trans (emit .yld _)

theorem chipReset (s : State) : s.FramesOnly (chipReset s) := rfl

end State.FramesOnly

/-! ### Tasks -/

/-- The tasks that end an operation with its response. -/
def Task.ends : Task → Bool
  | .finishBegin | .read8 _ | .read16 _ | .read32 _ | .readBuffer _ _ | .writeLoop _ | .eraseUnit _ _ | .eraseAll
  | .scan => true
  | .pollWip | .pollSus | .gate | .chipReset => false

/-- No response has been delivered and the handle is as before. -/
structure State.SameControl (s u : State) : Prop where
  h : u.h = s.h
  rspCode : u.rspCode = s.rspCode
  rspVal : u.rspVal = s.rspVal
  rsps : u.rsps = s.rsps

/-- The operation is over: not busy, and one DONE response more (R90). -/
structure State.Ended (s u : State) : Prop where
  busy : u.h.busy = false
  rspCode : u.rspCode = .done
  rsps : u.rsps = s.rsps ++ [⟨.done, u.rspVal⟩]

/-- The fields that the task leaves alone, besides those of `Keeps`, which every task does. -/
structure Task.Spares (t : Task) (s u : State) : Prop where
  todo : u.todo = s.todo
  initialized : t ≠ .finishBegin → u.h.initialized = s.h.initialized
  rbuf : (∀ a n, t ≠ .readBuffer a n) → u.rbuf = s.rbuf
  write : (∀ len, t ≠ .writeLoop len) → u.w.rem = s.w.rem ∧ u.w.chunk = s.w.chunk ∧ u.w.pos = s.w.pos
  addr : (∀ len, t ≠ .writeLoop len) → t ≠ .scan → u.w.addr = s.w.addr
  word : t ≠ .scan → u.w.word = s.w.word

/-- A task goes on with nothing delivered, or it ends its operation; one that waits has delivered nothing. -/
def Task.Controls (t : Task) (s : State) : Progress → Prop
  | .wait u => s.SameControl u
  | .goOn u => if t.ends then s.Ended u else s.SameControl u

theorem State.FramesOnly.sameControl {s u : State} (h : s.FramesOnly u) : s.SameControl u := by
  rw [h]
  exact ⟨rfl, rfl, rfl, rfl⟩

theorem State.FramesOnly.spares {s u : State} (h : s.FramesOnly u) (t : Task) : t.Spares s u := by
  rw [h]
  exact ⟨rfl, fun _ => rfl, fun _ => rfl, fun _ => ⟨rfl, rfl, rfl⟩, fun _ _ => rfl, fun _ => rfl⟩

theorem State.FramesOnly.ended {s u : State} (h : s.FramesOnly u) (v : U32) : s.Ended (finish v u) := by
  rw [h]
  exact ⟨rfl, rfl, rfl⟩

theorem State.FramesOnly.spares_finish {s u : State} (h : s.FramesOnly u) (t : Task) (v : U32) :
    t.Spares s (finish v u) := by
  rw [h]
  exact ⟨rfl, fun _ => rfl, fun _ => rfl, fun _ => ⟨rfl, rfl, rfl⟩, fun _ _ => rfl, fun _ => rfl⟩

/-- What the writing loop may change: the bus, the last response read and the working registers but `W.word`. -/
def State.WritesOnly (s u : State) : Prop :=
  u = { s with bus := u.bus, resp := u.resp, w := { u.w with word := s.w.word } }

namespace State.WritesOnly

theorem trans {a b c : State} (h : a.WritesOnly b) (k : b.WritesOnly c) : a.WritesOnly c := by
  unfold State.WritesOnly at *
  rw [k, h]

theorem ofFrames {s u : State} (h : s.FramesOnly u) : s.WritesOnly u := by
  rw [h]
  rfl

theorem setChunk (s : State) : s.WritesOnly (setChunk s) := rfl

theorem writeChunk (s : State) : s.WritesOnly (writeChunk s) := rfl

end State.WritesOnly

/-- The loop ends with its response, or waits, and writes no more than that. -/
theorem writeLoop_writesOnly (len : U32) (n : Nat) (s : State) :
    ∃ u, s.WritesOnly u ∧ ((∃ v, writeLoop len n s = .goOn (finish v u)) ∨ writeLoop len n s = .wait u) := by
  induction n generalizing s with
  | zero => exact ⟨s, rfl, .inl ⟨_, rfl⟩⟩
  | succ n ih =>
    by_cases h : s.w.rem = 0
    · exact ⟨s, rfl, .inl ⟨_, writeLoop_done h⟩⟩
    · have poll := (State.WritesOnly.setChunk s).trans (.ofFrames (.readStatus1 (setChunk s)))
      cases hr : s.pollsReady with
      | false => exact ⟨_, poll.trans (.ofFrames (.emit .yld _)), .inr (writeLoop_notReady h hr)⟩
      | true =>
        obtain ⟨u, only, result⟩ := ih (writeChunk (readStatus1 (setChunk s)))
        rw [writeLoop_ready h hr]
        exact ⟨u, (poll.trans (.writeChunk _)).trans only, result⟩

/-- A pass of the scan ends it, or waits; of the working registers it writes `W.status`, `W.word` and `W.addr`. -/
theorem scanWord_result (s : State) :
    ∃ u, s.FramesOnly u ∧ (scanWord s = .wait u ∨
      ∃ word, (∃ v, scanWord s = .goOn (finish v { u with w := { u.w with word := word } })) ∨
        ∃ addr, scanWord s = .wait { u with w := { u.w with word := word, addr := addr } }) := by
  cases hr : s.pollsReady with
  | false =>
    refine ⟨_, (State.FramesOnly.readStatus1 s).trans (.emit .yld _), .inl ?_⟩
    rw [scanWord, pollReady_notReady hr]
  | true =>
    refine ⟨_, (State.FramesOnly.readStatus1 s).trans (.readBytes s.w.addr 4 _),
      .inr ⟨loadWord (readBytes s.w.addr 4 (readStatus1 s)).1, ?_⟩⟩
    rw [scanWord, pollReady_ready hr]
    dsimp only
    split
    · exact .inl ⟨s.w.addr, rfl⟩
    · exact .inr ⟨s.w.addr + 4, rfl⟩

/-- What a task can do, task by task. -/
theorem runTask_result (t : Task) (s : State) : t.Spares s (runTask t s).state ∧ t.Controls s (runTask t s) := by
  have finishes {u : State} (h : s.FramesOnly u) (v : U32) (ends : t.ends = true) :
      t.Spares s (finish v u) ∧ t.Controls s (.goOn (finish v u)) :=
    ⟨h.spares_finish t v, by rw [Task.Controls, if_pos ends]; exact h.ended v⟩
  have goesOn {u : State} (h : s.FramesOnly u) (ends : t.ends = false) : t.Spares s u ∧ t.Controls s (.goOn u) :=
    ⟨h.spares t, by rw [Task.Controls, if_neg (by rw [ends]; decide)]; exact h.sameControl⟩
  have waits {u : State} (h : s.FramesOnly u) : t.Spares s u ∧ t.Controls s (.wait u) := ⟨h.spares t, h.sameControl⟩
  cases t with
  | pollWip =>
    show Task.Spares _ s (pollWip s).state ∧ Task.Controls _ s (pollWip s)
    unfold pollWip
    dsimp only
    split
    · exact goesOn (.readStatus1 s) rfl
    · exact waits (.readStatus1 s)
  | pollSus =>
    show Task.Spares _ s (pollSus s).state ∧ Task.Controls _ s (pollSus s)
    unfold pollSus
    dsimp only
    split
    · exact goesOn (.readStatus2 s) rfl
    · exact waits (.readStatus2 s)
  | gate =>
    show Task.Spares _ s (pollReady s).state ∧ Task.Controls _ s (pollReady s)
    have h := State.FramesOnly.pollReady s
    cases e : pollReady s <;> rw [e] at h
    · exact goesOn h rfl
    · exact waits h
  | chipReset => exact goesOn (.chipReset s) rfl
  | finishBegin =>
    exact ⟨⟨rfl, fun h => absurd rfl h, fun _ => rfl, fun _ => ⟨rfl, rfl, rfl⟩, fun _ _ => rfl, fun _ => rfl⟩,
      ⟨rfl, rfl, rfl⟩⟩
  | read8 a => exact finishes (.readBytes a 1 s) _ rfl
  | read16 a => exact finishes (.readBytes a 2 s) _ rfl
  | read32 a => exact finishes (.readBytes a 4 s) _ rfl
  | readBuffer a n =>
    exact ⟨⟨rfl, fun _ => rfl, fun h => absurd rfl (h a n), fun _ => ⟨rfl, rfl, rfl⟩, fun _ _ => rfl, fun _ => rfl⟩,
      ⟨rfl, rfl, rfl⟩⟩
  | writeLoop len =>
    show Task.Spares _ s (writeLoop len s.w.rem.toNat s).state ∧ Task.Controls _ s (writeLoop len s.w.rem.toNat s)
    obtain ⟨u, only, ⟨v, e⟩ | e⟩ := writeLoop_writesOnly len s.w.rem.toNat s <;> rw [e, only]
    · exact ⟨⟨rfl, fun _ => rfl, fun _ => rfl, fun h => absurd rfl (h len), fun h => absurd rfl (h len), fun _ => rfl⟩,
        ⟨rfl, rfl, rfl⟩⟩
    · exact ⟨⟨rfl, fun _ => rfl, fun _ => rfl, fun h => absurd rfl (h len), fun h => absurd rfl (h len), fun _ => rfl⟩,
        ⟨rfl, rfl, rfl, rfl⟩⟩
  | eraseUnit op a => exact finishes ((State.FramesOnly.runCommand _ s).trans (.eraseCommand op a _)) _ rfl
  | eraseAll => exact finishes ((State.FramesOnly.runCommand _ s).trans (.runCommand _ _)) _ rfl
  | scan =>
    show Task.Spares _ s (scanWord s).state ∧ Task.Controls _ s (scanWord s)
    obtain ⟨u, only, e | ⟨word, ⟨v, e⟩ | ⟨addr, e⟩⟩⟩ := scanWord_result s <;> rw [e]
    · exact waits only
    · rw [only]
      exact ⟨⟨rfl, fun _ => rfl, fun _ => rfl, fun _ => ⟨rfl, rfl, rfl⟩, fun _ h => absurd rfl h, fun h => absurd rfl h⟩,
        ⟨rfl, rfl, rfl⟩⟩
    · rw [only]
      exact ⟨⟨rfl, fun _ => rfl, fun _ => rfl, fun _ => ⟨rfl, rfl, rfl⟩, fun _ h => absurd rfl h, fun h => absurd rfl h⟩,
        ⟨rfl, rfl, rfl, rfl⟩⟩

end Sys2Proof.Machine
end

section
/-! SUPPORT. What a whole operation leaves alone, from its tasks: the state fields that each operation can write (R170, R27, R36), and how a run of tasks ends (R29, R90). -/

namespace Sys2Proof.Machine

/-! ### Runs of tasks -/

/-- The fields that a run of the tasks `ts` leaves alone, besides those of `Keeps`. -/
structure State.SparedBy (ts : List Task) (s u : State) : Prop where
  initialized : .finishBegin ∉ ts → u.h.initialized = s.h.initialized
  rbuf : (∀ a n, .readBuffer a n ∉ ts) → u.rbuf = s.rbuf
  write : (∀ len, .writeLoop len ∉ ts) → u.w.rem = s.w.rem ∧ u.w.chunk = s.w.chunk ∧ u.w.pos = s.w.pos
  addr : (∀ len, .writeLoop len ∉ ts) → .scan ∉ ts → u.w.addr = s.w.addr
  word : .scan ∉ ts → u.w.word = s.w.word

theorem State.SparedBy.refl (ts : List Task) (s : State) : State.SparedBy ts s s :=
  ⟨fun _ => rfl, fun _ => rfl, fun _ => ⟨rfl, rfl, rfl⟩, fun _ _ => rfl, fun _ => rfl⟩

/-- What one task spares, and what the tasks after it spare, the run spares. -/
theorem Task.Spares.cons {t : Task} {ts : List Task} {s u v : State} (h : t.Spares s u) (k : State.SparedBy ts u v) :
    State.SparedBy (t :: ts) s v where
  initialized n := by
    simp only [List.mem_cons, not_or] at n
    rw [k.initialized n.2, h.initialized (Ne.symm n.1)]
  rbuf n := by
    simp only [List.mem_cons, not_or] at n
    rw [k.rbuf fun a m => (n a m).2, h.rbuf fun a m => Ne.symm (n a m).1]
  write n := by
    simp only [List.mem_cons, not_or] at n
    obtain ⟨r, c, p⟩ := k.write fun len => (n len).2
    obtain ⟨r', c', p'⟩ := h.write fun len => Ne.symm (n len).1
    exact ⟨r.trans r', c.trans c', p.trans p'⟩
  addr n m := by
    simp only [List.mem_cons, not_or] at n m
    rw [k.addr (fun len => (n len).2) m.2, h.addr (fun len => Ne.symm (n len).1) (Ne.symm m.1)]
  word m := by
    simp only [List.mem_cons, not_or] at m
    rw [k.word m.2, h.word (Ne.symm m.1)]

theorem State.SparedBy.setTodo {ts : List Task} {s u : State} (h : State.SparedBy ts s u) (rest : List Task) :
    State.SparedBy ts s { u with todo := rest } := ⟨h.initialized, h.rbuf, h.write, h.addr, h.word⟩

theorem runTasks_sparedBy (ts : List Task) (s : State) : State.SparedBy ts s (runTasks ts s) := by
  induction ts generalizing s with
  | nil => exact .refl _ s
  | cons t ts ih =>
    have h := (runTask_result t s).1
    rw [runTasks]
    split <;> rename_i s1 e <;> rw [e] at h
    · exact h.cons (ih s1)
    · exact (h.cons (.refl ts s1)).setTodo _

theorem resume_sparedBy (s : State) : State.SparedBy s.todo s (resume s) := by
  obtain ⟨i, r, w, a, d⟩ := runTasks_sparedBy s.todo { s with todo := [] }
  exact ⟨i, r, w, a, d⟩

/-! ### How a run ends -/

/-- The tasks that can have to wait: the polls of the four loops (R161). -/
def Task.mayWait : Task → Bool
  | .pollWip | .pollSus | .gate | .writeLoop _ | .scan => true
  | .chipReset | .finishBegin | .read8 _ | .read16 _ | .read32 _ | .readBuffer _ _ | .eraseUnit _ _ | .eraseAll => false

theorem Task.mayWait_of_wait {t : Task} {s u : State} (h : runTask t s = .wait u) : t.mayWait = true := by
  cases t with
  | pollWip | pollSus | gate | writeLoop | scan => rfl
  | _ => cases h

/-- The last task ends the operation and no other does. -/
def endsOnce : List Task → Bool
  | [] => false
  | [t] => t.ends
  | t :: ts => !t.ends && endsOnce ts

/-- A run either waits at one of its tasks, with nothing delivered, or ends the operation. -/
theorem runTasks_control {ts : List Task} (once : endsOnce ts = true) {s : State} (fresh : s.todo = []) :
    (s.SameControl (runTasks ts s) ∧
        ∃ t rest, t.mayWait = true ∧ (runTasks ts s).todo = t :: rest ∧ t :: rest <:+ ts) ∨
      (s.Ended (runTasks ts s) ∧ (runTasks ts s).todo = []) := by
  induction ts generalizing s with
  | nil => cases once
  | cons t ts ih =>
    obtain ⟨spares, control⟩ := runTask_result t s
    cases e : runTask t s with
    | wait u =>
      rw [e] at spares control
      obtain ⟨h, code, val, rsps⟩ : s.SameControl u := control
      have todo : u.todo = [] := spares.todo.trans fresh
      rw [runTasks_wait e, todo, List.append_nil]
      exact .inl ⟨⟨h, code, val, rsps⟩, t, ts, Task.mayWait_of_wait e, rfl, List.suffix_rfl⟩
    | goOn u =>
      rw [e] at spares control
      rw [runTasks_goOn e]
      have todo : u.todo = [] := spares.todo.trans fresh
      have control : if t.ends then s.Ended u else s.SameControl u := control
      cases ts with
      | nil => exact .inr ⟨(if_pos (show t.ends = true from once)).mp control, todo⟩
      | cons t' ts =>
        simp only [endsOnce, Bool.and_eq_true, Bool.not_eq_true'] at once
        rw [if_neg (by rw [once.1]; decide)] at control
        obtain ⟨h, code, val, rsps⟩ := control
        rcases ih once.2 todo with ⟨same, t1, rest, may, left, suffix⟩ | ⟨ended, left⟩
        · exact .inl ⟨⟨same.h.trans h, same.rspCode.trans code, same.rspVal.trans val, same.rsps.trans rsps⟩,
            t1, rest, may, left, suffix.trans (List.suffix_cons t _)⟩
        · exact .inr ⟨⟨ended.busy, ended.rspCode, by rw [ended.rsps, rsps]⟩, left⟩

/-- What can be left of an operation ends it once (R161, R174 to R184). -/
theorem endsOnce_beginTails : ∀ ts ∈ beginTails, endsOnce ts = true := by decide

theorem endsOnce_gatedTask {c : Cfg} {t : Task} (h : gatedTask c t = true) : endsOnce [.gate, t] = true := by
  cases t with
  | read8 | read16 | read32 | readBuffer | eraseUnit | eraseAll => rfl
  | _ => cases h

theorem AccessTail.endsOnce {c : Cfg} {ts : List Task} (h : AccessTail c ts) : endsOnce ts = true := by
  obtain ⟨t, rfl, gated⟩ | ⟨len, rfl⟩ | rfl := h
  · exact endsOnce_gatedTask gated
  · rfl
  · rfl

theorem State.Coherent.endsOnce {s : State} (h : s.Coherent) (left : s.todo ≠ []) : endsOnce s.todo = true := by
  obtain ⟨-, none⟩ | ⟨-, begins | ⟨tail, -⟩⟩ := h
  · exact absurd none left
  · exact endsOnce_beginTails _ begins
  · exact tail.endsOnce

/-! ### Instructions -/

/-- The fields that the operation `i` leaves alone (R170, R27, R36). -/
structure OpSpares (i : Instr) (s t : State) : Prop where
  cfg : t.cfg = s.cfg
  addressWidth : t.h.addressWidth = s.h.addressWidth
  host : t.host = s.host
  resets : t.resets = s.resets
  wbuf : t.wbuf = s.wbuf
  handle : (∀ hp, i ≠ .beginOp hp) →
    t.h.clockHalfPeriod = s.h.clockHalfPeriod ∧ t.h.jedec = s.h.jedec ∧ t.h.initialized = s.h.initialized
  rbuf : fillsRbuf i = false → t.rbuf = s.rbuf
  write : (∀ a n, i ≠ .wrbuf a n) → t.w.rem = s.w.rem ∧ t.w.chunk = s.w.chunk
  pos : (∀ a n, i ≠ .wrbuf a n) → (∀ n, i ≠ .transferBuffer n) → t.w.pos = s.w.pos
  addr : (∀ a n, i ≠ .wrbuf a n) → i ≠ .used → t.w.addr = s.w.addr
  word : i ≠ .used → t.w.word = s.w.word
  control : isHostOp i = false → t.rspCode = s.rspCode ∧ t.rspVal = s.rspVal ∧ t.rsps = s.rsps ∧ t.h = s.h

/-- Framer operations and polls write none of these fields. -/
theorem State.FramesOnly.opSpares {s t : State} (h : s.FramesOnly t) (i : Instr) : OpSpares i s t := by
  rw [h]
  exact ⟨rfl, rfl, rfl, rfl, rfl, fun _ => ⟨rfl, rfl, rfl⟩, fun _ => rfl, fun _ => ⟨rfl, rfl⟩, fun _ _ => rfl,
    fun _ _ => rfl, fun _ => rfl, fun _ => ⟨rfl, rfl, rfl, rfl⟩⟩

theorem opSpares_refuse {i : Instr} (hi : isHostOp i = true) (s : State) : OpSpares i s (refuse s) :=
  ⟨rfl, rfl, rfl, rfl, rfl, fun _ => ⟨rfl, rfl, rfl⟩, fun _ => rfl, fun _ => ⟨rfl, rfl⟩, fun _ _ => rfl,
    fun _ _ => rfl, fun _ => rfl, fun other => by rw [hi] at other; cases other⟩

/-- What an operation has changed before its first task. -/
theorem Started.spares {s s1 : State} {i : Instr} {ts : List Task} (h : Started s i ts s1) (hi : isHostOp i = true) :
    OpSpares i s s1 := by
  have other {p : Prop} : isHostOp i = false → p := fun e => by rw [hi] at e; cases e
  cases h with
  | beginOp hp =>
    exact ⟨rfl, rfl, rfl, rfl, rfl, fun n => absurd rfl (n hp), fun _ => rfl, fun _ => ⟨rfl, rfl⟩, fun _ _ => rfl,
      fun _ _ => rfl, fun _ => rfl, other⟩
  | ident =>
    exact ⟨rfl, rfl, rfl, rfl, rfl, fun _ => ⟨rfl, rfl, rfl⟩, fun _ => rfl, fun _ => ⟨rfl, rfl⟩, fun _ _ => rfl,
      fun _ _ => rfl, fun _ => rfl, other⟩
  | gated =>
    exact ⟨rfl, rfl, rfl, rfl, rfl, fun _ => ⟨rfl, rfl, rfl⟩, fun _ => rfl, fun _ => ⟨rfl, rfl⟩, fun _ _ => rfl,
      fun _ _ => rfl, fun _ => rfl, other⟩
  | wrbuf a n =>
    exact ⟨rfl, rfl, rfl, rfl, rfl, fun _ => ⟨rfl, rfl, rfl⟩, fun _ => rfl, fun m => absurd rfl (m a n),
      fun m _ => absurd rfl (m a n), fun m _ => absurd rfl (m a n), fun _ => rfl, other⟩
  | used =>
    exact ⟨rfl, rfl, rfl, rfl, rfl, fun _ => ⟨rfl, rfl, rfl⟩, fun _ => rfl, fun _ => ⟨rfl, rfl⟩, fun _ _ => rfl,
      fun _ n => absurd rfl n, fun n => absurd rfl n, other⟩

/-- Which tasks are whose: `finishBegin` is `BEGIN`'s, `readBuffer` is `RDBUF`'s, `writeLoop` is `WRBUF`'s, `scan` is
`USED`'s. -/
theorem Started.tasks {s s1 : State} {i : Instr} {ts : List Task} (h : Started s i ts s1) :
    ((∀ hp, i ≠ .beginOp hp) → .finishBegin ∉ ts) ∧ (fillsRbuf i = false → ∀ a n, .readBuffer a n ∉ ts) ∧
      ((∀ a n, i ≠ .wrbuf a n) → ∀ len, .writeLoop len ∉ ts) ∧ (i ≠ .used → .scan ∉ ts) := by
  cases h with
  | beginOp hp => exact ⟨fun n => absurd rfl (n hp), by simp [beginTasks], by simp [beginTasks], by simp [beginTasks]⟩
  | ident => simp
  | wrbuf a n => exact ⟨by simp, by simp, fun m => absurd rfl (m a n), by simp⟩
  | used => simp
  | gated h => cases i <;> cases h <;> simp [fillsRbuf]

/-- What every operation leaves alone. -/
theorem exec_spares {i : Instr} {s t : State} (h : exec i s = .next t) : OpSpares i s t := by
  cases hi : isHostOp i with
  | true =>
    rcases exec_hostOp_cases hi s with e | ⟨busy, init, ts, s1, started, e⟩
    · cases h.symm.trans e
      exact opSpares_refuse hi s
    · cases h.symm.trans e
      obtain ⟨begins, fills, writes, scans⟩ := started.tasks
      have start := started.spares hi
      have run := runTasks_sparedBy ts s1
      obtain ⟨_, _, did⟩ := runTasks_pieces ts s1
      have keeps := did.keeps
      exact
        { cfg := keeps.cfg.trans start.cfg
          addressWidth := keeps.addressWidth.trans start.addressWidth
          host := keeps.host.trans start.host
          resets := keeps.resets.trans start.resets
          wbuf := keeps.wbuf.trans start.wbuf
          handle := fun n => by
            obtain ⟨hp, jedec, initialized⟩ := start.handle n
            exact ⟨keeps.halfPeriod.trans hp, keeps.jedec.trans jedec, (run.initialized (begins n)).trans initialized⟩
          rbuf := fun n => (run.rbuf (fills n)).trans (start.rbuf n)
          write := fun n => by
            obtain ⟨rem, chunk, -⟩ := run.write (writes n)
            exact ⟨rem.trans (start.write n).1, chunk.trans (start.write n).2⟩
          pos := fun n m => (run.write (writes n)).2.2.trans (start.pos n m)
          addr := fun n m => (run.addr (writes n) (scans m)).trans (start.addr n m)
          word := fun m => (run.word (scans m)).trans (start.word m)
          control := fun other => by rw [hi] at other; cases other }
  | false =>
    cases i with
    | waitUntilReady =>
      cases h
      cases e : runTask .gate s with
      | goOn u =>
        have only : s.FramesOnly u := by have := State.FramesOnly.pollReady s; rwa [show pollReady s = .goOn u from e] at this
        rw [runTasks_last e]
        exact only.opSpares _
      | wait u =>
        have only : s.FramesOnly u := by have := State.FramesOnly.pollReady s; rwa [show pollReady s = .wait u from e] at this
        obtain ⟨c, a, o, r, w, hd, rb, wr, ps, ad, wd, ct⟩ := only.opSpares .waitUntilReady
        rw [runTasks_wait e]
        exact ⟨c, a, o, r, w, hd, rb, wr, ps, ad, wd, ct⟩
    | transferBuffer n =>
      cases h
      exact ⟨rfl, rfl, rfl, rfl, rfl, fun _ => ⟨rfl, rfl, rfl⟩, fun n => (by cases n), fun _ => ⟨rfl, rfl⟩,
        fun _ m => absurd rfl (m n), fun _ _ => rfl, fun _ => rfl, fun _ => ⟨rfl, rfl, rfl, rfl⟩⟩
    | fastrd | readMemory =>
      cases h
      exact ⟨rfl, rfl, rfl, rfl, rfl, fun _ => ⟨rfl, rfl, rfl⟩, fun n => (by cases n), fun _ => ⟨rfl, rfl⟩,
        fun _ _ => rfl, fun _ _ => rfl, fun _ => rfl, fun _ => ⟨rfl, rfl, rfl, rfl⟩⟩
    | beginOp | ident | rd8 | rd16 | rd32 | rdbuf | wrbuf | erchip | ersec | erb32 | erb64 | used | reservedC
    | reservedD | reservedE | reservedF => cases hi
    | _ =>
      cases h
      refine State.FramesOnly.opSpares ?_ _
      exact rfl

/-- Settles O40: by what every operation, and every resumption, leaves alone. -/
theorem onlyBeginWritesTheHandle : Obligations.OnlyBeginWritesTheHandle := by
  refine ⟨fun i s t h => ?_, fun s => ?_⟩
  · have spares := exec_spares h
    exact ⟨spares.cfg, spares.addressWidth, spares.host, spares.resets, spares.handle⟩
  · have keeps := resume_keeps s
    exact ⟨keeps.cfg, keeps.addressWidth, keeps.host, keeps.resets, keeps.halfPeriod, keeps.jedec,
      (resume_sparedBy s).initialized⟩

/-- Settles O42: the frame of every operation and resumption, and how a run of tasks ends. -/
theorem workingRegistersFrame : Obligations.WorkingRegistersFrame := by
  refine ⟨fun i s t h => ?_, fun s => ?_, fun s coherent left => ?_⟩
  · have spares := exec_spares h
    exact ⟨fun n => ⟨(spares.write n).1, (spares.write n).2, spares.pos n, spares.addr n⟩, spares.word, spares.control⟩
  · have spared := resume_sparedBy s
    exact ⟨fun n => ⟨(spared.write n).1, (spared.write n).2.1, (spared.write n).2.2, spared.addr n⟩, spared.word⟩
  · have busy : s.h.busy = true := by
      obtain ⟨-, none⟩ | ⟨busy, -⟩ := coherent
      · exact absurd none left
      · exact busy
    rcases runTasks_control (coherent.endsOnce left) (s := { s with todo := [] }) rfl with
      ⟨same, t, rest, -, waits, -⟩ | ⟨ended, done⟩
    · exact .inl ⟨(congrArg Handle.busy same.h).trans busy, by rw [show (resume s).todo = t :: rest from waits]; simp,
        same.rspCode, same.rspVal, same.rsps⟩
    · exact .inr ⟨ended.busy, done, ended.rspCode, ended.rsps⟩

end Sys2Proof.Machine
end

section
/-! SUPPORT. How an operation and a step act on the bus, said once (R10): nothing, whole frames with yields and delays, the bring-up, or the bare events of the bit transport. With it the statements about lines and events. -/

namespace Sys2Proof.Machine

/-! ### The lines after events that configure nothing -/

/-- Only the levels of select, clock and data-out may differ. -/
def Lines.SameButLevels (x y : Lines) : Prop :=
  ∃ cs sck mosi, y = { x with cs := ⟨x.cs.dir, cs⟩, sck := ⟨x.sck.dir, sck⟩, mosi := ⟨x.mosi.dir, mosi⟩ }

namespace Lines.SameButLevels

theorem refl (x : Lines) : x.SameButLevels x := ⟨_, _, _, rfl⟩

theorem trans {x y z : Lines} (h : x.SameButLevels y) (k : y.SameButLevels z) : x.SameButLevels z := by
  obtain ⟨a, b, c, rfl⟩ := h
  obtain ⟨a', b', c', rfl⟩ := k
  exact ⟨a', b', c', rfl⟩

theorem select (v : Bool) (x : Lines) : x.SameButLevels (x.after (.drv .cs v)) := ⟨_, _, _, rfl⟩

theorem pulse (hp : U32) (x : Lines) : x.SameButLevels ((pulseEvents hp).foldl Lines.after x) := by
  refine ⟨x.cs.level, some false, x.mosi.level, ?_⟩
  simp [pulseEvents, Lines.after_delay, Lines.after, Lines.set, Lines.get]

theorem exchange (hp : U32) (tx rx : List Byte) (x : Lines) :
    x.SameButLevels ((exchangeEvents hp tx rx).foldl Lines.after x) := by
  obtain ⟨m, c, e, -⟩ := Lines.after_exchange hp tx rx x
  exact ⟨_, c, m, e⟩

theorem frame (hp : U32) (tx rx : List Byte) (x : Lines) :
    x.SameButLevels ((frameEvents hp tx rx).foldl Lines.after x) := by
  rw [frameEvents, List.foldl_cons, List.foldl_append]
  exact ((select false x).trans (exchange hp tx rx _)).trans (select true _)

theorem piece (hp : U32) {g : Segment} (sound : g.Sound) (x : Lines) :
    x.SameButLevels ((g.events hp).foldl Lines.after x) := by
  cases g with
  | config => exact sound.elim
  | frame tx rx => exact frame hp tx rx x
  | yield => exact refl x
  | delay n => exact refl x

theorem pieces (hp : U32) {segs : List Segment} (sound : ∀ g ∈ segs, g.Sound) (x : Lines) :
    x.SameButLevels ((segmentEvents hp segs).foldl Lines.after x) := by
  induction segs generalizing x with
  | nil => exact refl x
  | cons g gs ih =>
    rw [segmentEvents_cons, List.foldl_append]
    exact (piece hp (sound g (by simp)) x).trans (ih (fun g hg => sound g (by simp [hg])) _)

/-- What the statements say of it. -/
theorem dirs {x y : Lines} (h : x.SameButLevels y) :
    (∀ l, (y.get l).dir = (x.get l).dir) ∧ y.miso = x.miso ∧ y.wp = x.wp ∧ y.hold = x.hold := by
  obtain ⟨a, b, c, rfl⟩ := h
  exact ⟨fun l => by cases l <;> rfl, rfl, rfl, rfl⟩

end Lines.SameButLevels

theorem State.DoesPieces.sameButLevels {s t : State} (h : s.DoesPieces t) : s.bus.line.SameButLevels t.bus.line := by
  obtain ⟨segs, sound, did⟩ := h
  rw [did.emitted.line]
  exact .pieces s.hp sound _

/-! ### How an operation acts -/

/-- The events of the bit transport without a frame around them (R120 to R125, R146). -/
def BareEvents (evs : List Event) : Prop :=
  (∃ v, evs = [.drv .cs v]) ∨ ∃ hp, evs = pulseEvents hp ∨ ∃ tx rx, evs = exchangeEvents hp tx rx

/-- The ways an operation can act on the bus. -/
inductive OpActs (s : State) : Instr → State → Prop where
  | refused (i : Instr) : OpActs s i (refuse s)
  | pieces {i : Instr} {t : State} (h : s.DoesPieces t) : OpActs s i t
  | begun {hp : U32} {t : State} (idle : s.h.busy = false) (h : (bringUp hp s.accepted).DoesPieces t) :
      OpActs s (.beginOp hp) t
  | configured : OpActs s .configureLines (configureLines s)
  | bare {i : Instr} {t : State} {evs : List Event} (internal : isHostOp i = false) (h : BareEvents evs)
      (emitted : s.bus.Emitted t.bus evs) : OpActs s i t

theorem readCommand_pieces (op : Byte) (n : Nat) (s : State) : s.DoesPieces (readCommand op n s) := by
  obtain ⟨r, length, framed⟩ := readCommand_spec op n s
  exact ⟨_, by simp [Segment.Sound, length], framed.pieces, ⟨rfl, rfl, rfl, rfl, rfl, rfl, rfl⟩⟩

/-- An accepted operation is `BEGIN`, or it needs bring-up and has emitted no event before its first task. -/
theorem Started.begin_or_silent {s s1 : State} {i : Instr} {ts : List Task} (h : Started s i ts s1) :
    (∃ hp, i = .beginOp hp ∧ ts = beginTasks ∧ s1 = bringUp hp s) ∨
      (needsInit i = true ∧ s1.bus = s.bus ∧ s.Keeps s1) := by
  cases h with
  | beginOp hp => exact .inl ⟨hp, rfl, rfl, rfl⟩
  | gated h =>
    refine .inr ⟨?_, rfl, .refl s⟩
    cases i with
    | beginOp => cases h
    | _ => rfl
  | ident | wrbuf | used => exact .inr ⟨rfl, rfl, rfl, rfl, rfl, rfl, rfl, rfl, rfl⟩

theorem accepted_pieces (s : State) : s.DoesPieces s.accepted :=
  (State.DoesPieces.nothing s).silently rfl (accepted_keeps s)

/-- The operations of the bit transport alone, and the address phase (R106). -/
def movesLines : Instr → Bool
  | .selectAssert | .selectDeassert | .clockPulse | .transferByte _ | .transferBuffer _ | .addressPhase _ => true
  | _ => false

theorem exec_bare {i : Instr} {s t : State} (hi : movesLines i = true) (h : exec i s = .next t) :
    ∃ evs, BareEvents evs ∧ s.bus.Emitted t.bus evs := by
  cases i with
  | selectAssert => cases h; exact ⟨_, .inl ⟨_, rfl⟩, s.bus.emitted_drv .cs false⟩
  | selectDeassert => cases h; exact ⟨_, .inl ⟨_, rfl⟩, s.bus.emitted_drv .cs true⟩
  | clockPulse => cases h; exact ⟨_, .inr ⟨_, .inl rfl⟩, s.bus.emitted_clockPulse s.hp⟩
  | transferByte out =>
    cases h
    refine ⟨_, .inr ⟨s.hp, .inr ⟨[out], [(s.bus.transferByte s.hp out).sr], rfl⟩⟩, ?_⟩
    simpa [exchangeEvents] using s.bus.transferByte_spec s.hp out
  | transferBuffer => cases h; exact ⟨_, .inr ⟨_, .inr ⟨_, _, rfl⟩⟩, s.bus.exchange_spec s.hp _⟩
  | addressPhase => cases h; exact ⟨_, .inr ⟨_, .inr ⟨_, _, rfl⟩⟩, s.bus.exchange_spec s.hp _⟩
  | _ => cases hi

/-- How each operation acts. -/
theorem exec_acts {i : Instr} {s t : State} (h : exec i s = .next t) : OpActs s i t := by
  cases hi : isHostOp i with
  | true =>
    rcases exec_hostOp_cases hi s with e | ⟨busy, -, ts, s1, started, e⟩
    · cases h.symm.trans e
      exact .refused i
    · cases h.symm.trans e
      rcases started.begin_or_silent with ⟨hp, rfl, rfl, rfl⟩ | ⟨-, bus, keeps⟩
      · exact .begun busy (runTasks_pieces _ _)
      · exact .pieces (((accepted_pieces s).silently bus keeps).trans (runTasks_pieces ts s1))
  | false =>
    cases i with
    | beginOp | ident | rd8 | rd16 | rd32 | rdbuf | wrbuf | erchip | ersec | erb32 | erb64 | used | reservedC
    | reservedD | reservedE | reservedF => cases hi
    | rdid | readJEDEC => cases h; exact .pieces (readJedec_pieces s)
    | rdsr1 | readStatus1 => cases h; exact .pieces (readStatus1_pieces s)
    | rdsr2 | readStatus2 => cases h; exact .pieces (readStatus2_pieces s)
    | rsten | rst | wren | ce | runCommand | writeEnable => cases h; exact .pieces (runCommand_pieces _ s)
    | fastrd | readMemory => cases h; exact .pieces (readMemory_pieces _ _ s)
    | pp | writeMemory => cases h; exact .pieces (programBuffer_pieces _ _ s)
    | se | be32 | be64 | eraseCommand => cases h; exact .pieces (eraseCommand_pieces _ _ s)
    | readCommand => cases h; exact .pieces (readCommand_pieces _ _ s)
    | waitUntilReady => cases h; exact .pieces (runTasks_pieces _ s)
    | configureLines => cases h; exact .configured
    | selectAssert | selectDeassert | clockPulse | transferByte | transferBuffer | addressPhase =>
      obtain ⟨evs, bare, emitted⟩ := exec_bare rfl h
      exact .bare rfl bare emitted

theorem BareEvents.sameButLevels {evs : List Event} (h : BareEvents evs) (x : Lines) :
    x.SameButLevels (evs.foldl Lines.after x) := by
  obtain ⟨v, rfl⟩ | ⟨hp, rfl | ⟨tx, rx, rfl⟩⟩ := h
  · exact .select v x
  · exact .pulse hp x
  · exact .exchange hp tx rx x

theorem OpActs.sameButLevels {i : Instr} {s t : State} (h : OpActs s i t) (hi : configures i = false) :
    s.bus.line.SameButLevels t.bus.line := by
  cases h with
  | refused => exact .refl _
  | pieces h => exact h.sameButLevels
  | begun | configured => cases hi
  | bare _ h emitted => rw [emitted.line]; exact h.sameButLevels _

/-- Settles O41: what operations and resumptions leave alone, and the lines after events that configure nothing. -/
theorem buffersAndLinesFrame : Obligations.BuffersAndLinesFrame := by
  refine ⟨fun i s t h => ?_, fun s => ?_⟩
  · have spares := exec_spares h
    exact ⟨spares.wbuf, spares.rbuf, fun hi => ((exec_acts h).sameButLevels hi).dirs⟩
  · exact ⟨(resume_keeps s).wbuf, (resume_sparedBy s).rbuf, (resume_pieces s).sameButLevels.dirs⟩

/-! ### Every effect is that of events (R10) -/

/-- From `s` to `t` the outside has seen the events `evs` and nothing else. -/
def State.ActsBy (s t : State) (evs : List Event) : Prop :=
  ∃ b, s.bus.Emitted b evs ∧ t.bus.trace = b.trace ∧ t.bus.line = b.line ∧ t.bus.env = b.env

theorem Bus.Emitted.actsBy {s t : State} {evs : List Event} (h : s.bus.Emitted t.bus evs) : s.ActsBy t evs :=
  ⟨_, h, rfl, rfl, rfl⟩

theorem State.actsBy_refuse (s : State) : s.ActsBy (refuse s) [] := ⟨_, .nothing s.bus, rfl, rfl, rfl⟩

theorem State.DoesPieces.actsBy {s t : State} (h : s.DoesPieces t) :
    ∃ segs, (∀ g ∈ segs, g.Sound) ∧ s.ActsBy t (segmentEvents s.hp segs) := by
  obtain ⟨segs, sound, did⟩ := h
  exact ⟨segs, sound, did.emitted.actsBy⟩

/-- The bring-up and what follows it are pieces at the new half-period, the configuration first. -/
theorem begun_actsBy {hp : U32} {s t : State} (h : (bringUp hp s.accepted).DoesPieces t) :
    ∃ segs, (∀ g ∈ segs, g.Sound) ∧ s.ActsBy t (segmentEvents hp (.config :: segs)) := by
  obtain ⟨r, resp, length, handle, -, emitted⟩ := bringUp_emits hp s.accepted
  obtain ⟨segs, sound, did⟩ := h
  refine ⟨.frame (responseFrame s.cfg.opRdid 3) (r :: resp) :: segs, ?_, ?_⟩
  · intro g hg
    rcases List.mem_cons.1 hg with rfl | hg
    · simp [Segment.Sound, length]
    · exact sound g hg
  · have hpe : (bringUp hp s.accepted).hp = hp := by rw [State.hp, handle]
    have h := emitted.trans (hpe ▸ did.emitted)
    rw [← segmentEvents_append] at h
    exact Bus.Emitted.actsBy (s := s) h

theorem OpActs.actsBy {i : Instr} {s t : State} (h : OpActs s i t) : ∃ evs, s.ActsBy t evs := by
  cases h with
  | refused => exact ⟨_, s.actsBy_refuse⟩
  | pieces h =>
    obtain ⟨segs, -, acts⟩ := h.actsBy
    exact ⟨_, acts⟩
  | begun _ h =>
    obtain ⟨segs, -, acts⟩ := begun_actsBy h
    exact ⟨_, acts⟩
  | configured => exact ⟨_, (configureLines_spec s).actsBy⟩
  | bare _ _ emitted => exact ⟨_, emitted.actsBy⟩

end Sys2Proof.Machine
end

section
/-! SUPPORT. What a step does to the bus, the control and the rest (R10, R28, R220): from how operations act, with the request taken before and the block reset behind. With it the invariants of every step. -/

namespace Sys2Proof.Machine

/-! ### The request taken -/

/-- The host's buffers beside a command change the buffers alone. -/
theorem takeBuffers_eq (wb rb : Option (List Byte)) (s : State) :
    takeBuffers wb rb s =
      { s with wbuf := (takeBuffers wb rb s).wbuf, rbuf := (takeBuffers wb rb s).rbuf } := by
  unfold takeBuffers
  split <;> rfl

@[simp] theorem takeBuffers_cfg (wb rb : Option (List Byte)) (s : State) : (takeBuffers wb rb s).cfg = s.cfg := by
  rw [takeBuffers_eq]
@[simp] theorem takeBuffers_h (wb rb : Option (List Byte)) (s : State) : (takeBuffers wb rb s).h = s.h := by
  rw [takeBuffers_eq]
@[simp] theorem takeBuffers_bus (wb rb : Option (List Byte)) (s : State) : (takeBuffers wb rb s).bus = s.bus := by
  rw [takeBuffers_eq]
@[simp] theorem takeBuffers_todo (wb rb : Option (List Byte)) (s : State) : (takeBuffers wb rb s).todo = s.todo := by
  rw [takeBuffers_eq]
@[simp] theorem takeBuffers_resets (wb rb : Option (List Byte)) (s : State) :
    (takeBuffers wb rb s).resets = s.resets := by
  rw [takeBuffers_eq]

/-- What a run of a step starts from: the request taken, everything else as before. -/
structure State.TakenTo (s s1 : State) : Prop where
  cfg : s1.cfg = s.cfg
  h : s1.h = s.h
  bus : s1.bus = s.bus
  todo : s1.todo = s.todo
  resets : s1.resets = s.resets

/-- The three things a step can run, with the state that the run starts from. -/
theorem stepCore_runs {s t : State} (h : stepCore s = .next t) :
    t = resume s ∨ ∃ i s1, s.TakenTo s1 ∧ exec i s1 = .next t ∧
      ((isHostOp i = true ∧ ∃ w wb rb bl, .command w wb rb bl ∈ s.host) ∨
        (IsWireFrame i ∧ ∃ bytes, .framer bytes ∈ s.host)) := by
  rcases stepCore_cases h with e | ⟨w, wb, rb, bl, rest, host, e⟩ | ⟨bytes, rest, i, host, frame, e⟩
  · exact .inl e
  · exact .inr ⟨_, takeBuffers wb rb { s with host := rest }, ⟨takeBuffers_cfg _ _ _, takeBuffers_h _ _ _,
        takeBuffers_bus _ _ _, takeBuffers_todo _ _ _,
      takeBuffers_resets _ _ _⟩, e, .inl ⟨isHostOp_decodeCommand w, w, wb, rb, bl, by simp [host]⟩⟩
  · exact .inr ⟨i, { s with host := rest }, ⟨rfl, rfl, rfl, rfl, rfl⟩, e, .inr ⟨frame, bytes, by simp [host]⟩⟩

theorem stepCore_cfg_resets {s t : State} (h : stepCore s = .next t) : t.cfg = s.cfg ∧ t.resets = s.resets := by
  rcases stepCore_runs h with rfl | ⟨i, s1, taken, e, -⟩
  · exact ⟨(resume_keeps s).cfg, (resume_keeps s).resets⟩
  · exact ⟨(exec_spares e).cfg.trans taken.cfg, (exec_spares e).resets.trans taken.resets⟩

/-! ### The events of a step -/

theorem State.ActsBy.ofBus {s s1 t : State} {evs : List Event} (h : s1.ActsBy t evs) (e : s1.bus = s.bus) :
    s.ActsBy t evs := by
  obtain ⟨b, emitted, rest⟩ := h
  exact ⟨b, e ▸ emitted, rest⟩

/-- A step emits whole frames, yields and delays, after the configuration when it begins a bring-up. -/
theorem stepCore_pieces {s t : State} (h : stepCore s = .next t) :
    ∃ hp pre segs, (pre = [] ∨ pre = [Segment.config]) ∧ (∀ g ∈ segs, g.Sound) ∧
      s.ActsBy t (segmentEvents hp (pre ++ segs)) := by
  rcases stepCore_runs h with rfl | ⟨i, s1, taken, e, kind⟩
  · obtain ⟨segs, sound, acts⟩ := (resume_pieces s).actsBy
    exact ⟨s.hp, [], segs, .inl rfl, sound, acts⟩
  · rcases kind with ⟨hostOp, -⟩ | ⟨frame, -⟩
    · cases exec_acts e with
      | refused => exact ⟨0, [], [], .inl rfl, by simp, s1.actsBy_refuse.ofBus taken.bus⟩
      | pieces h =>
        obtain ⟨segs, sound, acts⟩ := h.actsBy
        exact ⟨s1.hp, [], segs, .inl rfl, sound, acts.ofBus taken.bus⟩
      | begun _ h =>
        obtain ⟨segs, sound, acts⟩ := begun_actsBy h
        exact ⟨_, [.config], segs, .inr rfl, sound, acts.ofBus taken.bus⟩
      | configured => cases hostOp
      | bare internal => rw [hostOp] at internal; cases internal
    · obtain ⟨segs, sound, acts⟩ := (exec_wireFrame frame e).1.actsBy
      exact ⟨s1.hp, [], segs, .inl rfl, sound, acts.ofBus taken.bus⟩

/-- What a step leaves of the events of its run: all of them, or the first ones when a block reset falls into it. -/
theorem step_takes {s t : State} (h : step s = .next t) :
    ∃ t', stepCore s.tick = .next t' ∧ (s.resetDue = none → t = t') ∧
      (s.resetDue ≠ none → t.bus.line = Lines.reset) ∧
      ∀ evs, s.ActsBy t' evs → ∃ n, (s.resetDue = none → evs.length ≤ n) ∧
        t.bus.trace = s.bus.trace ++ evs.take n ∧ t.bus.env = s.bus.env.replay (evs.take n) := by
  have all {t' : State} {evs : List Event} (acts : s.ActsBy t' evs) :
      t'.bus.trace = s.bus.trace ++ evs.take evs.length ∧ t'.bus.env = s.bus.env.replay (evs.take evs.length) := by
    obtain ⟨b, emitted, trace, -, env⟩ := acts
    rw [List.take_length]
    exact ⟨trace.trans emitted.trace, env.trans emitted.env⟩
  rcases step_cases h with ⟨due, e⟩ | ⟨n, t', due, e, ⟨-, rfl⟩ | ⟨-, rfl⟩⟩
  · exact ⟨t, e, fun _ => rfl, fun n => absurd due n, fun evs acts => ⟨_, fun _ => le_rfl, all acts⟩⟩
  · refine ⟨t', e, by simp [due], fun _ => rfl, fun evs acts => ⟨n, by simp [due], ?_⟩⟩
    have bus : s.taken.bus = s.bus := by rw [State.taken_eq]
    obtain ⟨trace, -⟩ := all acts
    rw [blockReset_trace, blockReset_env, cutRun, bus, trace, List.take_length, List.drop_left]
    exact ⟨rfl, rfl⟩
  · refine ⟨t', e, by simp [due], fun _ => rfl, fun evs acts => ⟨evs.length, by simp [due], ?_⟩⟩
    rw [blockReset_trace, blockReset_env]
    exact all acts

/-- Settles O43: every way an operation can act is by events, and a step takes all or the first of them. -/
theorem operationsActThroughEvents : Obligations.OperationsActThroughEvents := by
  refine ⟨fun i s t h => (exec_acts h).actsBy, fun s t h => ?_⟩
  obtain ⟨t', core, same, line, takes⟩ := step_takes h
  obtain ⟨hp, pre, segs, -, -, acts⟩ := stepCore_pieces core
  obtain ⟨n, -, trace, env⟩ := takes _ acts
  obtain ⟨b, emitted, trace', line', env'⟩ := acts
  cases due : s.resetDue with
  | none =>
    cases same due
    exact ⟨_, b, emitted, trace', env', by rw [if_pos rfl]; exact line'⟩
  | some k =>
    exact ⟨_, _, emitted.take n, trace, env, by rw [if_neg (by simp)]; exact line (by simp [due])⟩

/-- Settles O47: events keep the array canonical. -/
theorem stepKeepsFlashCanonical : Obligations.StepKeepsFlashCanonical := by
  intro s t wf h
  obtain ⟨t', core, -, -, takes⟩ := step_takes h
  obtain ⟨hp, pre, segs, -, -, acts⟩ := stepCore_pieces core
  obtain ⟨n, -, -, env⟩ := takes _ acts
  rw [State.FlashWf, env]
  exact Env.replay_flashWf wf _

/-- Settles O48. -/
theorem resetMeetsTheInvariants : Obligations.ResetMeetsTheInvariants :=
  ⟨fun h => absurd h (by decide), .inl ⟨rfl, rfl⟩, fun c h => by cases h⟩

/-! ### The clock rises under select (R42) -/

theorem clockedUnderSelect_append (sel : Bool) (xs ys : List Event) :
    clockedUnderSelect sel (xs ++ ys) =
      (clockedUnderSelect sel xs && clockedUnderSelect (xs.foldl selectAfter sel) ys) := by
  induction xs generalizing sel with
  | nil => rfl
  | cons x xs ih => simp [clockedUnderSelect, ih, Bool.and_assoc]

theorem clockedUnderSelect_take {sel : Bool} {evs : List Event} (h : clockedUnderSelect sel evs = true) (n : Nat) :
    clockedUnderSelect sel (evs.take n) = true := by
  rw [← List.take_append_drop n evs, clockedUnderSelect_append, Bool.and_eq_true] at h
  exact h.1

/-- Under select the events of a byte exchange are allowed and leave select low. -/
theorem byteEvents_clocked (hp : U32) (t r : Byte) :
    clockedUnderSelect true (byteEvents hp t r) = true ∧ (byteEvents hp t r).foldl selectAfter true = true := by
  have cell (u v : Bool) : clockedUnderSelect true (cellEvents hp u v) = true ∧
      (cellEvents hp u v).foldl selectAfter true = true := by
    unfold cellEvents pulseEvents delayEvents
    split <;> simp [clockedUnderSelect, clockAllowed, selectAfter]
  simp [byteEvents, clockedUnderSelect_append, cell, List.range, List.range.loop]

theorem exchangeEvents_clocked (hp : U32) (tx rx : List Byte) :
    clockedUnderSelect true (exchangeEvents hp tx rx) = true ∧
      (exchangeEvents hp tx rx).foldl selectAfter true = true := by
  induction tx generalizing rx with
  | nil => exact ⟨rfl, rfl⟩
  | cons t ts ih =>
    cases rx with
    | nil => exact ⟨rfl, rfl⟩
    | cons r rs =>
      obtain ⟨clocked, low⟩ := byteEvents_clocked hp t r
      rw [exchangeEvents, clockedUnderSelect_append, List.foldl_append, clocked, low]
      exact ih rs

/-- Every piece is allowed with select high, and leaves it high. -/
theorem Segment.clocked (hp : U32) (g : Segment) :
    clockedUnderSelect false (g.events hp) = true ∧ (g.events hp).foldl selectAfter false = false := by
  cases g with
  | config => exact ⟨rfl, rfl⟩
  | yield => exact ⟨rfl, rfl⟩
  | delay n => exact ⟨rfl, rfl⟩
  | frame tx rx =>
    obtain ⟨clocked, low⟩ := exchangeEvents_clocked hp tx rx
    rw [Segment.events, frameEvents]
    constructor
    · simp [clockedUnderSelect, clockAllowed, selectAfter, clockedUnderSelect_append, clocked]
    · simp [selectAfter, low]

theorem segmentEvents_clocked (hp : U32) (segs : List Segment) :
    clockedUnderSelect false (segmentEvents hp segs) = true := by
  induction segs with
  | nil => rfl
  | cons g gs ih =>
    obtain ⟨clocked, high⟩ := g.clocked hp
    rw [segmentEvents_cons, clockedUnderSelect_append, clocked, high, ih]
    rfl

/-- Settles O49: a step emits pieces, or the first events of them. -/
theorem clockRisesOnlyUnderSelect : Obligations.ClockRisesOnlyUnderSelect := by
  intro s t h
  obtain ⟨t', core, -, -, takes⟩ := step_takes h
  obtain ⟨hp, pre, segs, -, -, acts⟩ := stepCore_pieces core
  obtain ⟨n, -, trace, -⟩ := takes _ acts
  exact ⟨_, trace, clockedUnderSelect_take (segmentEvents_clocked hp _) n⟩

/-! ### Block reset (R40, R220) -/

/-- Settles O7: each field as `blockReset` and `State.reset` write it. -/
theorem blockResetGivesTheResetValues : Obligations.BlockResetGivesTheResetValues := by
  intro s t ht
  have unconfigured : ∀ l : Line, Lines.reset.get l = ⟨.unconfigured, none⟩ := fun l => by cases l <;> rfl
  simp only [List.mem_cons, List.not_mem_nil, or_false] at ht
  obtain rfl | rfl := ht
  · exact ⟨rfl, rfl, rfl, rfl, unconfigured, rfl, rfl, rfl, rfl, rfl, rfl, rfl, rfl, rfl, rfl⟩
  · exact ⟨rfl, rfl, rfl, rfl, unconfigured, rfl, rfl, rfl, rfl, rfl, rfl, rfl, rfl, rfl, rfl⟩

/-- Settles O8: `afterReset` of what the step ran, which has the configuration and the block resets of before. -/
theorem blockResetCutsARunShort : Obligations.BlockResetCutsARunShort := by
  intro s t n due core
  obtain ⟨cfg, resets⟩ := stepCore_cfg_resets core
  have taken := s.taken_eq
  have bus : s.taken.bus = s.bus := by rw [taken]
  have handle : s.taken.h = s.h := by rw [taken]
  have rsps : s.taken.rsps = s.rsps := by rw [taken]
  have width : t.cfg.addressWidth = s.cfg.addressWidth := congrArg Cfg.addressWidth cfg
  have count : newEvents s.taken t = newEvents s t := by rw [newEvents, newEvents, bus]
  have stepped : step s = .next (afterReset n s.taken t) := by rw [step, applyReset, due, core]
  refine ⟨_, stepped, ?_⟩
  rw [afterReset, count]
  split
  · refine ⟨rfl, width, rfl, rfl, rfl, rfl, cfg, rfl, rfl, resets, fun _ => ⟨?_, rsps, ?_⟩, fun _ => by omega⟩
    · rw [blockReset_trace, cutRun, bus]
    · rw [blockReset_rbuf, cutRun, State.hp, bus, handle]
      rfl
  · exact ⟨rfl, width, rfl, rfl, rfl, rfl, cfg, rfl, rfl, resets, fun _ => by omega, fun _ => ⟨rfl, rfl, rfl⟩⟩

/-! ### Idle lines (R35) -/

theorem State.IdleLines.congr {s t : State} (h : s.IdleLines) (handle : t.h = s.h) (todo : t.todo = s.todo)
    (line : t.bus.line = s.bus.line) : t.IdleLines := by
  simpa only [State.IdleLines, State.inProgress, handle, todo, line] using h

theorem exec_idleLines {i : Instr} {s t : State} (inv : s.IdleLines) (hi : isHostOp i = true ∨ IsWireFrame i)
    (h : exec i s = .next t) : t.IdleLines := by
  rcases hi with hi | frame
  · rcases exec_hostOp_cases hi s with e | ⟨-, init, ts, s1, started, e⟩
    · cases h.symm.trans e
      exact inv.congr rfl rfl rfl
    · cases h.symm.trans e
      intro _
      refine (runTasks_pieces ts s1).idle ?_
      rcases started.begin_or_silent with ⟨hp, rfl, rfl, rfl⟩ | ⟨needs, bus, -⟩
      · exact bringUp_idle hp s.accepted
      · rw [bus]
        exact inv (by rw [init needs]; rfl)
  · obtain ⟨pieces, handle, todo, -⟩ := exec_wireFrame frame h
    intro begun
    refine pieces.idle (inv ?_)
    simpa only [State.inProgress, handle, todo] using begun

/-- With no bring-up and nothing in progress there is nothing to take up again. -/
theorem resume_idleLines {s : State} (inv : s.IdleLines) : (resume s).IdleLines := by
  by_cases begun : (s.h.initialized || s.inProgress) = true
  · exact fun _ => (resume_pieces s).idle (inv begun)
  · have none : s.todo = [] := by
      simp only [State.inProgress, Bool.not_eq_true, Bool.or_eq_false_iff, Bool.not_eq_false'] at begun
      simpa using begun.2.2
    rwa [resume_nothing none]

/-- Settles O45: the request taken changes neither lines nor control, and after a block reset nothing has begun. -/
theorem stepKeepsIdleLines : Obligations.StepKeepsIdleLines := by
  intro s t inv h
  obtain ⟨due, core⟩ | ⟨n, t', -, -, ⟨-, rfl⟩ | ⟨-, rfl⟩⟩ := step_cases h
  · rcases stepCore_runs core with rfl | ⟨i, s1, taken, e, kind⟩
    · exact resume_idleLines (s := s.tick) inv
    · refine exec_idleLines (State.IdleLines.congr inv taken.h taken.todo (congrArg Bus.line taken.bus)) ?_ e
      exact kind.imp And.left And.left
  · exact fun begun => by cases begun
  · exact fun begun => by cases begun

/-! ### Coherent control (R28, R29) -/

/-- What is left when `begin` waits is what can be left of it. -/
theorem beginTails_suffix :
    ∀ ts ∈ beginTails, ∀ rest ∈ ts.tails, (rest.head?.any Task.mayWait) = true → rest ∈ beginTails := by
  decide

theorem AccessTail.suffix {c : Cfg} {ts rest : List Task} {t : Task} (h : AccessTail c ts) (waits : t.mayWait = true)
    (suffix : t :: rest <:+ ts) : AccessTail c (t :: rest) := by
  have single {u : Task} (h : t :: rest <:+ [u]) : t :: rest = [u] := by
    rcases List.suffix_cons_iff.1 h with e | e
    · exact e
    · exact absurd (List.suffix_nil.1 e) (List.cons_ne_nil t rest)
  obtain ⟨u, rfl, gated⟩ | ⟨len, rfl⟩ | rfl := h
  · rcases List.suffix_cons_iff.1 suffix with e | e
    · exact .inl ⟨u, e, gated⟩
    · cases single e
      cases t with
      | pollWip | pollSus | gate | writeLoop | scan => cases gated
      | _ => cases waits
  · exact .inr (.inl ⟨len, single suffix⟩)
  · exact .inr (.inr (single suffix))

/-- A busy run of what can be left of an operation leaves the control coherent. -/
theorem runTasks_coherent {ts : List Task} {s : State} (busy : s.h.busy = true) (fresh : s.todo = [])
    (kind : ts ∈ beginTails ∨ (AccessTail s.cfg ts ∧ s.h.initialized = true)) : (runTasks ts s).Coherent := by
  have once : endsOnce ts = true := kind.elim (endsOnce_beginTails ts) fun h => h.1.endsOnce
  have cfg : (runTasks ts s).cfg = s.cfg := by
    obtain ⟨_, _, did⟩ := runTasks_pieces ts s
    exact did.keeps.cfg
  rcases runTasks_control once fresh with ⟨same, t, rest, waits, left, suffix⟩ | ⟨ended, left⟩
  · rw [State.Coherent, same.h, cfg, left]
    refine .inr ⟨busy, kind.imp (fun h => ?_) fun h => ⟨h.1.suffix waits suffix, h.2⟩⟩
    exact beginTails_suffix ts h _ ((List.mem_tails _ _).2 suffix) waits
  · exact .inl ⟨ended.busy, left⟩

/-- The address of an erase operation is a multiple of its unit, also where it wraps (R60, R180). -/
theorem eraseAddress_mod {unit : Nat} (h : unit ∣ 2 ^ 32) (idx : U32) : (eraseAddress unit idx).toNat % unit = 0 := by
  rw [eraseAddress, BitVec.toNat_mul, BitVec.toNat_ofNat, Nat.mod_mod_of_dvd _ h, Nat.mul_mod, Nat.mod_mod_of_dvd _ h,
    Nat.mod_self, Nat.mul_zero, Nat.zero_mod]

/-- What comes after the readiness wait of a read or an erase may be left of it. -/
theorem gatedTask_of_afterGate {c : Cfg} {i : Instr} {task : Task} (h : afterGate c i = some task) :
    gatedTask c task = true := by
  have sector := fun idx => eraseAddress_mod (unit := Config.sectorSize) (by decide) idx
  have block32 := fun idx => eraseAddress_mod (unit := Config.block32Size) (by decide) idx
  have block64 := fun idx => eraseAddress_mod (unit := Config.block64Size) (by decide) idx
  cases i with
  | rd8 | rd16 | rd32 | rdbuf | erchip => cases h; rfl
  | ersec k => cases h; simp [gatedTask, soundErase, sector]
  | erb32 k => cases h; simp [gatedTask, soundErase, block32]
  | erb64 k => cases h; simp [gatedTask, soundErase, block64]
  | _ => cases h

/-- An accepted operation but `IDENT` runs what can be left of an operation. -/
theorem Started.tail {s s1 : State} {i : Instr} {ts : List Task} (h : Started s i ts s1) :
    (ts = [] ∧ s1 = finish s.h.jedec.compose s) ∨
      (s1.h.busy = s.h.busy ∧ s1.todo = s.todo ∧ s1.cfg = s.cfg ∧
        (ts ∈ beginTails ∨ (AccessTail s.cfg ts ∧ needsInit i = true ∧ s1.h.initialized = s.h.initialized))) := by
  cases h with
  | beginOp hp => exact .inr ⟨rfl, rfl, rfl, .inl (by decide)⟩
  | ident => exact .inl ⟨rfl, rfl⟩
  | wrbuf a n => exact .inr ⟨rfl, rfl, rfl, .inr ⟨.inr (.inl ⟨n, rfl⟩), rfl, rfl⟩⟩
  | used => exact .inr ⟨rfl, rfl, rfl, .inr ⟨.inr (.inr rfl), rfl, rfl⟩⟩
  | @gated i task h =>
    refine .inr ⟨rfl, rfl, rfl, .inr ⟨.inl ⟨task, rfl, gatedTask_of_afterGate h⟩, ?_, rfl⟩⟩
    cases i with
    | beginOp => cases h
    | _ => rfl

theorem State.Coherent.congr {s t : State} (h : s.Coherent) (handle : t.h = s.h) (todo : t.todo = s.todo)
    (cfg : t.cfg = s.cfg) : t.Coherent := by
  rwa [State.Coherent, handle, todo, cfg]

theorem State.Coherent.todo_of_idle {s : State} (h : s.Coherent) (idle : s.h.busy = false) : s.todo = [] := by
  obtain ⟨-, none⟩ | ⟨busy, -⟩ := h
  · exact none
  · rw [idle] at busy; cases busy

theorem exec_coherent {i : Instr} {s t : State} (inv : s.Coherent) (hi : isHostOp i = true ∨ IsWireFrame i)
    (h : exec i s = .next t) : t.Coherent := by
  rcases hi with hi | frame
  · rcases exec_hostOp_cases hi s with e | ⟨idle, init, ts, s1, started, e⟩
    · cases h.symm.trans e
      exact inv.congr rfl rfl rfl
    · cases h.symm.trans e
      have none : s.todo = [] := inv.todo_of_idle idle
      rcases started.tail with ⟨rfl, rfl⟩ | ⟨busy, todo, cfg, kind⟩
      · exact .inl ⟨rfl, none⟩
      · refine runTasks_coherent busy (todo.trans none) (kind.imp_right fun ⟨tail, needs, same⟩ => ⟨?_, ?_⟩)
        · rwa [cfg]
        · exact same.trans (init needs)
  · obtain ⟨pieces, handle, todo, -⟩ := exec_wireFrame frame h
    obtain ⟨_, _, did⟩ := pieces
    exact inv.congr handle todo did.keeps.cfg

theorem resume_coherent {s : State} (inv : s.Coherent) : (resume s).Coherent := by
  by_cases none : s.todo = []
  · rwa [resume_nothing none]
  · obtain ⟨-, nothing⟩ | ⟨busy, kind⟩ := inv
    · exact absurd nothing none
    · exact runTasks_coherent (s := { s with todo := [] }) busy rfl kind

/-- Settles O46: the request taken does not change the control, and after a block reset nothing is in progress. -/
theorem stepKeepsControlCoherent : Obligations.StepKeepsControlCoherent := by
  intro s t inv h
  obtain ⟨due, core⟩ | ⟨n, t', -, -, ⟨-, rfl⟩ | ⟨-, rfl⟩⟩ := step_cases h
  · rcases stepCore_runs core with rfl | ⟨i, s1, taken, e, kind⟩
    · exact resume_coherent (s := s.tick) inv
    · exact exec_coherent (State.Coherent.congr inv taken.h taken.todo taken.cfg) (kind.imp And.left And.left) e
  · exact .inl ⟨rfl, rfl⟩
  · exact .inl ⟨rfl, rfl⟩

end Sys2Proof.Machine
end

section
/-! SUPPORT. The grammar of the trace and the readiness gate (R82, R156, R166): each framer operation emits one allowed frame and moves the gate, and the runs of tasks compose. With it the statement about the frames of a step. -/

namespace Sys2Proof.Machine

/-- From `s` to `t` allowed pieces were emitted, each admitted when it came, and they took the gate from `g` to `g'`. -/
def State.Passes (s t : State) (g g' : Gate) : Prop :=
  ∃ segs, s.Did t segs ∧ (∀ x ∈ segs, x.Allowed s.cfg s.h.addressWidth) ∧ gated s.cfg g segs = true ∧
    segs.foldl (Gate.after s.cfg) g = g'

theorem gated_append (c : Cfg) (g : Gate) (xs ys : List Segment) :
    gated c g (xs ++ ys) = (gated c g xs && gated c (xs.foldl (Gate.after c) g) ys) := by
  induction xs generalizing g with
  | nil => rfl
  | cons x xs ih => simp [gated, ih, Bool.and_assoc]

namespace State.Passes

theorem nothing (s : State) (g : Gate) : s.Passes s g g := ⟨[], .nothing s, by simp, rfl, rfl⟩

theorem trans {a b c : State} {g g' g'' : Gate} (h : a.Passes b g g') (k : b.Passes c g' g'') : a.Passes c g g'' := by
  obtain ⟨xs, did, allowed, pass, after⟩ := h
  obtain ⟨ys, did', allowed', pass', after'⟩ := k
  rw [did.keeps.cfg] at allowed' pass' after'
  rw [did.keeps.addressWidth] at allowed'
  refine ⟨xs ++ ys, did.trans did', fun x hx => (List.mem_append.1 hx).elim (allowed x) (allowed' x), ?_, ?_⟩
  · rw [gated_append, pass, after, pass']
    rfl
  · rw [List.foldl_append, after, after']

theorem silently {a b c : State} {g g' : Gate} (h : a.Passes b g g') (e : c.bus = b.bus) (k : b.Keeps c) :
    a.Passes c g g' := by
  obtain ⟨xs, did, rest⟩ := h
  exact ⟨xs, did.silently e k, rest⟩

theorem finish {a b : State} {g g' : Gate} (h : a.Passes b g g') (v : U32) : a.Passes (Machine.finish v b) g g' :=
  h.silently rfl (finish_keeps v b)

/-- One frame: the encoding of an instruction within its limits, admitted now. -/
theorem frame {s t : State} {g : Gate} {tx rx : List Byte} {i : Instr} (did : s.Did t [.frame tx rx])
    (length : rx.length = tx.length) (wf : i.wf s.h.addressWidth = true) (limits : emittable i = true)
    (encoded : encode s.cfg s.h.addressWidth i = some (.frame tx)) (admitted : g.admits s.cfg (.frame tx rx) = true) :
    s.Passes t g (g.after s.cfg (.frame tx rx)) := by
  refine ⟨_, did, ?_, ?_, rfl⟩
  · intro x hx
    cases List.mem_singleton.1 hx
    exact ⟨length, i, wf, limits, encoded⟩
  · rw [gated, admitted]
    rfl

theorem yield (s : State) (g : Gate) : s.Passes (s.emit .yld) g .closed :=
  ⟨_, emitYield_did s, by simp [Segment.Allowed], rfl, rfl⟩

theorem resetDelay (s : State) (g : Gate) : s.Passes (s.emit (.dly Config.resetDelayUs)) g .closed :=
  ⟨[.delay Config.resetDelayUs], ⟨Bus.pieces_delay _ _ _, rfl, rfl, rfl, rfl, rfl, rfl, rfl⟩, by simp [Segment.Allowed],
    rfl, rfl⟩

end State.Passes

/-! ### The gate at each frame

The tests of the gate against an opcode, for a configuration whose twelve opcode bytes differ. -/

section
variable {c : Cfg} (distinct : c.Distinct)
include distinct

/-- A frame whose opcode is none of those the gate looks at is admitted, and closes the gate. -/
theorem gate_other {op : Byte} (h : op ∈ [c.opRdid, c.opRdsr2, c.opRsten, c.opRst]) (g : Gate) (rest rx : List Byte) :
    g.admits c (.frame (op :: rest) rx) = true ∧ g.after c (.frame (op :: rest) rx) = .closed := by
  have ne := distinct.ne
  simp [Cfg.opcodes] at ne
  simp only [List.mem_cons, List.not_mem_nil, or_false] at h
  obtain rfl | rfl | rfl | rfl := h <;> simp [Gate.admits, Gate.after, latched, ne]

theorem gate_status (g : Gate) (rest rx : List Byte) :
    g.admits c (.frame (c.opRdsr1 :: rest) rx) = true ∧
      g.after c (.frame (c.opRdsr1 :: rest) rx) = if isReady c (rx.getD 1 0) then .ready else .closed := by
  have ne := distinct.ne
  simp [Cfg.opcodes] at ne
  simp [Gate.admits, Gate.after, latched, ne]

theorem gate_read (rest rx : List Byte) :
    Gate.ready.admits c (.frame (c.opFastrd :: rest) rx) = true ∧
      Gate.ready.after c (.frame (c.opFastrd :: rest) rx) = .closed := by
  have ne := distinct.ne
  simp [Cfg.opcodes] at ne
  simp [Gate.admits, Gate.after, ne]

theorem gate_enable (rest rx : List Byte) :
    Gate.ready.admits c (.frame (c.opWren :: rest) rx) = true ∧
      Gate.ready.after c (.frame (c.opWren :: rest) rx) = .enabled := by
  have ne := distinct.ne
  simp [Cfg.opcodes] at ne
  simp [Gate.admits, Gate.after, ne]

theorem gate_latched {op : Byte} (h : op ∈ latched c) (rest rx : List Byte) :
    Gate.enabled.admits c (.frame (op :: rest) rx) = true ∧
      Gate.enabled.after c (.frame (op :: rest) rx) = .closed := by
  have ne := distinct.ne
  simp [Cfg.opcodes] at ne
  simp only [latched, List.mem_cons, List.not_mem_nil, or_false] at h
  obtain rfl | rfl | rfl | rfl | rfl := h <;> simp [Gate.admits, Gate.after, latched, ne]

end

/-! ### Addresses as the frame carries them (R100) -/

/-- The part of an address that the frame's address bytes carry. -/
def carried (aw : AddrWidth) (a : U32) : U32 := BitVec.ofNat 32 (a.toNat % 2 ^ (8 * aw.bytes))

theorem carried_toNat (aw : AddrWidth) (a : U32) : (carried aw a).toNat = a.toNat % 2 ^ (8 * aw.bytes) := by
  rw [carried, BitVec.toNat_ofNat]
  exact Nat.mod_eq_of_lt (lt_of_le_of_lt (Nat.mod_le _ _) a.isLt)

theorem carried_fits (aw : AddrWidth) (a : U32) : aw.fits (carried aw a) = true := by
  rw [AddrWidth.fits, carried_toNat]
  exact decide_eq_true (Nat.mod_lt _ (by positivity))

theorem addressBytes_carried (aw : AddrWidth) (a : U32) : addressBytes aw (carried aw a) = addressBytes aw a :=
  addressBytes_congr (by rw [carried_toNat, Nat.mod_mod])

/-- The address inside a page or an erase unit is carried whole. -/
theorem carried_mod (aw : AddrWidth) (a : U32) {unit : Nat} (h : unit ∣ 2 ^ 24) :
    (carried aw a).toNat % unit = a.toNat % unit := by
  rw [carried_toNat]
  refine Nat.mod_mod_of_dvd _ (h.trans (Nat.pow_dvd_pow 2 ?_))
  cases aw <;> decide

/-! ### The framer operations -/

section
variable {s : State} (distinct : s.cfg.Distinct)
include distinct

theorem readStatus1_passes (g : Gate) :
    s.Passes (readStatus1 s) g (if s.pollsReady then .ready else .closed) := by
  obtain ⟨r, did⟩ := readStatus1_did s
  obtain ⟨admitted, after⟩ := gate_status distinct g (List.replicate 1 Config.fill) [r, s.polled]
  exact after ▸ State.Passes.frame (i := .rdsr1) did rfl rfl rfl rfl admitted

theorem readStatus2_passes (g : Gate) : s.Passes (readStatus2 s) g .closed := by
  obtain ⟨r, st, did⟩ := readStatus2_did s
  obtain ⟨admitted, after⟩ := gate_other distinct (op := s.cfg.opRdsr2) (by simp) g (List.replicate 1 Config.fill) [r, st]
  exact after ▸ State.Passes.frame (i := .rdsr2) did rfl rfl rfl rfl admitted

/-- Enable-reset, reset and the delay. -/
theorem chipReset_passes (g : Gate) : s.Passes (chipReset s) g .closed := by
  obtain ⟨r, enable⟩ := runCommand_did s.cfg.opRsten s
  obtain ⟨r', reset⟩ := runCommand_did s.cfg.opRst (runCommand s.cfg.opRsten s)
  obtain ⟨admitted, after⟩ := gate_other distinct (op := s.cfg.opRsten) (by simp) g [] [r]
  obtain ⟨admitted', after'⟩ := gate_other distinct (op := s.cfg.opRst) (by simp) .closed [] [r']
  have first : s.Passes _ g .closed := after ▸ State.Passes.frame (i := .rsten) enable rfl rfl rfl rfl admitted
  have second : State.Passes _ _ .closed .closed :=
    after' ▸ State.Passes.frame (i := .rst) reset rfl rfl rfl rfl admitted'
  exact (first.trans second).trans (.resetDelay _ _)

theorem writeEnable_passes : s.Passes (writeEnable s) .ready .enabled := by
  obtain ⟨r, did⟩ := runCommand_did s.cfg.opWren s
  obtain ⟨admitted, after⟩ := gate_enable distinct [] [r]
  exact after ▸ State.Passes.frame (i := .wren) did rfl rfl rfl rfl admitted

theorem readBytes_passes (a : U32) {n : Nat} (h : n < 2 ^ 32) : s.Passes (readBytes a n s).2 .ready .closed := by
  obtain ⟨rx, length, did⟩ := readBytes_did a n s
  obtain ⟨admitted, after⟩ := gate_read distinct
    (addressBytes s.h.addressWidth a ++ s.cfg.dummy :: List.replicate n Config.fill) rx
  refine after ▸ State.Passes.frame (i := .fastrd (carried s.h.addressWidth a) (BitVec.ofNat 32 n)) did
    ?_ ?_ rfl ?_ admitted
  · rw [length]
    exact (readFrame_length _ _ a n).symm
  · exact carried_fits _ _
  · rw [encode, addressBytes_carried, BitVec.toNat_ofNat, Nat.mod_eq_of_lt h]
    rfl

/-- A program frame within a page. -/
theorem programBuffer_passes {a : U32} {payload : List Byte} (some : 0 < payload.length)
    (page : a.toNat % Config.pageSize + payload.length ≤ Config.pageSize) :
    s.Passes (programBuffer a payload s) .enabled .closed := by
  obtain ⟨rx, length, did⟩ := programBuffer_did a payload s
  obtain ⟨admitted, after⟩ := gate_latched distinct (op := s.cfg.opPp) (by simp [latched])
    (addressBytes s.h.addressWidth a ++ payload) rx
  have same := carried_mod s.h.addressWidth a (unit := Config.pageSize) (by decide)
  have short : payload.length < 2 ^ 32 := by
    simp only [Config.pageSize] at page
    omega
  refine after ▸ State.Passes.frame (i := .pp (carried s.h.addressWidth a) payload) did ?_ ?_ ?_ ?_ admitted
  · simp only [length, List.length_cons, List.length_append, addressBytes_length]
    omega
  · simpa [Instr.wf, carried_fits] using short
  · simp [emittable, same, some, page]
  · rw [encode, addressBytes_carried]
    rfl

theorem eraseAll_passes : s.Passes (runCommand s.cfg.opCe s) .enabled .closed := by
  obtain ⟨r, did⟩ := runCommand_did s.cfg.opCe s
  obtain ⟨admitted, after⟩ := gate_latched distinct (op := s.cfg.opCe) (by simp [latched]) [] [r]
  exact after ▸ State.Passes.frame (i := .ce) did rfl rfl rfl rfl admitted

theorem eraseCommand_passes {op : Byte} {a : U32} (sound : soundErase s.cfg op a = true) :
    s.Passes (eraseCommand op a s) .enabled .closed := by
  obtain ⟨rx, length, did⟩ := eraseCommand_did op a s
  have emits {i : Instr} (latch : op ∈ latched s.cfg) (wf : i.wf s.h.addressWidth = true) (limits : emittable i = true)
      (encoded : encode s.cfg s.h.addressWidth i = some (.frame (addressFrame s.h.addressWidth op a))) :
      s.Passes (eraseCommand op a s) .enabled .closed := by
    obtain ⟨admitted, after⟩ := gate_latched distinct latch (addressBytes s.h.addressWidth a) rx
    refine after ▸ State.Passes.frame did ?_ wf limits encoded admitted
    simp only [length, List.length_cons, addressBytes_length]
  have bytes := addressBytes_carried s.h.addressWidth a
  have fits := carried_fits s.h.addressWidth a
  simp only [soundErase, Bool.or_eq_true, Bool.and_eq_true, beq_iff_eq] at sound
  obtain (⟨rfl, unit⟩ | ⟨rfl, unit⟩) | ⟨rfl, unit⟩ := sound
  · refine emits (i := .se (carried s.h.addressWidth a)) (by simp [latched]) fits ?_ (by rw [encode, bytes]; rfl)
    exact decide_eq_true ((carried_mod _ _ (by decide)).trans unit)
  · refine emits (i := .be32 (carried s.h.addressWidth a)) (by simp [latched]) fits ?_ (by rw [encode, bytes]; rfl)
    exact decide_eq_true ((carried_mod _ _ (by decide)).trans unit)
  · refine emits (i := .be64 (carried s.h.addressWidth a)) (by simp [latched]) fits ?_ (by rw [encode, bytes]; rfl)
    exact decide_eq_true ((carried_mod _ _ (by decide)).trans unit)

end

/-! ### Tasks and runs of tasks -/

/-- The tasks that may run whatever the gate is: those that poll for themselves, and those that access no array. -/
def Task.free : Task → Bool
  | .pollWip | .pollSus | .gate | .chipReset | .finishBegin | .writeLoop _ | .scan => true
  | .read8 _ | .read16 _ | .read32 _ | .readBuffer _ _ | .eraseUnit _ _ | .eraseAll => false

section
variable {s : State} (distinct : s.cfg.Distinct)
include distinct

/-- A pass of `waitUntilReady` leaves the gate ready when it goes on. -/
theorem pollReady_passes (g : Gate) :
    (s.pollsReady = true ∧ pollReady s = .goOn (readStatus1 s) ∧ s.Passes (readStatus1 s) g .ready) ∨
      (∃ u, pollReady s = .wait u ∧ s.Passes u g .closed) := by
  have polled := readStatus1_passes distinct g
  cases hr : s.pollsReady with
  | true =>
    rw [hr] at polled
    exact .inl ⟨rfl, pollReady_ready hr, polled⟩
  | false => exact .inr ⟨_, pollReady_notReady hr, polled.trans (.yield _ _)⟩

/-- The chunk law keeps every program frame inside a page. -/
theorem writeChunk_passes (some : 0 < s.w.chunk.toNat)
    (page : s.w.addr.toNat % Config.pageSize + s.w.chunk.toNat ≤ Config.pageSize) :
    s.Passes (writeChunk s) .ready .closed := by
  have length : ((writeEnable s).payload s.w.chunk.toNat).length = s.w.chunk.toNat := hostBytes_length _ _ _ _
  have program := programBuffer_passes (s := writeEnable s) distinct (a := s.w.addr)
    (payload := (writeEnable s).payload s.w.chunk.toNat) (by rwa [length]) (by rwa [length])
  exact ((writeEnable_passes distinct).trans program).silently rfl ⟨rfl, rfl, rfl, rfl, rfl, rfl, rfl⟩

theorem scanWord_passes (g : Gate) : ∃ g', s.Passes (scanWord s).state g g' := by
  rw [scanWord]
  rcases pollReady_passes distinct g with ⟨-, e, polled⟩ | ⟨u, e, polled⟩ <;> rw [e]
  · have read := polled.trans (readBytes_passes (s := readStatus1 s) distinct (readStatus1 s).w.addr (n := 4) (by decide))
    refine ⟨.closed, ?_⟩
    dsimp only
    split
    · exact read.silently rfl ⟨rfl, rfl, rfl, rfl, rfl, rfl, rfl⟩
    · exact read.silently rfl ⟨rfl, rfl, rfl, rfl, rfl, rfl, rfl⟩
  · exact ⟨.closed, polled⟩

end

theorem writeLoop_passes (len : U32) (n : Nat) {s : State} (distinct : s.cfg.Distinct) (g : Gate) :
    ∃ g', s.Passes (writeLoop len n s).state g g' := by
  induction n generalizing s g with
  | zero => exact ⟨g, (State.Passes.nothing s g).finish _⟩
  | succ n ih =>
    by_cases h : s.w.rem = 0
    · rw [writeLoop_done h]
      exact ⟨g, (State.Passes.nothing s g).finish _⟩
    · obtain ⟨value, -, some⟩ := chunkSizeFollowsTheLaw s.w.addr s.w.rem
      have start : s.Passes (setChunk s) g g :=
        (State.Passes.nothing s g).silently rfl ⟨rfl, rfl, rfl, rfl, rfl, rfl, rfl⟩
      rw [writeLoop, if_neg h]
      rcases pollReady_passes (s := setChunk s) distinct g with ⟨-, e, polled⟩ | ⟨u, e, polled⟩ <;> rw [e]
      · have chunk := writeChunk_passes (s := readStatus1 (setChunk s)) distinct (some h) (by
          show s.w.addr.toNat % 256 + (chunkSize s.w.addr s.w.rem).toNat ≤ 256
          omega)
        obtain ⟨g', rest⟩ := ih (s := writeChunk (readStatus1 (setChunk s))) distinct .closed
        exact ⟨g', ((start.trans polled).trans chunk).trans rest⟩
      · exact ⟨.closed, start.trans polled⟩

/-- A task that polls for itself, or accesses no array, passes the gate as it finds it. -/
theorem runTask_passes {t : Task} (free : t.free = true) {s : State} (distinct : s.cfg.Distinct) (g : Gate) :
    ∃ g', s.Passes (runTask t s).state g g' := by
  cases t with
  | pollWip =>
    show ∃ g', s.Passes (pollWip s).state g g'
    unfold pollWip
    dsimp only
    split <;> exact ⟨_, readStatus1_passes distinct g⟩
  | pollSus =>
    show ∃ g', s.Passes (pollSus s).state g g'
    unfold pollSus
    dsimp only
    split <;> exact ⟨_, readStatus2_passes distinct g⟩
  | gate =>
    show ∃ g', s.Passes (pollReady s).state g g'
    rcases pollReady_passes distinct g with ⟨-, e, polled⟩ | ⟨u, e, polled⟩ <;> rw [e] <;> exact ⟨_, polled⟩
  | chipReset => exact ⟨_, chipReset_passes distinct g⟩
  | finishBegin => exact ⟨g, (State.Passes.nothing s g).silently rfl ⟨rfl, rfl, rfl, rfl, rfl, rfl, rfl⟩⟩
  | writeLoop len => exact writeLoop_passes len _ distinct g
  | scan => exact scanWord_passes distinct g
  | _ => cases free

/-- Behind a poll that found the chip ready, a read is one frame, and an erase is write-enable and its frame. -/
theorem runTask_gatedTask {t : Task} {s : State} (h : gatedTask s.cfg t = true) (distinct : s.cfg.Distinct) :
    s.Passes (runTask t s).state .ready .closed := by
  have enabled := writeEnable_passes distinct
  cases t with
  | read8 a => exact (readBytes_passes distinct a (by decide)).finish _
  | read16 a => exact (readBytes_passes distinct a (by decide)).finish _
  | read32 a => exact (readBytes_passes distinct a (by decide)).finish _
  | readBuffer a n =>
    exact ((readBytes_passes distinct a n.isLt).silently (c := readMemory a n.toNat s) rfl
      ⟨rfl, rfl, rfl, rfl, rfl, rfl, rfl⟩).finish _
  | eraseAll => exact (enabled.trans (eraseAll_passes (s := writeEnable s) distinct)).finish _
  | eraseUnit op a => exact (enabled.trans (eraseCommand_passes (s := writeEnable s) distinct h)).finish _
  | _ => cases h

theorem State.Passes.setTodo {s t : State} {g g' : Gate} (h : s.Passes t g g') (ts : List Task) :
    s.Passes { t with todo := ts } g g' :=
  h.silently rfl ⟨rfl, rfl, rfl, rfl, rfl, rfl, rfl⟩

theorem runTasks_free {ts : List Task} (free : ∀ t ∈ ts, t.free = true) {s : State} (distinct : s.cfg.Distinct)
    (g : Gate) : ∃ g', s.Passes (runTasks ts s) g g' := by
  induction ts generalizing s g with
  | nil => exact ⟨g, .nothing s g⟩
  | cons t ts ih =>
    obtain ⟨g', first⟩ := runTask_passes (free t (by simp)) distinct g
    rw [runTasks]
    split <;> rename_i u e <;> rw [e] at first
    · have cfg : u.cfg = s.cfg := by
        obtain ⟨_, did, -⟩ := first
        exact did.keeps.cfg
      obtain ⟨g'', rest⟩ := ih (fun t ht => free t (by simp [ht])) (s := u) (cfg ▸ distinct) g'
      exact ⟨g'', State.Passes.trans first rest⟩
    · exact ⟨g', first.setTodo _⟩

/-- A read or an erase, its wait included. -/
theorem runTasks_gatedTask {t : Task} {s : State} (h : gatedTask s.cfg t = true) (distinct : s.cfg.Distinct) (g : Gate) :
    ∃ g', s.Passes (runTasks [.gate, t] s) g g' := by
  rcases pollReady_passes distinct g with ⟨hr, -, polled⟩ | ⟨u, e, polled⟩
  · have access := runTask_gatedTask (s := readStatus1 s) h distinct
    rw [runTasks_gate_ready _ hr, ← readStatus1_afterPoll, runTasks]
    split <;> rename_i v e <;> rw [e] at access
    · exact ⟨.closed, polled.trans access⟩
    · exact ⟨.closed, (polled.trans access).setTodo _⟩
  · rw [runTasks_wait (show runTask .gate s = .wait u from e)]
    exact ⟨.closed, polled.setTodo _⟩

/-- What can be left of an operation passes the gate from wherever it stands. -/
theorem runTasks_passes {ts : List Task} {s : State} (kind : ts ∈ beginTails ∨ AccessTail s.cfg ts)
    (distinct : s.cfg.Distinct) (g : Gate) : ∃ g', s.Passes (runTasks ts s) g g' := by
  have begins : ∀ ts ∈ beginTails, ∀ t ∈ ts, t.free = true := by decide
  obtain h | ⟨t, rfl, gated⟩ | ⟨len, rfl⟩ | rfl := kind
  · exact runTasks_free (begins ts h) distinct g
  · exact runTasks_gatedTask gated distinct g
  · exact runTasks_free (by simp [Task.free]) distinct g
  · exact runTasks_free (by simp [Task.free]) distinct g

/-! ### Operations and steps -/

/-- From `s` to `t` allowed pieces were emitted at the half-period that `t` has, behind a closed gate. -/
def State.EmitsGated (s t : State) : Prop :=
  ∃ segs, s.ActsBy t (segmentEvents t.hp segs) ∧ (∀ x ∈ segs, x.Allowed s.cfg s.h.addressWidth) ∧
    gated s.cfg .closed segs = true

theorem State.Passes.emitsGated {s t : State} {g' : Gate} (h : s.Passes t .closed g') : s.EmitsGated t := by
  obtain ⟨segs, did, allowed, pass, -⟩ := h
  have hp : t.hp = s.hp := did.keeps.halfPeriod
  exact ⟨segs, hp ▸ did.emitted.actsBy, allowed, pass⟩

/-- The bring-up is the configuration and the frame `RDID`, and what follows passes the gate that they leave closed. -/
theorem begin_emitsGated {hp : U32} {s : State} (distinct : s.cfg.Distinct) :
    s.EmitsGated (runTasks beginTasks (bringUp hp s)) := by
  obtain ⟨r, resp, length, handle, -, emitted⟩ := bringUp_emits hp s
  obtain ⟨g', segs, did, allowed, pass, -⟩ :=
    runTasks_passes (ts := beginTasks) (s := bringUp hp s) (.inl (by decide)) distinct .closed
  obtain ⟨admitted, after⟩ := gate_other distinct (op := s.cfg.opRdid) (by simp) .closed
    (List.replicate 3 Config.fill) (r :: resp)
  have start : (bringUp hp s).hp = hp := congrArg Handle.clockHalfPeriod handle
  have same : (runTasks beginTasks (bringUp hp s)).hp = hp := did.keeps.halfPeriod.trans start
  refine ⟨.config :: .frame (responseFrame s.cfg.opRdid 3) (r :: resp) :: segs, ?_, ?_, ?_⟩
  · rw [same]
    have h := emitted.trans (start ▸ did.emitted)
    rw [← segmentEvents_append] at h
    exact h.actsBy
  · intro x hx
    rcases List.mem_cons.1 hx with rfl | hx
    · trivial
    · rcases List.mem_cons.1 hx with rfl | hx
      · exact ⟨by simp [length], .rdid, rfl, rfl, rfl⟩
      · have h := allowed x hx
        rwa [handle] at h
  · have first : gated s.cfg .closed [.config, .frame (responseFrame s.cfg.opRdid 3) (r :: resp)] = true := by
      simp only [gated, Gate.admits, Gate.after, Bool.true_and, Bool.and_true]
      exact admitted
    show gated s.cfg .closed ([.config, .frame (responseFrame s.cfg.opRdid 3) (r :: resp)] ++ segs) = true
    rw [gated_append, first]
    show gated s.cfg (Gate.closed.after s.cfg (.frame (s.cfg.opRdid :: List.replicate 3 Config.fill) (r :: resp))) segs = true
    rw [after]
    exact pass

theorem exec_emitsGated {i : Instr} {s t : State} (hi : isHostOp i = true) (distinct : s.cfg.Distinct)
    (h : exec i s = .next t) : s.EmitsGated t := by
  rcases exec_hostOp_cases hi s with e | ⟨-, -, ts, s1, started, e⟩
  · cases h.symm.trans e
    exact ⟨[], s.actsBy_refuse, by simp, rfl⟩
  · cases h.symm.trans e
    have start : s.Passes s.accepted .closed .closed := (State.Passes.nothing s .closed).silently rfl (accepted_keeps s)
    rcases started.begin_or_silent with ⟨hp, rfl, rfl, rfl⟩ | ⟨-, bus, keeps⟩
    · exact begin_emitsGated (s := s.accepted) distinct
    · have silent := start.silently bus keeps
      rcases started.tail with ⟨rfl, rfl⟩ | ⟨-, -, cfg, kind⟩
      · exact silent.emitsGated
      · have cfg : s1.cfg = s.cfg := cfg
        obtain ⟨g', run⟩ := runTasks_passes (ts := ts) (s := s1) (kind.imp_right fun k => cfg ▸ k.1) (cfg ▸ distinct)
          .closed
        exact (silent.trans run).emitsGated

theorem resume_emitsGated {s : State} (coherent : s.Coherent) (distinct : s.cfg.Distinct) : s.EmitsGated (resume s) := by
  obtain ⟨-, none⟩ | ⟨-, kind⟩ := coherent
  · rw [resume_nothing none]
    exact (State.Passes.nothing s .closed).emitsGated
  · have start := (State.Passes.nothing s .closed).setTodo []
    obtain ⟨g', run⟩ := runTasks_passes (s := { s with todo := [] }) (kind.imp_right And.left) distinct .closed
    exact (start.trans run).emitsGated

/-- Settles O50: what the step runs emits allowed pieces behind a closed gate, and a block reset cuts them short. -/
theorem stepEmitsGatedWireFrames : Obligations.StepEmitsGatedWireFrames := by
  intro s t coherent hostOnly distinct h
  obtain ⟨t', core, same, -, takes⟩ := step_takes h
  have emits : s.EmitsGated t' := by
    rcases stepCore_runs core with rfl | ⟨i, s1, taken, e, ⟨hi, -⟩ | ⟨-, bytes, framed⟩⟩
    · exact resume_emitsGated (s := s.tick) coherent distinct
    · obtain ⟨segs, acts, allowed, pass⟩ := exec_emitsGated hi (taken.cfg ▸ distinct) e
      rw [taken.cfg] at allowed pass
      rw [taken.h] at allowed
      exact ⟨segs, acts.ofBus taken.bus, allowed, pass⟩
    · obtain ⟨w, wb, rb, bl, command⟩ := hostOnly _ framed
      cases command
  obtain ⟨segs, acts, allowed, pass⟩ := emits
  obtain ⟨n, whole, trace, -⟩ := takes _ acts
  exact ⟨t'.hp, segs, n, trace, fun due => ⟨by rw [same due], whole due⟩, allowed, pass⟩

end Sys2Proof.Machine
end

section
/-! SUPPORT. The half-period adds delays and nothing else (R214): two runs that differ in it and in the delays of their traces stay so, from one bus operation to a whole step. -/

namespace Sys2Proof.Machine

/-! ### The bus -/

@[simp] theorem withoutDelays_append (xs ys : List Event) :
    withoutDelays (xs ++ ys) = withoutDelays xs ++ withoutDelays ys := by
  simp [withoutDelays]

/-- Two buses that differ in the delays of their traces alone. -/
def Bus.SameButDelays (b b' : Bus) : Prop :=
  b' = { b with trace := b'.trace } ∧ withoutDelays b'.trace = withoutDelays b.trace

namespace Bus.SameButDelays

theorem emit {b b' : Bus} (h : b.SameButDelays b') (e : Event) : (b.emit e).SameButDelays (b'.emit e) := by
  obtain ⟨eq, trace⟩ := h
  rw [eq]
  exact ⟨rfl, by simp only [Bus.emit, withoutDelays_append, trace]⟩

theorem setSr {b b' : Bus} (h : b.SameButDelays b') (v : Byte) : (b.setSr v).SameButDelays (b'.setSr v) := by
  obtain ⟨eq, trace⟩ := h
  rw [eq]
  exact ⟨rfl, trace⟩

theorem sr {b b' : Bus} (h : b.SameButDelays b') : b'.sr = b.sr := by rw [h.1]

/-- A delay moves nothing but the trace, and there only its delays. -/
theorem emit_dly (n : U32) (b : Bus) : b.SameButDelays (b.emit (.dly n)) := by
  have env : b.env.observe (.dly n) = b.env := by cases b.env <;> rfl
  refine ⟨?_, by simp [Bus.emit, withoutDelays, isDelay]⟩
  rw [Bus.emit, env]
  rfl

theorem symm {b b' : Bus} (h : b.SameButDelays b') : b'.SameButDelays b := by
  obtain ⟨eq, trace⟩ := h
  exact ⟨by rw [eq], trace.symm⟩

theorem trans {a b c : Bus} (h : a.SameButDelays b) (k : b.SameButDelays c) : a.SameButDelays c := by
  obtain ⟨eq, trace⟩ := h
  obtain ⟨eq', trace'⟩ := k
  exact ⟨by rw [eq', eq], trace'.trans trace⟩

theorem halfCycle_self (hp : U32) (b : Bus) : b.SameButDelays (b.halfCycle hp) := by
  unfold Bus.halfCycle
  split
  · exact ⟨rfl, rfl⟩
  · exact emit_dly hp b

/-- The half-period of an edge is a delay or nothing. -/
theorem halfCycle {b b' : Bus} (h : b.SameButDelays b') (hp hp' : U32) :
    (b.halfCycle hp).SameButDelays (b'.halfCycle hp') :=
  ((halfCycle_self hp b).symm.trans h).trans (halfCycle_self hp' b')

theorem clockPulse {b b' : Bus} (h : b.SameButDelays b') (hp hp' : U32) :
    (b.clockPulse hp).SameButDelays (b'.clockPulse hp') :=
  (((h.emit _).halfCycle hp hp').emit _).halfCycle hp hp'

end Bus.SameButDelays

/-- A bit cell up to its clock pulse (R123). -/
def Bus.cellHead (j : BitVec 3) (b : Bus) : Bus :=
  let driven := (({ b with i := j } : Bus).emit (.drv .mosi b.sr.msb)).setSr (b.sr <<< 1)
  driven.sample.setSr ((b.sr <<< 1) ||| (if driven.level then 1 else 0))

theorem Bus.bitCell_eq (hp : U32) (j : BitVec 3) (b : Bus) : b.bitCell hp j = (b.cellHead j).clockPulse hp := rfl

namespace Bus.SameButDelays

theorem cellHead {b b' : Bus} (h : b.SameButDelays b') (j : BitVec 3) : (b.cellHead j).SameButDelays (b'.cellHead j) := by
  obtain ⟨eq, trace⟩ := h
  rw [eq]
  refine ⟨rfl, ?_⟩
  simp only [Bus.cellHead, Bus.sample, Bus.setSr, Bus.emit, withoutDelays_append, trace]
  rfl

theorem bitCell {b b' : Bus} (h : b.SameButDelays b') (hp hp' : U32) (j : BitVec 3) :
    (b.bitCell hp j).SameButDelays (b'.bitCell hp' j) := by
  rw [Bus.bitCell_eq, Bus.bitCell_eq]
  exact (h.cellHead j).clockPulse hp hp'

theorem bitCells {b b' : Bus} (h : b.SameButDelays b') (hp hp' : U32) (js : List (BitVec 3)) :
    (js.foldl (fun b j => b.bitCell hp j) b).SameButDelays (js.foldl (fun b j => b.bitCell hp' j) b') := by
  induction js generalizing b b' with
  | nil => exact h
  | cons j js ih => exact ih (h.bitCell hp hp' j)

theorem transferByte {b b' : Bus} (h : b.SameButDelays b') (hp hp' : U32) (out : Byte) :
    (b.transferByte hp out).SameButDelays (b'.transferByte hp' out) := (h.setSr out).bitCells hp hp' cellIndices

/-- The same bytes are received (R214: "byte for byte"). -/
theorem exchange {b b' : Bus} (h : b.SameButDelays b') (hp hp' : U32) (tx : List Byte) :
    (b'.exchange hp' tx).1 = (b.exchange hp tx).1 ∧
      (b.exchange hp tx).2.SameButDelays (b'.exchange hp' tx).2 := by
  induction tx generalizing b b' with
  | nil => exact ⟨rfl, h⟩
  | cons t ts ih =>
    have byte := h.transferByte hp hp' t
    obtain ⟨received, same⟩ := ih byte
    exact ⟨by rw [Bus.exchange, Bus.exchange, byte.sr, received], same⟩

theorem frame {b b' : Bus} (h : b.SameButDelays b') (hp hp' : U32) (tx : List Byte) :
    (b'.frame hp' tx).1 = (b.frame hp tx).1 ∧ (b.frame hp tx).2.SameButDelays (b'.frame hp' tx).2 := by
  obtain ⟨received, same⟩ := (h.emit (.drv .cs false)).exchange hp hp' tx
  exact ⟨received, same.emit (.drv .cs true)⟩

end Bus.SameButDelays

/-! ### The state -/

/-- The state with another half-period and another bus. -/
def State.retime (hp : U32) (b : Bus) (s : State) : State :=
  { s with h := { s.h with clockHalfPeriod := hp }, bus := b }

theorem sameButDelays_iff {s t : State} :
    s.SameButDelays t ↔ ∃ hp b, t = s.retime hp b ∧ s.bus.SameButDelays b := by
  constructor
  · rintro ⟨eq, trace⟩
    refine ⟨t.h.clockHalfPeriod, { s.bus with trace := t.bus.trace }, eq, rfl, trace⟩
  · rintro ⟨hp, b, rfl, eq, trace⟩
    refine ⟨?_, trace⟩
    rw [eq]
    rfl

namespace State.SameButDelays

theorem refl (s : State) : s.SameButDelays s := ⟨rfl, rfl⟩

theorem bus {s t : State} (h : s.SameButDelays t) : s.bus.SameButDelays t.bus := by
  obtain ⟨hp, b, rfl, same⟩ := sameButDelays_iff.1 h
  exact same

theorem cfg {s t : State} (h : s.SameButDelays t) : t.cfg = s.cfg := by rw [h.1]
theorem w {s t : State} (h : s.SameButDelays t) : t.w = s.w := by rw [h.1]
theorem rbuf {s t : State} (h : s.SameButDelays t) : t.rbuf = s.rbuf := by rw [h.1]
theorem wbuf {s t : State} (h : s.SameButDelays t) : t.wbuf = s.wbuf := by rw [h.1]
theorem todo {s t : State} (h : s.SameButDelays t) : t.todo = s.todo := by rw [h.1]
theorem host {s t : State} (h : s.SameButDelays t) : t.host = s.host := by rw [h.1]
theorem resets {s t : State} (h : s.SameButDelays t) : t.resets = s.resets := by rw [h.1]
theorem fresh {s t : State} (h : s.SameButDelays t) : t.bus.fresh = s.bus.fresh := by rw [h.1]
theorem addressWidth {s t : State} (h : s.SameButDelays t) : t.h.addressWidth = s.h.addressWidth := by rw [h.1]
theorem busy {s t : State} (h : s.SameButDelays t) : t.h.busy = s.h.busy := by rw [h.1]
theorem initialized {s t : State} (h : s.SameButDelays t) : t.h.initialized = s.h.initialized := by rw [h.1]

/-- An update that looks neither at the half-period nor at the bus. -/
theorem update {s t : State} (h : s.SameButDelays t) {g : State → State}
    (comm : ∀ hp b, g (s.retime hp b) = (g s).retime hp b) (bus : (g s).bus = s.bus) : (g s).SameButDelays (g t) := by
  obtain ⟨hp, b, rfl, same⟩ := sameButDelays_iff.1 h
  exact sameButDelays_iff.2 ⟨hp, b, comm hp b, by rwa [bus]⟩

theorem setBus {s t : State} (h : s.SameButDelays t) {b b' : Bus} (k : b.SameButDelays b') :
    State.SameButDelays { s with bus := b } { t with bus := b' } := by
  obtain ⟨hp, b0, rfl, -⟩ := sameButDelays_iff.1 h
  exact sameButDelays_iff.2 ⟨hp, b', rfl, k⟩

theorem setHalfPeriod {s t : State} (h : s.SameButDelays t) (hp hp' : U32) :
    State.SameButDelays { s with h := { s.h with clockHalfPeriod := hp } }
      { t with h := { t.h with clockHalfPeriod := hp' } } := by
  obtain ⟨hp0, b, rfl, same⟩ := sameButDelays_iff.1 h
  exact sameButDelays_iff.2 ⟨hp', b, rfl, same⟩

end State.SameButDelays

/-! ### Framer operations -/

/-- The operation takes two states that differ in the half-period and in delays to two such states. -/
def Timeless (f : State → State) : Prop := ∀ s t : State, s.SameButDelays t → (f s).SameButDelays (f t)

theorem Timeless.comp {f g : State → State} (hg : Timeless g) (hf : Timeless f) : Timeless fun s => g (f s) :=
  fun s t h => hg _ _ (hf s t h)

theorem State.frame_timeless {s t : State} (h : s.SameButDelays t) (tx : List Byte) :
    (t.frame tx).1 = (s.frame tx).1 ∧ (s.frame tx).2.SameButDelays (t.frame tx).2 := by
  obtain ⟨received, same⟩ := h.bus.frame s.hp t.hp tx
  exact ⟨received, h.setBus same⟩

theorem emit_timeless (e : Event) : Timeless (State.emit e) := fun _ _ h => h.setBus (h.bus.emit e)

theorem runCommand_timeless (op : Byte) : Timeless (runCommand op) := fun _ _ h => (State.frame_timeless h [op]).2

theorem readCommand_timeless (op : Byte) (n : Nat) : Timeless (readCommand op n) := by
  intro s t h
  obtain ⟨received, same⟩ := State.frame_timeless h (responseFrame op n)
  unfold readCommand
  dsimp only
  rw [received]
  exact same.update (g := fun u => { u with resp := (s.frame (responseFrame op n)).1.drop 1 }) (fun _ _ => rfl) rfl

theorem eraseCommand_timeless (op : Byte) (a : U32) : Timeless (eraseCommand op a) := by
  intro s t h
  unfold eraseCommand
  rw [h.addressWidth]
  exact (State.frame_timeless h _).2

theorem readBytes_timeless (a : U32) (n : Nat) {s t : State} (h : s.SameButDelays t) :
    (readBytes a n t).1 = (readBytes a n s).1 ∧ (readBytes a n s).2.SameButDelays (readBytes a n t).2 := by
  obtain ⟨received, same⟩ := State.frame_timeless h (readFrame s.cfg s.h.addressWidth a n)
  unfold readBytes
  rw [h.cfg, h.addressWidth]
  exact ⟨congrArg (List.drop _) received, same⟩

theorem readMemory_timeless (a : U32) (n : Nat) : Timeless (readMemory a n) := by
  intro s t h
  obtain ⟨received, same⟩ := readBytes_timeless a n h
  unfold readMemory
  dsimp only
  rw [received]
  exact same.update (g := fun u => { u with rbuf := storeAtFront (readBytes a n s).1 u.rbuf }) (fun _ _ => rfl) rfl

theorem programBuffer_timeless (a : U32) (payload : List Byte) : Timeless (programBuffer a payload) := by
  intro s t h
  unfold programBuffer
  rw [h.cfg, h.addressWidth]
  exact (State.frame_timeless h _).2

theorem writeMemory_timeless (a : U32) (n : Nat) : Timeless (writeMemory a n) := by
  intro s t h
  have payload : t.payload n = s.payload n := by rw [State.payload, h.wbuf, h.fresh, h.w]; rfl
  unfold writeMemory
  rw [payload]
  exact programBuffer_timeless a _ s t h

/-- The last response byte as the last status byte read (R27). -/
def takeStatus (s : State) : State := { s with w := { s.w with status := s.resp.getD 0 0 } }

theorem takeStatus_timeless : Timeless takeStatus := fun _ _ h => h.update (g := takeStatus) (fun _ _ => rfl) rfl

theorem readStatus1_timeless : Timeless readStatus1 := by
  intro s t h
  unfold readStatus1
  rw [h.cfg]
  exact takeStatus_timeless _ _ (readCommand_timeless s.cfg.opRdsr1 1 s t h)

theorem readStatus2_timeless : Timeless readStatus2 := by
  intro s t h
  unfold readStatus2
  rw [h.cfg]
  exact takeStatus_timeless _ _ (readCommand_timeless s.cfg.opRdsr2 1 s t h)

theorem readJedec_timeless : Timeless readJedec := by
  intro s t h
  unfold readJedec
  rw [h.cfg]
  exact readCommand_timeless _ 3 s t h

theorem writeEnable_timeless : Timeless writeEnable := by
  intro s t h
  unfold writeEnable
  rw [h.cfg]
  exact runCommand_timeless _ s t h

theorem chipReset_timeless : Timeless chipReset := by
  intro s t h
  unfold chipReset
  rw [h.cfg]
  exact ((emit_timeless _).comp ((runCommand_timeless _).comp (runCommand_timeless _))) s t h

theorem configureLines_timeless : Timeless configureLines := by
  have all (evs : List Event) : ∀ b b' : Bus, b.SameButDelays b' → (b.emitAll evs).SameButDelays (b'.emitAll evs) := by
    induction evs with
    | nil => exact fun _ _ h => h
    | cons e evs ih => exact fun _ _ h => ih _ _ (h.emit e)
  exact fun _ _ h => h.setBus (all _ _ _ h.bus)

theorem finish_timeless (v : U32) : Timeless (finish v) := fun _ _ h => h.update (fun _ _ => rfl) rfl

theorem refuse_timeless : Timeless refuse := by
  intro s t h
  obtain ⟨hp, b, rfl, same⟩ := sameButDelays_iff.1 h
  refine sameButDelays_iff.2 ⟨hp, { b with fresh := b.fresh + 1 }, ?_, ?_⟩
  · unfold refuse State.respond
    rw [h.fresh]
    rfl
  · obtain ⟨eq, trace⟩ := same
    rw [eq]
    exact ⟨rfl, trace⟩

/-! ### Tasks -/

/-- Two results of a task: both go on or both wait, from states that differ in the half-period and in delays. -/
inductive Progress.SameButDelays : Progress → Progress → Prop where
  | goOn {s t : State} (h : s.SameButDelays t) : SameButDelays (.goOn s) (.goOn t)
  | wait {s t : State} (h : s.SameButDelays t) : SameButDelays (.wait s) (.wait t)

theorem pollReady_timeless {s t : State} (h : s.SameButDelays t) : (pollReady s).SameButDelays (pollReady t) := by
  have polled := readStatus1_timeless s t h
  unfold pollReady
  dsimp only
  rw [polled.cfg, polled.w]
  split
  · exact .goOn polled
  · exact .wait (emit_timeless .yld _ _ polled)

theorem pollWip_timeless {s t : State} (h : s.SameButDelays t) : (pollWip s).SameButDelays (pollWip t) := by
  have polled := readStatus1_timeless s t h
  unfold pollWip
  dsimp only
  rw [polled.w]
  split
  · exact .goOn polled
  · exact .wait polled

theorem pollSus_timeless {s t : State} (h : s.SameButDelays t) : (pollSus s).SameButDelays (pollSus t) := by
  have polled := readStatus2_timeless s t h
  unfold pollSus
  dsimp only
  rw [polled.w]
  split
  · exact .goOn polled
  · exact .wait polled

theorem setChunk_timeless : Timeless setChunk := fun _ _ h => h.update (g := setChunk) (fun _ _ => rfl) rfl

/-- The registers of a buffered write moved on by the chunk just written (R173). -/
def advanceChunk (s : State) : State :=
  let n := s.w.chunk.setWidth 32
  { s with w := { s.w with addr := s.w.addr + n, pos := s.w.pos + n, rem := s.w.rem - n } }

theorem writeChunk_timeless : Timeless writeChunk := by
  intro s t h
  have program : (writeMemory s.w.addr s.w.chunk.toNat (writeEnable s)).SameButDelays
      (writeMemory t.w.addr t.w.chunk.toNat (writeEnable t)) := by
    rw [h.w]
    exact writeMemory_timeless _ _ _ _ (writeEnable_timeless s t h)
  exact program.update (g := advanceChunk) (fun _ _ => rfl) rfl

theorem writeLoop_timeless (len : U32) (n : Nat) {s t : State} (h : s.SameButDelays t) :
    (writeLoop len n s).SameButDelays (writeLoop len n t) := by
  induction n generalizing s t with
  | zero =>
    unfold writeLoop
    rw [h.w]
    exact .goOn (finish_timeless _ s t h)
  | succ n ih =>
    unfold writeLoop
    rw [h.w]
    split
    · exact .goOn (finish_timeless _ s t h)
    · have polled := pollReady_timeless (setChunk_timeless s t h)
      cases es : pollReady (setChunk s) <;> cases et : pollReady (setChunk t) <;> rw [es, et] at polled <;> cases polled
      case goOn.goOn.goOn h1 => exact ih (writeChunk_timeless _ _ h1)
      case wait.wait.wait h1 => exact .wait h1

theorem scanWord_timeless {s t : State} (h : s.SameButDelays t) : (scanWord s).SameButDelays (scanWord t) := by
  have polled := pollReady_timeless h
  unfold scanWord
  cases es : pollReady s <;> cases et : pollReady t <;> rw [es, et] at polled <;> cases polled
  case wait.wait.wait h1 => exact .wait h1
  case goOn.goOn.goOn s1 t1 h1 =>
    obtain ⟨received, same⟩ := readBytes_timeless s1.w.addr 4 h1
    dsimp only
    rw [h1.w, received]
    have stored := same.update
      (g := fun u => { u with w := { u.w with word := loadWord (readBytes s1.w.addr 4 s1).1 } }) (fun _ _ => rfl) rfl
    split
    · exact .goOn (stored.update (g := fun u => finish u.w.addr u) (fun _ _ => rfl) rfl)
    · exact .wait (stored.update (g := fun u => { u with w := { u.w with addr := u.w.addr + 4 } }) (fun _ _ => rfl) rfl)

theorem runTask_timeless (task : Task) {s t : State} (h : s.SameButDelays t) :
    (runTask task s).SameButDelays (runTask task t) := by
  have read (a : U32) (n : Nat) (load : List Byte → U32) :
      Progress.SameButDelays (.goOn (finish (load (readBytes a n s).1) (readBytes a n s).2))
        (.goOn (finish (load (readBytes a n t).1) (readBytes a n t).2)) := by
    obtain ⟨received, same⟩ := readBytes_timeless a n h
    rw [received]
    exact .goOn (finish_timeless _ _ _ same)
  have enabled := writeEnable_timeless s t h
  cases task with
  | pollWip => exact pollWip_timeless h
  | pollSus => exact pollSus_timeless h
  | gate => exact pollReady_timeless h
  | chipReset => exact .goOn (chipReset_timeless s t h)
  | finishBegin =>
    exact .goOn (h.update (g := fun u => finish successFlag { u with h := { u.h with initialized := true } })
      (fun _ _ => rfl) rfl)
  | read8 a => exact read a 1 loadByte
  | read16 a => exact read a 2 loadHalf
  | read32 a => exact read a 4 loadWord
  | readBuffer a n => exact .goOn (finish_timeless n _ _ (readMemory_timeless a n.toNat s t h))
  | writeLoop len =>
    show Progress.SameButDelays (writeLoop len s.w.rem.toNat s) (writeLoop len t.w.rem.toNat t)
    rw [h.w]
    exact writeLoop_timeless len _ h
  | eraseUnit op a => exact .goOn (finish_timeless _ _ _ (eraseCommand_timeless op a _ _ enabled))
  | eraseAll =>
    show Progress.SameButDelays (.goOn (finish successFlag (runCommand s.cfg.opCe (writeEnable s))))
      (.goOn (finish successFlag (runCommand t.cfg.opCe (writeEnable t))))
    rw [h.cfg]
    exact .goOn (finish_timeless _ _ _ (runCommand_timeless _ _ _ enabled))
  | scan => exact scanWord_timeless h

/-- Leaving a task and those after it to be taken up again. -/
theorem leave_timeless (t : Task) (ts : List Task) : Timeless fun s => { s with todo := t :: (ts ++ s.todo) } :=
  fun _ _ h => h.update (g := fun s => { s with todo := t :: (ts ++ s.todo) }) (fun _ _ => rfl) rfl

theorem runTasks_timeless (ts : List Task) : Timeless (runTasks ts) := by
  intro s t h
  induction ts generalizing s t with
  | nil => exact h
  | cons task ts ih =>
    have first := runTask_timeless task h
    unfold runTasks
    cases es : runTask task s <;> cases et : runTask task t <;> rw [es, et] at first <;> cases first
    case goOn.goOn.goOn h1 => exact ih _ _ h1
    case wait.wait.wait h1 => exact leave_timeless task ts _ _ h1

theorem resume_timeless : Timeless resume := by
  intro s t h
  unfold resume
  rw [h.todo]
  exact runTasks_timeless s.todo _ _ (h.update (g := fun u => { u with todo := [] }) (fun _ _ => rfl) rfl)

/-! ### Operations -/

theorem accepted_timeless : Timeless State.accepted := fun _ _ h => h.update (g := State.accepted) (fun _ _ => rfl) rfl

theorem acceptOp_timeless (needsInit : Bool) {body : State → State} (hb : Timeless body) :
    Timeless (acceptOp needsInit body) := by
  intro s t h
  unfold acceptOp
  rw [h.busy, h.initialized]
  split
  · exact refuse_timeless s t h
  · split
    · exact refuse_timeless s t h
    · exact hb _ _ (accepted_timeless s t h)

/-- `BEGIN` before its first loop, also at two different half-periods. -/
theorem bringUp_timeless (hp hp' : U32) {s t : State} (h : s.SameButDelays t) :
    (bringUp hp s).SameButDelays (bringUp hp' t) := by
  have read := readJedec_timeless _ _ (configureLines_timeless _ _ (h.setHalfPeriod hp hp'))
  exact read.update (g := fun u => { u with h := { u.h with jedec := Jedec.ofBytes u.resp } }) (fun _ _ => rfl) rfl

theorem begin_timeless (hp hp' : U32) {s t : State} (h : s.SameButDelays t) :
    (runTasks beginTasks (bringUp hp s)).SameButDelays (runTasks beginTasks (bringUp hp' t)) :=
  runTasks_timeless _ _ _ (bringUp_timeless hp hp' h)

theorem exchange_timeless {s t : State} (h : s.SameButDelays t) (tx : List Byte) :
    (t.exchange tx).1 = (s.exchange tx).1 ∧ (s.exchange tx).2.SameButDelays (t.exchange tx).2 := by
  obtain ⟨received, same⟩ := h.bus.exchange s.hp t.hp tx
  exact ⟨received, h.setBus same⟩

/-- The runs of an operation from two states that differ in the half-period and in delays. -/
def TimelessOp (i : Instr) : Prop :=
  ∀ s s' t : State, s.SameButDelays s' → exec i s = .next t → ∃ t', exec i s' = .next t' ∧ t.SameButDelays t'

theorem Timeless.op {i : Instr} {f : State → State} (hf : Timeless f) (runs : ∀ s, exec i s = .next (f s)) :
    TimelessOp i := by
  intro s s' t h e
  cases (runs s).symm.trans e
  exact ⟨_, runs s', hf s s' h⟩

/-- The configuration is the same in both states. -/
theorem Timeless.ofCfg {f : Cfg → State → State} (hf : ∀ c, Timeless (f c)) : Timeless fun s => f s.cfg s := by
  intro s t h
  dsimp only
  rw [h.cfg]
  exact hf s.cfg s t h

theorem transferBuffer_timeless (count : U32) : TimelessOp (.transferBuffer count) := by
  intro s s' t h e
  cases e
  obtain ⟨received, same⟩ := exchange_timeless h (hostBytes s.rbuf s.bus.fresh 0 count.toNat)
  refine ⟨_, rfl, ?_⟩
  rw [h.rbuf, h.fresh, received]
  exact same.update
    (g := fun u => { u with
      rbuf := storeAtFront (s.exchange (hostBytes s.rbuf s.bus.fresh 0 count.toNat)).1 u.rbuf
      w := { u.w with pos := if count = 0 then u.w.pos else count - 1 } }) (fun _ _ => rfl) rfl

theorem ident_timeless : Timeless (acceptOp true fun s => finish s.h.jedec.compose s) :=
  acceptOp_timeless true fun _ _ h => h.update (g := fun s => finish s.h.jedec.compose s) (fun _ _ => rfl) rfl

theorem wrbuf_timeless (a n : U32) : Timeless (acceptOp true fun s => runTasks [.writeLoop n] (startWrite a n s)) :=
  acceptOp_timeless true ((runTasks_timeless _).comp fun _ _ h => h.update (g := startWrite a n) (fun _ _ => rfl) rfl)

theorem used_timeless :
    Timeless (acceptOp true fun s => runTasks [.scan] { s with w := { s.w with addr := 0 } }) :=
  acceptOp_timeless true ((runTasks_timeless _).comp fun _ _ h =>
    h.update (g := fun s => { s with w := { s.w with addr := 0 } }) (fun _ _ => rfl) rfl)

theorem gated_timeless (task : Task) : Timeless (acceptOp true (runTasks [.gate, task])) :=
  acceptOp_timeless true (runTasks_timeless _)

/-- Every operation takes two states that differ in the half-period and in delays to two such states. -/
theorem exec_timeless (i : Instr) : TimelessOp i := by
  cases i with
  | beginOp hp => exact (acceptOp_timeless false fun _ _ h => begin_timeless hp hp h).op fun _ => rfl
  | ident => exact ident_timeless.op fun _ => rfl
  | rd8 a => exact (gated_timeless (.read8 a)).op fun _ => rfl
  | rd16 a => exact (gated_timeless (.read16 a)).op fun _ => rfl
  | rd32 a => exact (gated_timeless (.read32 a)).op fun _ => rfl
  | rdbuf a n => exact (gated_timeless (.readBuffer a n)).op fun _ => rfl
  | wrbuf a n => exact (wrbuf_timeless a n).op fun _ => rfl
  | erchip => exact (gated_timeless .eraseAll).op fun _ => rfl
  | ersec k =>
    exact (Timeless.ofCfg fun c => gated_timeless (.eraseUnit c.opSe (eraseAddress Config.sectorSize k))).op fun _ => rfl
  | erb32 k =>
    exact (Timeless.ofCfg fun c => gated_timeless (.eraseUnit c.opBe32 (eraseAddress Config.block32Size k))).op fun _ => rfl
  | erb64 k =>
    exact (Timeless.ofCfg fun c => gated_timeless (.eraseUnit c.opBe64 (eraseAddress Config.block64Size k))).op fun _ => rfl
  | used => exact used_timeless.op fun _ => rfl
  | reservedC | reservedD | reservedE | reservedF => exact refuse_timeless.op fun _ => rfl
  | rdid | readJEDEC => exact readJedec_timeless.op fun _ => rfl
  | rdsr1 | readStatus1 => exact readStatus1_timeless.op fun _ => rfl
  | rdsr2 | readStatus2 => exact readStatus2_timeless.op fun _ => rfl
  | rsten => exact (Timeless.ofCfg fun c => runCommand_timeless c.opRsten).op fun _ => rfl
  | rst => exact (Timeless.ofCfg fun c => runCommand_timeless c.opRst).op fun _ => rfl
  | wren | writeEnable => exact writeEnable_timeless.op fun _ => rfl
  | fastrd a n | readMemory a n => exact (readMemory_timeless a n.toNat).op fun _ => rfl
  | pp a payload => exact (programBuffer_timeless a payload).op fun _ => rfl
  | se a => exact (Timeless.ofCfg fun c => eraseCommand_timeless c.opSe a).op fun _ => rfl
  | be32 a => exact (Timeless.ofCfg fun c => eraseCommand_timeless c.opBe32 a).op fun _ => rfl
  | be64 a => exact (Timeless.ofCfg fun c => eraseCommand_timeless c.opBe64 a).op fun _ => rfl
  | ce => exact (Timeless.ofCfg fun c => runCommand_timeless c.opCe).op fun _ => rfl
  | selectAssert =>
    exact Timeless.op (f := fun s => { s with bus := s.bus.selectAssert }) (fun _ _ h => h.setBus (h.bus.emit _))
      fun _ => rfl
  | selectDeassert =>
    exact Timeless.op (f := fun s => { s with bus := s.bus.selectDeassert }) (fun _ _ h => h.setBus (h.bus.emit _))
      fun _ => rfl
  | clockPulse =>
    exact Timeless.op (f := fun s => { s with bus := s.bus.clockPulse s.hp })
      (fun _ _ h => h.setBus (h.bus.clockPulse _ _)) fun _ => rfl
  | transferByte out =>
    exact Timeless.op (f := fun s => { s with bus := s.bus.transferByte s.hp out })
      (fun _ _ h => h.setBus (h.bus.transferByte _ _ out)) fun _ => rfl
  | transferBuffer count => exact transferBuffer_timeless count
  | runCommand op => exact (runCommand_timeless op).op fun _ => rfl
  | readCommand op n => exact (readCommand_timeless op n.toNat).op fun _ => rfl
  | eraseCommand op a => exact (eraseCommand_timeless op a).op fun _ => rfl
  | writeMemory a n => exact (writeMemory_timeless a n.toNat).op fun _ => rfl
  | waitUntilReady => exact (runTasks_timeless [.gate]).op fun _ => rfl
  | configureLines => exact configureLines_timeless.op fun _ => rfl
  | addressPhase a =>
    intro s s' t h e
    cases e
    refine ⟨_, rfl, ?_⟩
    rw [h.addressWidth]
    exact (exchange_timeless h _).2

/-! ### Steps -/

theorem takeBuffers_timeless (wb rb : Option (List Byte)) : Timeless (takeBuffers wb rb) := by
  intro s t h
  unfold takeBuffers
  rw [h.busy]
  split
  · exact h
  · exact h.update (g := fun u => { u with wbuf := wb.getD u.wbuf, rbuf := rb.getD u.rbuf }) (fun _ _ => rfl) rfl

theorem setHost_timeless (rest : List Request) : Timeless fun s => { s with host := rest } :=
  fun _ _ h => h.update (g := fun s => { s with host := rest }) (fun _ _ => rfl) rfl

/-- The same request is taken, if any. -/
theorem fetch_timeless {s t : State} (h : s.SameButDelays t) :
    (fetch s = none ∧ fetch t = none) ∨
      ∃ p s1 t1, fetch s = some (p, s1) ∧ fetch t = some (p, t1) ∧ s1.SameButDelays t1 := by
  have inProgress : t.inProgress = s.inProgress := by rw [State.inProgress, h.busy, h.todo]; rfl
  cases host : s.host with
  | nil => exact .inl ⟨by simp [fetch, host], by simp [fetch, h.host, host]⟩
  | cons r rest =>
    cases r with
    | framer bytes =>
      exact .inr ⟨_, _, _, fetch_framer host, fetch_framer (h.host.trans host), setHost_timeless rest _ _ h⟩
    | command w wb rb blocking =>
      by_cases blocked : (blocking && s.inProgress) = true
      · exact .inl ⟨by simp [fetch, host, blocked], by simp [fetch, h.host, host, inProgress, blocked]⟩
      · have free : blocking = false ∨ s.inProgress = false :=
          Bool.and_eq_false_iff.1 (Bool.eq_false_iff.2 blocked)
        exact .inr ⟨_, _, _, fetch_command host free, fetch_command (h.host.trans host) (by rwa [inProgress]),
          takeBuffers_timeless wb rb _ _ (setHost_timeless rest _ _ h)⟩

theorem stepCore_timeless {s s' t : State} (h : s.SameButDelays s') (e : stepCore s = .next t) :
    ∃ t', stepCore s' = .next t' ∧ t.SameButDelays t' := by
  unfold stepCore at e ⊢
  rcases fetch_timeless h with ⟨none, none'⟩ | ⟨p, s1, s1', taken, taken', same⟩
  · rw [none] at e
    rw [none']
    cases e
    exact ⟨_, rfl, resume_timeless s s' h⟩
  · rw [taken] at e
    rw [taken']
    dsimp only at e ⊢
    rw [same.cfg, same.addressWidth]
    split at e
    · exact exec_timeless _ s1 s1' t same e
    · cases e

/-- Settles O44: every bus operation, framer operation, task, operation and step keeps the relation, and `BEGIN` also
with two different operands. -/
theorem halfPeriodOnlyAddsDelays : Obligations.HalfPeriodOnlyAddsDelays := by
  refine ⟨fun i s s' t h e => ?_, fun s s' t h due e => ?_, fun hp hp' s t e => ?_⟩
  · obtain ⟨t', e', same⟩ := exec_timeless i s s' t h e
    exact ⟨t', e', same, fun other => ((exec_spares e').handle other).1⟩
  · have due' : s'.resetDue = none := by rwa [State.resetDue, h.resets]
    rw [step_eq_stepCore due] at e
    rw [step_eq_stepCore due']
    exact stepCore_timeless (h.update (g := State.tick) (fun _ _ => rfl) rfl) e
  · cases busy : s.h.busy with
    | true =>
      have refused (hp : U32) : exec (.beginOp hp) s = .next (refuse s) :=
        congrArg Host.Outcome.next (acceptOp_busy busy)
      cases (refused hp).symm.trans e
      exact ⟨_, refused hp', .refl _, fun idle => by cases idle⟩
    | false =>
      have halfPeriod (hp : U32) : (runTasks beginTasks (bringUp hp s.accepted)).h.clockHalfPeriod = hp := by
        obtain ⟨_, _, did⟩ := runTasks_pieces beginTasks (bringUp hp s.accepted)
        exact did.keeps.halfPeriod
      cases (exec_beginOp_accepted hp busy).symm.trans e
      exact ⟨_, exec_beginOp_accepted hp' busy, begin_timeless hp hp' (.refl _),
        fun _ => ⟨halfPeriod hp, halfPeriod hp'⟩⟩

end Sys2Proof.Machine
end

section
/-! SUPPORT. The mock chip between frames (95_test_vectors.md section 3): its hidden state, apart from the receiver that the lines drive, and what each frame of R105 does to it and gets from it. -/

namespace Sys2Proof.Machine

/-! ### The receiver apart from the hidden state -/

/-- The part of the mock that follows the lines (R67). -/
structure Receiver where
  sel : Bool
  clk : Bool
  din : Bool
  miso : Option Bool
  shift : Byte
  nbits : Nat
  rx : List Byte

/-- The chip with this receiver. -/
def Chip.withReceiver (c : Chip) (r : Receiver) : Chip :=
  { c with sel := r.sel, clk := r.clk, din := r.din, miso := r.miso, shift := r.shift, nbits := r.nbits, rx := r.rx }

/-- The chip with a new array, as a program or erase frame leaves it (G7). -/
def Chip.withArray (m : Memory) (c : Chip) : Chip := { c with mem := m, rsten := false }

theorem startBusy_withReceiver (c : Chip) (r : Receiver) (n : Nat) :
    (c.withReceiver r).startBusy n = (c.startBusy n).withReceiver r := by
  unfold Chip.startBusy
  split <;> rfl

theorem countPoll_withReceiver (c : Chip) (r : Receiver) :
    (c.withReceiver r).countPoll = c.countPoll.withReceiver r := by
  unfold Chip.countPoll
  rw [show (c.withReceiver r).cnt = c.cnt from rfl]
  split <;> rfl

theorem resetIfEnabled_withReceiver (c : Chip) (r : Receiver) :
    (c.withReceiver r).resetIfEnabled = c.resetIfEnabled.withReceiver r := by
  unfold Chip.resetIfEnabled
  rw [show (c.withReceiver r).rsten = c.rsten from rfl]
  split <;> rfl

theorem program_withReceiver (c : Chip) (r : Receiver) (rest : List Byte) :
    (c.withReceiver r).program rest = (c.program rest).withReceiver r := by
  unfold Chip.program
  rw [show (c.withReceiver r).cfg = c.cfg from rfl, show (c.withReceiver r).wel = c.wel from rfl]
  split
  · split
    · exact startBusy_withReceiver (c.withArray _) r _
    · rfl
  · rfl

theorem eraseUnit_withReceiver (c : Chip) (r : Receiver) (unit : Nat) (rest : List Byte) :
    (c.withReceiver r).eraseUnit unit rest = (c.eraseUnit unit rest).withReceiver r := by
  unfold Chip.eraseUnit
  rw [show (c.withReceiver r).cfg = c.cfg from rfl, show (c.withReceiver r).wel = c.wel from rfl]
  split
  · split
    · exact startBusy_withReceiver (c.withArray _) r _
    · rfl
  · rfl

theorem eraseAll_withReceiver (c : Chip) (r : Receiver) (rest : List Byte) :
    (c.withReceiver r).eraseAll rest = (c.eraseAll rest).withReceiver r := by
  unfold Chip.eraseAll
  rw [show (c.withReceiver r).wel = c.wel from rfl]
  split
  · exact startBusy_withReceiver (c.withArray []) r _
  · rfl

/-- A frame acts on the hidden state, whatever the receiver holds. -/
theorem accept_withReceiver (c : Chip) (r : Receiver) (rx : List Byte) :
    (c.withReceiver r).accept rx = (c.accept rx).withReceiver r := by
  cases rx with
  | nil => rfl
  | cons op rest =>
    simp only [Chip.accept, apply_ite (Chip.withReceiver · r), ← countPoll_withReceiver, ← resetIfEnabled_withReceiver,
      ← program_withReceiver, ← eraseUnit_withReceiver, ← eraseAll_withReceiver]
    rfl

@[simp] theorem startBusy_cfg (c : Chip) (n : Nat) : (c.startBusy n).cfg = c.cfg := by
  unfold Chip.startBusy
  split <;> rfl

@[simp] theorem countPoll_cfg (c : Chip) : c.countPoll.cfg = c.cfg := by
  unfold Chip.countPoll
  split <;> rfl

@[simp] theorem resetIfEnabled_cfg (c : Chip) : c.resetIfEnabled.cfg = c.cfg := by
  unfold Chip.resetIfEnabled
  split <;> rfl

@[simp] theorem program_cfg (c : Chip) (rest : List Byte) : (c.program rest).cfg = c.cfg := by
  unfold Chip.program
  split
  · split <;> simp
  · rfl

@[simp] theorem eraseUnit_cfg (c : Chip) (unit : Nat) (rest : List Byte) : (c.eraseUnit unit rest).cfg = c.cfg := by
  unfold Chip.eraseUnit
  split
  · split <;> simp
  · rfl

@[simp] theorem eraseAll_cfg (c : Chip) (rest : List Byte) : (c.eraseAll rest).cfg = c.cfg := by
  unfold Chip.eraseAll
  split <;> simp

@[simp] theorem accept_cfg (c : Chip) (rx : List Byte) : (c.accept rx).cfg = c.cfg := by
  cases rx with
  | nil => rfl
  | cons op rest => simp [Chip.accept, apply_ite Chip.cfg]

/-- Between frames: the environment is the mock with the hidden state of `c`, deselected and with the clock low. -/
def Env.Faces (e : Env) (c : Chip) : Prop :=
  ∃ r : Receiver, r.sel = false ∧ r.clk = false ∧ e = .mock (c.withReceiver r)

theorem Env.faces_of_mock {c : Chip} (sel : c.sel = false) (clk : c.clk = false) : (Env.mock c).Faces c :=
  ⟨⟨c.sel, c.clk, c.din, c.miso, c.shift, c.nbits, c.rx⟩, sel, clk, rfl⟩

/-- R15, R67: a frame gets the chip's answers, and the chip takes it. -/
theorem Bus.frame_faces {hp : U32} {b : Bus} {c : Chip} (h : b.env.Faces c) (tx : List Byte) :
    (b.frame hp tx).1 = c.answers [] tx ∧ (b.frame hp tx).2.env.Faces (c.accept tx) := by
  obtain ⟨r, sel, clk, env⟩ := h
  obtain ⟨received, y, d, after⟩ := Bus.frame_mock (hp := hp) (tx := tx) env sel clk
  have responds : ∀ rx, (c.withReceiver r).respond rx = c.respond rx := fun _ => rfl
  refine ⟨received.trans (Chip.answers_congr responds tx []), ?_⟩
  let r' : Receiver := ⟨true, false, d, ((c.respond tx).map (·.getMsbD 0)), y, 0, tx⟩
  have same : (({ c.withReceiver r with sel := true, rx := tx } : Chip).receiving y 0 d) = c.withReceiver r' := rfl
  rw [same, accept_withReceiver] at after
  exact ⟨⟨false, false, d, none, 0, 0, []⟩, rfl, rfl, after⟩

/-! ### What each frame gets -/

theorem answers_append (c : Chip) (rx xs ys : List Byte) :
    c.answers rx (xs ++ ys) = c.answers rx xs ++ c.answers (rx ++ xs) ys := by
  induction xs generalizing rx with
  | nil => rw [List.append_nil]; rfl
  | cons x xs ih =>
    rw [List.cons_append, Chip.answers, Chip.answers, ih, List.append_assoc]
    rfl

theorem answers_length (c : Chip) (rx tx : List Byte) : (c.answers rx tx).length = tx.length := by
  induction tx generalizing rx with
  | nil => rfl
  | cons t ts ih => rw [Chip.answers, List.length_cons, List.length_cons, ih]

/-- R73: a status frame gets the status register as it is when the frame begins. -/
theorem answers_status {c : Chip} (distinct : c.cfg.Distinct) :
    c.answers [] (responseFrame c.cfg.opRdsr1 1) = [0xFF, c.status1] := by
  have ne := distinct.ne
  simp [Cfg.opcodes] at ne
  simp [responseFrame, Chip.answers, Chip.respond, ne]

theorem capacity_dvd_carried (aw : AddrWidth) : Config.capacity ∣ 2 ^ (8 * aw.bytes) := by
  cases aw <;> decide

theorem carried_capacity (aw : AddrWidth) (a : U32) (k : Nat) :
    ((carried aw a).toNat + k) % Config.capacity = (a.toNat + k) % Config.capacity := by
  rw [carried_toNat, Nat.add_mod, Nat.mod_mod_of_dvd _ (capacity_dvd_carried aw), ← Nat.add_mod]

theorem takeAddress_carried (aw : AddrWidth) (a : U32) (rest : List Byte) :
    takeAddress aw (addressBytes aw a ++ rest) = some (carried aw a, rest) := takeAddress_addressBytes aw a rest

/-- R75: a data byte of a fast read is the byte of the array at its address, modulo the capacity. -/
theorem respond_read {c : Chip} (distinct : c.cfg.Distinct) (ready : c.wip = false) (a : U32) (d : Byte)
    (fills : List Byte) :
    c.respond (c.cfg.opFastrd :: (addressBytes c.cfg.addressWidth a ++ d :: fills)) =
      some (c.mem.read ((a.toNat + fills.length) % Config.capacity)) := by
  have ne := distinct.ne
  simp [Cfg.opcodes] at ne
  simp [Chip.respond, ne, takeAddress_carried, ready, carried_capacity]

theorem answers_fills {c : Chip} (distinct : c.cfg.Distinct) (ready : c.wip = false) (a : U32) (d : Byte) (n : Nat)
    (fills : List Byte) :
    c.answers (c.cfg.opFastrd :: (addressBytes c.cfg.addressWidth a ++ d :: fills)) (List.replicate n Config.fill) =
      c.mem.readFrom (a.toNat + fills.length) n := by
  induction n generalizing fills with
  | zero => rfl
  | succ n ih =>
    have step := ih (fills ++ [Config.fill])
    rw [List.replicate_succ, Chip.answers, respond_read distinct ready]
    simp only [List.cons_append, List.append_assoc, List.length_append, List.length_singleton] at step ⊢
    rw [step, Memory.readFrom, Memory.readFrom, List.range_succ_eq_map, List.map_cons, List.map_map]
    simp [Function.comp_def, Nat.add_assoc, Nat.add_comm 1]

/-- R75, R148: a fast-read frame gets the bytes of the array from its address on. -/
theorem answers_read {c : Chip} (distinct : c.cfg.Distinct) (ready : c.wip = false) (a : U32) (n : Nat) :
    (c.answers [] (readFrame c.cfg c.cfg.addressWidth a n)).drop (c.cfg.addressWidth.bytes + 2) =
      c.mem.readFrom a.toNat n := by
  have split : readFrame c.cfg c.cfg.addressWidth a n =
      (c.cfg.opFastrd :: (addressBytes c.cfg.addressWidth a ++ [c.cfg.dummy])) ++ List.replicate n Config.fill := by
    simp [readFrame]
  have header := answers_length c [] (c.cfg.opFastrd :: (addressBytes c.cfg.addressWidth a ++ [c.cfg.dummy]))
  rw [split, answers_append, List.nil_append, answers_fills distinct ready a c.cfg.dummy n []]
  rw [List.drop_left' (by rw [header]; simp)]
  rfl

/-! ### What each frame does -/

/-- The latch set by write-enable (R71). -/
def Chip.latchSet (c : Chip) : Chip := { c with wel := true, rsten := false }

/-- Any other frame than reset ends an enable-reset (G7). -/
def Chip.resetDisabled (c : Chip) : Chip := { c with rsten := false }

/-- A status frame counts a busy period down, busy or not. -/
theorem accept_status (c : Chip) : c.accept (responseFrame c.cfg.opRdsr1 1) = c.countPoll := by
  simp [responseFrame, Chip.accept]

section
variable {c : Chip} (distinct : c.cfg.Distinct)
variable (ready : c.wip = false)
include distinct ready

theorem accept_writeEnable : c.accept [c.cfg.opWren] = c.latchSet := by
  have ne := distinct.ne
  simp [Cfg.opcodes] at ne
  simp [Chip.accept, Chip.latchSet, ne, ready]

theorem accept_read (rest : List Byte) : c.accept (c.cfg.opFastrd :: rest) = c.resetDisabled := by
  have ne := distinct.ne
  simp [Cfg.opcodes] at ne
  simp [Chip.accept, Chip.resetDisabled, ne, ready]

theorem accept_program (rest : List Byte) : c.accept (c.cfg.opPp :: rest) = c.program rest := by
  have ne := distinct.ne
  simp [Cfg.opcodes] at ne
  simp [Chip.accept, ne, ready]

theorem accept_erase {op : Byte} {unit : Nat} (h : (op, unit) ∈ [(c.cfg.opSe, Config.sectorSize),
    (c.cfg.opBe32, Config.block32Size), (c.cfg.opBe64, Config.block64Size)]) (rest : List Byte) :
    c.accept (op :: rest) = c.eraseUnit unit rest := by
  have ne := distinct.ne
  simp [Cfg.opcodes] at ne
  simp only [List.mem_cons, List.not_mem_nil, or_false, Prod.mk.injEq] at h
  obtain ⟨rfl, rfl⟩ | ⟨rfl, rfl⟩ | ⟨rfl, rfl⟩ := h <;> simp [Chip.accept, ne, ready]

theorem accept_eraseAll : c.accept [c.cfg.opCe] = c.eraseAll [] := by
  have ne := distinct.ne
  simp [Cfg.opcodes] at ne
  simp [Chip.accept, ne, ready]

end

/-- Only the five frames of R82 that need the latch can change the array. -/
theorem accept_mem_other {c : Chip} {op : Byte} (h : op ∉ latched c.cfg) (rest : List Byte) :
    (c.accept (op :: rest)).mem = c.mem := by
  simp only [latched, List.mem_cons, List.not_mem_nil, or_false, not_or] at h
  obtain ⟨pp, se, be32, be64, ce⟩ := h
  simp [Chip.accept, apply_ite Chip.mem, pp, se, be32, be64, ce]

end Sys2Proof.Machine
end

section
/-! SUPPORT. The framer operations against the mock chip, one law for each, and the statements about single operations against the device contract (R64, R75, R76, R77). -/

namespace Sys2Proof.Machine

/-- The block stands between frames before a mock with the hidden state of `c`, which speaks its command set. -/
structure State.Faces (s : State) (c : Chip) : Prop where
  env : s.bus.env.Faces c
  commands : c.cfg = s.cfg
  width : s.h.addressWidth = s.cfg.addressWidth
  distinct : s.cfg.Distinct

namespace State.Faces

variable {s : State} {c : Chip}

theorem ofMock (env : s.bus.env = .mock c) (commands : c.cfg = s.cfg) (distinct : s.cfg.Distinct) (sel : c.sel = false)
    (clk : c.clk = false) (width : s.h.addressWidth = s.cfg.addressWidth) : s.Faces c :=
  ⟨env ▸ Env.faces_of_mock sel clk, commands, width, distinct⟩

theorem chipDistinct (h : s.Faces c) : c.cfg.Distinct := h.commands ▸ h.distinct

/-- The rest of the state does not matter. -/
theorem congr (h : s.Faces c) {t : State} (env : t.bus.env = s.bus.env) (cfg : t.cfg = s.cfg)
    (width : t.h.addressWidth = s.h.addressWidth) : t.Faces c :=
  ⟨env ▸ h.env, by rw [cfg, h.commands], by rw [width, cfg, h.width], cfg ▸ h.distinct⟩

theorem frame (h : s.Faces c) (tx : List Byte) :
    (s.frame tx).1 = c.answers [] tx ∧ (s.frame tx).2.Faces (c.accept tx) := by
  obtain ⟨received, after⟩ := Bus.frame_faces (hp := s.hp) h.env tx
  exact ⟨received, after, by rw [accept_cfg, h.commands]; rfl, h.width, h.distinct⟩

/-- An event that is no edge of select or clock leaves the mock as it is. -/
theorem emit (h : s.Faces c) {e : Event} (quiet : ∀ c : Chip, c.observe e = c) : (s.emit e).Faces c := by
  obtain ⟨⟨r, sel, clk, env⟩, commands, width, distinct⟩ := h
  refine ⟨⟨r, sel, clk, ?_⟩, commands, width, distinct⟩
  show s.bus.env.observe e = _
  rw [env, Env.observe, quiet]

theorem env_mock (h : s.Faces c) : ∃ c', s.bus.env = .mock c' ∧ c'.mem = c.mem := by
  obtain ⟨r, -, -, env⟩ := h.env
  exact ⟨_, env, rfl⟩

/-- R165: a poll finds the chip ready when it is not busy and its latch is clear. -/
theorem isReady_status1 (c : Chip) : isReady c.cfg c.status1 = (!c.wip && !c.wel) := by
  have key : ∀ (k : Fin 8) (wip wel : Bool),
      ((((if wip then 1 else 0) ||| (if wel then 1 <<< k.val else 0) : Byte) &&& (1 ||| (1 <<< k.val))) == 0) =
        (!wip && !wel) := by
    decide
  exact key c.cfg.welBit c.wip c.wel

theorem polled (h : s.Faces c) : s.polled = c.status1 := by
  obtain ⟨received, -⟩ := h.frame (responseFrame s.cfg.opRdsr1 1)
  rw [← h.commands, answers_status h.chipDistinct] at received
  rw [polled_eq, ← h.commands]
  show ((s.frame (responseFrame c.cfg.opRdsr1 1)).1.drop 1).getD 0 0 = _
  rw [received]
  rfl

theorem pollsReady (h : s.Faces c) : s.pollsReady = (!c.wip && !c.wel) := by
  rw [State.pollsReady, h.polled, ← h.commands, isReady_status1]

theorem afterPoll (h : s.Faces c) : (afterPoll s).Faces c.countPoll := by
  obtain ⟨-, after⟩ := h.frame (responseFrame s.cfg.opRdsr1 1)
  rw [← h.commands, accept_status, h.commands] at after
  exact after.congr rfl rfl rfl

/-- A fast read against a chip that is not busy: its data are the bytes of the array. -/
theorem readBytes (h : s.Faces c) (ready : c.wip = false) (a : U32) (n : Nat) :
    (readBytes a n s).1 = c.mem.readFrom a.toNat n ∧ (readBytes a n s).2.Faces c.resetDisabled := by
  obtain ⟨received, after⟩ := h.frame (readFrame s.cfg s.h.addressWidth a n)
  have data := answers_read h.chipDistinct ready a n
  have taken := accept_read h.chipDistinct ready
    (addressBytes c.cfg.addressWidth a ++ c.cfg.dummy :: List.replicate n Config.fill)
  rw [h.commands, ← h.width] at data taken
  constructor
  · show (s.frame (readFrame s.cfg s.h.addressWidth a n)).1.drop (s.h.addressWidth.bytes + 2) = _
    rw [received, data]
  · have accepted : c.accept (readFrame s.cfg s.h.addressWidth a n) = c.resetDisabled := taken
    rw [accepted] at after
    exact after

theorem writeEnable (h : s.Faces c) (ready : c.wip = false) :
    (writeEnable s).Faces c.latchSet := by
  obtain ⟨-, after⟩ := h.frame [s.cfg.opWren]
  rw [← h.commands, accept_writeEnable h.chipDistinct ready, h.commands] at after
  exact after

theorem programBuffer (h : s.Faces c) (ready : c.wip = false) (a : U32) (payload : List Byte) :
    (programBuffer a payload s).Faces (c.program (addressBytes s.h.addressWidth a ++ payload)) := by
  obtain ⟨-, after⟩ := h.frame (programFrame s.cfg s.h.addressWidth a payload)
  have taken := accept_program h.chipDistinct ready (addressBytes s.h.addressWidth a ++ payload)
  rw [h.commands] at taken
  have accepted : c.accept (programFrame s.cfg s.h.addressWidth a payload) = _ := taken
  rw [accepted] at after
  exact after

theorem eraseCommand (h : s.Faces c) (ready : c.wip = false) {op : Byte} {unit : Nat}
    (row : (op, unit) ∈ [(s.cfg.opSe, Config.sectorSize), (s.cfg.opBe32, Config.block32Size),
      (s.cfg.opBe64, Config.block64Size)]) (a : U32) :
    (eraseCommand op a s).Faces (c.eraseUnit unit (addressBytes s.h.addressWidth a)) := by
  obtain ⟨-, after⟩ := h.frame (addressFrame s.h.addressWidth op a)
  rw [← h.commands] at row
  have accepted : c.accept (addressFrame s.h.addressWidth op a) = _ :=
    accept_erase h.chipDistinct ready row (addressBytes s.h.addressWidth a)
  rw [accepted] at after
  exact after

theorem eraseAll (h : s.Faces c) (ready : c.wip = false) : (runCommand s.cfg.opCe s).Faces (c.eraseAll []) := by
  obtain ⟨-, after⟩ := h.frame [s.cfg.opCe]
  rw [← h.commands, accept_eraseAll h.chipDistinct ready, h.commands] at after
  exact after

end State.Faces

theorem Chip.Attached.faces {s : State} {c : Chip} (h : c.Attached s) : s.Faces c :=
  .ofMock h.env h.commands h.distinct h.deselected h.clockLow h.width

/-- A chip that is not busy and whose latch is clear stays so when it is polled (a count left over does no harm). -/
theorem countPoll_ready {c : Chip} (wip : c.wip = false) (wel : c.wel = false) :
    c.countPoll.wip = false ∧ c.countPoll.wel = false := by
  unfold Chip.countPoll
  split
  · exact ⟨wip, wel⟩
  · exact ⟨rfl, rfl⟩
  · exact ⟨wip, wel⟩

/-- The poll against a chip that is ready: it is found so, and stays so with the same array. -/
theorem State.Faces.poll_ready {s : State} {c : Chip} (h : s.Faces c) (wip : c.wip = false) (wel : c.wel = false) :
    s.pollsReady = true ∧ (Machine.afterPoll s).Faces c.countPoll ∧ c.countPoll.wip = false ∧
      c.countPoll.wel = false := by
  refine ⟨?_, h.afterPoll, countPoll_ready wip wel⟩
  rw [h.pollsReady, wip, wel]
  rfl

/-! ### Reads (R75) -/

@[simp] theorem readFrom_length (m : Memory) (a n : Nat) : (m.readFrom a n).length = n := by
  simp [Memory.readFrom]

/-- Settles O53. -/
theorem readBufferDeliversTheArray : Obligations.ReadBufferDeliversTheArray := by
  intro a n s c attached busy init
  obtain ⟨ready, polled, wip, wel⟩ := attached.faces.poll_ready attached.notBusy attached.latchClear
  obtain ⟨data, after⟩ := polled.readBytes wip a n.toNat
  obtain ⟨c', env, mem⟩ := after.env_mock
  refine ⟨_, c', exec_rdbuf_ready a n busy init ready, rfl, rfl, ?_, env, mem.trans (Chip.countPoll_mem c)⟩
  show storeAtFront (readBytes a n.toNat (afterPoll s)).1 s.rbuf = _
  rw [data, storeAtFront, readFrom_length, Chip.countPoll_mem]

/-- Settles O54. -/
theorem typedReadsDeliverTheArray : Obligations.TypedReadsDeliverTheArray := by
  intro a s c attached busy init x hx
  obtain ⟨task, load, behind, run, little⟩ := typedRead_task s.cfg hx
  obtain ⟨ready, polled, wip, wel⟩ := attached.faces.poll_ready attached.notBusy attached.latchClear
  obtain ⟨data, -⟩ := polled.readBytes wip a x.2
  refine ⟨_, exec_typedRead_ready behind run busy init ready, rfl, ?_⟩
  show (load (readBytes a x.2 (afterPoll s)).1).toNat = _
  rw [data, little _ (readFrom_length _ _ _), Chip.countPoll_mem]

/-! ### Programming (R76) -/

theorem programAddress_mod (a : U32) (k : Nat) : programAddress a k % 256 = (a.toNat + k) % 256 := by
  simp only [programAddress, Config.pageSize, Config.capacity]
  omega

/-- The bytes of a page go to different addresses. -/
theorem programAddress_injective (a : U32) {j k : Nat} (hj : j < 256) (hk : k < 256)
    (h : programAddress a j = programAddress a k) : j = k := by
  have e := congrArg (· % 256) h
  simp only [programAddress_mod] at e
  omega

/-- Each byte of a payload within a page is ANDed into its address. -/
theorem programBytes_read_at (a : U32) (ds : List Byte) (i : Nat) (m : Memory) (page : i + ds.length ≤ 256) {k : Nat}
    {d : Byte} (hd : ds[k]? = some d) :
    (programBytes a i ds m).read (programAddress a (i + k)) = m.read (programAddress a (i + k)) &&& d := by
  induction ds generalizing i m k with
  | nil => cases hd
  | cons x xs ih =>
    have short : i + 1 + xs.length ≤ 256 := by simpa [Nat.add_assoc, Nat.add_comm 1] using page
    cases k with
    | zero =>
      cases hd
      rw [Nat.add_zero, programBytes, programBytes_read_other _ _ _ _ _ fun j h1 h2 e => ?_, Memory.read_write, if_pos rfl]
      · have := programAddress_injective a (by omega) (by omega) e
        omega
    | succ k =>
      have hk : k + 1 < (x :: xs).length := (List.getElem?_eq_some_iff.1 hd).1
      rw [List.length_cons] at hk
      have other : programAddress a (i + (k + 1)) ≠ programAddress a i := fun e => by
        have := programAddress_injective a (by omega) (by omega) e
        omega
      have rest := ih (i + 1) (m.write (programAddress a i) (m.read (programAddress a i) &&& x)) short hd
      rw [Nat.add_right_comm, Nat.add_assoc] at rest
      rw [programBytes, rest, Memory.read_write, if_neg other]

/-- A program frame against a chip whose latch is set: the payload goes into the array, and the chip is busy. -/
theorem program_eq {c : Chip} (wel : c.wel = true) {a : U32} (fits : c.cfg.addressWidth.fits a = true)
    {payload : List Byte} (some : payload ≠ []) :
    c.program (addressBytes c.cfg.addressWidth a ++ payload) =
      (c.withArray (programBytes a 0 payload c.mem)).startBusy c.nProg := by
  unfold Chip.program
  rw [takeAddress_fits fits]
  cases payload with
  | nil => exact absurd rfl some
  | cons d ds => exact if_pos wel

theorem program_empty {c : Chip} {a : U32} (fits : c.cfg.addressWidth.fits a = true) :
    c.program (addressBytes c.cfg.addressWidth a ++ []) = c := by
  unfold Chip.program
  rw [takeAddress_fits fits]

theorem program_mem {c : Chip} (wel : c.wel = true) {a : U32} (fits : c.cfg.addressWidth.fits a = true)
    (payload : List Byte) :
    (c.program (addressBytes c.cfg.addressWidth a ++ payload)).mem = programBytes a 0 payload c.mem := by
  by_cases some : payload = []
  · rw [some, program_empty fits]
    rfl
  · rw [program_eq wel fits some, Chip.startBusy_mem]
    rfl

theorem program_latchClear {c : Chip} (wel : c.wel = false) (rest : List Byte) : c.program rest = c := by
  unfold Chip.program
  rw [wel]
  split <;> rfl

/-- Settles O56. -/
theorem programFrameAndsIntoThePage : Obligations.ProgramFrameAndsIntoThePage := by
  intro a payload s c env commands distinct sel clk wip width short fits
  have faces := State.Faces.ofMock env commands distinct sel clk width
  obtain ⟨c', env', mem⟩ := (faces.programBuffer wip a payload).env_mock
  have same : s.h.addressWidth = c.cfg.addressWidth := by rw [width, commands]
  rw [same] at mem fits
  refine ⟨_, c', exec_pp a payload s, env', fun wel => ?_, fun wel => ?_⟩
  · rw [mem, program_mem wel fits]
    refine ⟨fun k d hd => ?_, fun x other => ?_⟩
    · have h := programBytes_read_at a payload 0 c.mem (by omega) hd
      rwa [Nat.zero_add] at h
    · exact programBytes_read_other a payload 0 c.mem x fun j _ h => other j (by omega)
  · rw [mem, program_latchClear wel]

/-! ### Erasing (R77) -/

/-- The first address of the unit that an erase frame erases, from the whole address. -/
theorem eraseBase_carried (aw : AddrWidth) (a : U32) {unit : Nat}
    (h : unit ∈ [Config.sectorSize, Config.block32Size, Config.block64Size]) :
    eraseBase unit (carried aw a) = a.toNat % Config.capacity / unit * unit := by
  have lt := a.isLt
  rw [eraseBase, carried_toNat]
  simp only [List.mem_cons, List.not_mem_nil, or_false] at h
  cases aw <;> obtain rfl | rfl | rfl := h <;>
    simp only [AddrWidth.bytes, Config.capacity, Config.sectorSize, Config.block32Size, Config.block64Size] <;> omega

/-- An erase frame against a chip whose latch is set: its unit is erased, and the chip is busy. -/
theorem eraseUnit_eq {c : Chip} (wel : c.wel = true) (a : U32) (unit : Nat) :
    c.eraseUnit unit (addressBytes c.cfg.addressWidth a) =
      (c.withArray (c.mem.eraseRange (eraseBase unit (carried c.cfg.addressWidth a)) unit)).startBusy c.nErase := by
  have taken := takeAddress_carried c.cfg.addressWidth a []
  rw [List.append_nil] at taken
  unfold Chip.eraseUnit
  rw [taken]
  exact if_pos wel

theorem eraseUnit_read {c : Chip} (wel : c.wel = true) (a : U32) {unit : Nat}
    (h : unit ∈ [Config.sectorSize, Config.block32Size, Config.block64Size]) (y : Nat) :
    (c.eraseUnit unit (addressBytes c.cfg.addressWidth a)).mem.read y =
      if y / unit = a.toNat % Config.capacity / unit then 0xFF else c.mem.read y := by
  have pos : 0 < unit := by
    simp only [List.mem_cons, List.not_mem_nil, or_false] at h
    obtain rfl | rfl | rfl := h <;> decide
  have inside (x : Nat) : (x * unit ≤ y ∧ y < x * unit + unit) ↔ y / unit = x := by
    rw [Nat.div_eq_iff pos]
    omega
  rw [eraseUnit_eq wel, Chip.startBusy_mem, Chip.withArray, Memory.read_eraseRange, eraseBase_carried _ _ h]
  simp only [inside]
  rfl

theorem eraseUnit_latchClear {c : Chip} (wel : c.wel = false) (unit : Nat) (rest : List Byte) :
    c.eraseUnit unit rest = c := by
  unfold Chip.eraseUnit
  rw [wel]
  split <;> rfl

theorem eraseAll_read {c : Chip} (wel : c.wel = true) (y : Nat) : (c.eraseAll []).mem.read y = 0xFF := by
  unfold Chip.eraseAll
  rw [if_pos ⟨wel, rfl⟩, Chip.startBusy_mem]
  rfl

theorem eraseAll_latchClear {c : Chip} (wel : c.wel = false) : c.eraseAll [] = c := by
  unfold Chip.eraseAll
  rw [wel]
  exact if_neg (by simp)

/-- An erase frame against a chip that is not busy. -/
theorem State.Faces.eraseCommand_read {s : State} {c : Chip} (h : s.Faces c) (wip : c.wip = false) {op : Byte} {unit : Nat}
    (row : (op, unit) ∈ [(s.cfg.opSe, Config.sectorSize), (s.cfg.opBe32, Config.block32Size),
      (s.cfg.opBe64, Config.block64Size)]) (a : U32) :
    ∃ c', (Machine.eraseCommand op a s).bus.env = .mock c' ∧ ∀ y, c'.mem.read y =
      if c.wel = true ∧ y / unit = a.toNat % Config.capacity / unit then 0xFF else c.mem.read y := by
  obtain ⟨c', env, mem⟩ := (h.eraseCommand wip row a).env_mock
  refine ⟨c', env, fun y => ?_⟩
  have units : unit ∈ [Config.sectorSize, Config.block32Size, Config.block64Size] :=
    List.mem_map_of_mem (f := Prod.snd) row
  rw [mem, h.width, ← h.commands]
  cases wel : c.wel with
  | true =>
    rw [eraseUnit_read wel a units]
    simp only [true_and]
  | false => rw [eraseUnit_latchClear wel, if_neg (by simp)]

theorem State.Faces.eraseAll_read {s : State} {c : Chip} (h : s.Faces c) (wip : c.wip = false) :
    ∃ c', (runCommand s.cfg.opCe s).bus.env = .mock c' ∧
      ∀ y, c'.mem.read y = if c.wel = true then 0xFF else c.mem.read y := by
  obtain ⟨c', env, mem⟩ := (h.eraseAll wip).env_mock
  refine ⟨c', env, fun y => ?_⟩
  rw [mem]
  cases wel : c.wel with
  | true => rw [Machine.eraseAll_read wel, if_pos rfl]
  | false => rw [eraseAll_latchClear wel, if_neg (by decide)]

/-- Settles O58: each frame by `eraseCommand_read` with its unit, and the frame `CE`. -/
theorem eraseFramesNeedTheLatch : Obligations.EraseFramesNeedTheLatch := by
  intro a s c env commands distinct sel clk wip width
  have faces := State.Faces.ofMock env commands distinct sel clk width
  refine ⟨fun x hx => ?_, ?_⟩
  · simp only [List.mem_cons, List.not_mem_nil, or_false] at hx
    obtain rfl | rfl | rfl := hx
    · obtain ⟨c', after, read⟩ := faces.eraseCommand_read wip (op := s.cfg.opSe) (unit := 4096)
        (by simp [Config.sectorSize]) a
      exact ⟨_, c', rfl, after, read⟩
    · obtain ⟨c', after, read⟩ := faces.eraseCommand_read wip (op := s.cfg.opBe32) (unit := 32768)
        (by simp [Config.block32Size]) a
      exact ⟨_, c', rfl, after, read⟩
    · obtain ⟨c', after, read⟩ := faces.eraseCommand_read wip (op := s.cfg.opBe64) (unit := 65536)
        (by simp [Config.block64Size]) a
      exact ⟨_, c', rfl, after, read⟩
  · obtain ⟨c', after, read⟩ := faces.eraseAll_read wip
    exact ⟨_, c', rfl, after, read⟩

/-- An erase operation against a ready chip erases the unit of its address. -/
theorem exec_eraseUnit_read {i : Instr} {s : State} {c : Chip} {op : Byte} {unit : Nat} {a : U32} (attached : c.Attached s)
    (behind : afterGate s.cfg i = some (.eraseUnit op a)) (busy : s.h.busy = false) (init : s.h.initialized = true)
    (row : (op, unit) ∈ [(s.cfg.opSe, Config.sectorSize), (s.cfg.opBe32, Config.block32Size),
      (s.cfg.opBe64, Config.block64Size)]) :
    ∃ t c', exec i s = .next t ∧ t.rspVal = 1 ∧ t.bus.env = .mock c' ∧ ∀ y, c'.mem.read y =
      if y / unit = a.toNat % Config.capacity / unit then 0xFF else c.mem.read y := by
  obtain ⟨ready, polled, wip, wel⟩ := attached.faces.poll_ready attached.notBusy attached.latchClear
  have enabled := polled.writeEnable wip
  obtain ⟨c', env, read⟩ := enabled.eraseCommand_read wip row a
  refine ⟨_, c', exec_eraseUnit_ready behind busy init ready, rfl, env, fun y => ?_⟩
  rw [read y]
  simp only [Chip.latchSet, true_and, Chip.countPoll_mem]

/-- Settles O57: the address is the index times the unit, which is the unit's first address modulo the capacity. -/
theorem eraseSetsTheUnitToOnes : Obligations.EraseSetsTheUnitToOnes := by
  intro k s c attached busy init
  refine ⟨fun x hx => ?_, ?_⟩
  · simp only [List.mem_cons, List.not_mem_nil, or_false] at hx
    obtain rfl | rfl | rfl := hx
    · obtain ⟨t, c', runs, val, env, read⟩ :=
        exec_eraseUnit_read (i := .ersec k) attached rfl busy init (unit := 4096) (by simp [Config.sectorSize])
      refine ⟨t, c', runs, val, env, fun y => ?_⟩
      rw [read, eraseAddress_eq, BitVec.toNat_ofNat]
      simp only [Config.capacity, Config.sectorSize]
      refine if_congr ?_ rfl rfl
      omega
    · obtain ⟨t, c', runs, val, env, read⟩ :=
        exec_eraseUnit_read (i := .erb32 k) attached rfl busy init (unit := 32768) (by simp [Config.block32Size])
      refine ⟨t, c', runs, val, env, fun y => ?_⟩
      rw [read, eraseAddress_eq, BitVec.toNat_ofNat]
      simp only [Config.capacity, Config.block32Size]
      refine if_congr ?_ rfl rfl
      omega
    · obtain ⟨t, c', runs, val, env, read⟩ :=
        exec_eraseUnit_read (i := .erb64 k) attached rfl busy init (unit := 65536) (by simp [Config.block64Size])
      refine ⟨t, c', runs, val, env, fun y => ?_⟩
      rw [read, eraseAddress_eq, BitVec.toNat_ofNat]
      simp only [Config.capacity, Config.block64Size]
      refine if_congr ?_ rfl rfl
      omega
  · obtain ⟨ready, polled, wip, wel⟩ := attached.faces.poll_ready attached.notBusy attached.latchClear
    obtain ⟨c', env, read⟩ := (polled.writeEnable wip).eraseAll_read wip
    exact ⟨_, c', exec_erchip_ready busy init ready, rfl, env, fun y => (read y).trans (if_pos rfl)⟩

end Sys2Proof.Machine
end

section
/-! SUPPORT. What leaves the mock's array alone (R64, R82): every frame but those that need the latch, and every event that is no deselection. With it the statement about reading, polling, identifying, resetting and enabling. -/

namespace Sys2Proof.Machine

/-! ### Events of the bit transport -/

/-- Only a deselection makes the chip take a frame. -/
theorem observe_mem {e : Event} (h : e ≠ .drv .cs true) (c : Chip) : (c.observe e).mem = c.mem := by
  cases e with
  | drv l v =>
    cases l with
    | cs =>
      cases v with
      | true => exact absurd rfl h
      | false =>
        show c.select.mem = c.mem
        unfold Chip.select
        split <;> rfl
    | sck => exact c.clock_mem v
    | mosi | miso | wp | hold => rfl
  | dir | smp | dly | yld => rfl

theorem replay_mem {evs : List Event} (h : .drv .cs true ∉ evs) (c : Chip) :
    ∃ c', (Env.mock c).replay evs = .mock c' ∧ c'.mem = c.mem := by
  induction evs generalizing c with
  | nil => exact ⟨c, rfl, rfl⟩
  | cons e evs ih =>
    obtain ⟨c', after, mem⟩ := ih (List.not_mem_of_not_mem_cons h) (c.observe e)
    have first := observe_mem (Ne.symm (List.ne_of_not_mem_cons h)) c
    refine ⟨c', ?_, mem.trans first⟩
    cases e <;> exact after

theorem not_mem_pulseEvents (hp : U32) : Event.drv .cs true ∉ pulseEvents hp := by
  unfold pulseEvents delayEvents
  split <;> simp

theorem not_mem_exchangeEvents (hp : U32) (tx rx : List Byte) : Event.drv .cs true ∉ exchangeEvents hp tx rx := by
  have byte (t r : Byte) : Event.drv .cs true ∉ byteEvents hp t r := by
    simp [byteEvents, cellEvents, not_mem_pulseEvents]
  induction tx generalizing rx with
  | nil => simp [exchangeEvents]
  | cons t ts ih =>
    cases rx with
    | nil => simp [exchangeEvents]
    | cons r rs => simp [exchangeEvents, byte, ih]

/-- The bit transport alone leaves the array of a deselected chip alone. -/
theorem BareEvents.replay_mem {evs : List Event} (h : BareEvents evs) {c : Chip} (sel : c.sel = false) :
    ∃ c', (Env.mock c).replay evs = .mock c' ∧ c'.mem = c.mem := by
  obtain ⟨v, rfl⟩ | ⟨hp, rfl | ⟨tx, rx, rfl⟩⟩ := h
  · cases v with
    | false => exact Machine.replay_mem (by simp) c
    | true =>
      have deselected : c.deselect = c := if_neg (by rw [sel]; decide)
      exact ⟨c, congrArg Env.mock deselected, rfl⟩
  · exact Machine.replay_mem (not_mem_pulseEvents hp) c
  · exact Machine.replay_mem (not_mem_exchangeEvents hp tx rx) c

/-! ### Frames and tasks -/

/-- Facing a mock at `s`, the block faces it at `t` with the same array. -/
def State.KeepsArray (s t : State) : Prop := ∀ c, s.Faces c → ∃ c', t.Faces c' ∧ c'.mem = c.mem

/-- The opcodes of the frames that do not need the latch (R82). -/
def unlatched (c : Cfg) : List Byte :=
  [c.opRdid, c.opRdsr1, c.opRdsr2, c.opRsten, c.opRst, c.opWren, c.opFastrd]

theorem not_latched {c : Cfg} (distinct : c.Distinct) {op : Byte} (h : op ∈ unlatched c) : op ∉ latched c := by
  have ne := distinct.ne
  simp [Cfg.opcodes] at ne
  simp only [unlatched, List.mem_cons, List.not_mem_nil, or_false] at h
  obtain rfl | rfl | rfl | rfl | rfl | rfl | rfl := h <;> simp [latched, ne]

namespace State.KeepsArray

theorem refl (s : State) : s.KeepsArray s := fun c h => ⟨c, h, rfl⟩

theorem trans {a b c : State} (h : a.KeepsArray b) (k : b.KeepsArray c) : a.KeepsArray c := fun c0 faces => by
  obtain ⟨c1, faces1, mem1⟩ := h c0 faces
  obtain ⟨c2, faces2, mem2⟩ := k c1 faces1
  exact ⟨c2, faces2, mem2.trans mem1⟩

theorem silently {a b c : State} (h : a.KeepsArray b) (env : c.bus.env = b.bus.env) (cfg : c.cfg = b.cfg)
    (width : c.h.addressWidth = b.h.addressWidth) : a.KeepsArray c := fun c0 faces => by
  obtain ⟨c1, faces1, mem1⟩ := h c0 faces
  exact ⟨c1, faces1.congr env cfg width, mem1⟩

theorem finish {a b : State} (h : a.KeepsArray b) (v : U32) : a.KeepsArray (Machine.finish v b) := h.silently rfl rfl rfl

theorem frame {s : State} {op : Byte} (h : op ∈ unlatched s.cfg) (rest : List Byte) :
    s.KeepsArray (s.frame (op :: rest)).2 := fun c faces => by
  obtain ⟨-, after⟩ := faces.frame (op :: rest)
  refine ⟨_, after, accept_mem_other ?_ rest⟩
  rw [faces.commands]
  exact not_latched faces.distinct h

theorem emit (s : State) {e : Event} (quiet : ∀ c : Chip, c.observe e = c) : s.KeepsArray (s.emit e) :=
  fun c faces => ⟨c, faces.emit quiet, rfl⟩

theorem runCommand {s : State} {op : Byte} (h : op ∈ unlatched s.cfg) : s.KeepsArray (runCommand op s) := frame h []

theorem readCommand {s : State} {op : Byte} (h : op ∈ unlatched s.cfg) (n : Nat) : s.KeepsArray (readCommand op n s) :=
  (frame h (List.replicate n Config.fill)).silently rfl rfl rfl

theorem readStatus1 (s : State) : s.KeepsArray (readStatus1 s) :=
  (readCommand (by simp [unlatched]) 1).silently rfl rfl rfl

theorem readStatus2 (s : State) : s.KeepsArray (readStatus2 s) :=
  (readCommand (op := s.cfg.opRdsr2) (by simp [unlatched]) 1).silently rfl rfl rfl

theorem readBytes (a : U32) (n : Nat) (s : State) : s.KeepsArray (readBytes a n s).2 :=
  frame (by simp [unlatched]) _

theorem readMemory (a : U32) (n : Nat) (s : State) : s.KeepsArray (readMemory a n s) :=
  (readBytes a n s).silently rfl rfl rfl

theorem chipReset (s : State) : s.KeepsArray (chipReset s) :=
  ((runCommand (op := s.cfg.opRsten) (by simp [unlatched])).trans
    (runCommand (s := Machine.runCommand s.cfg.opRsten s) (op := s.cfg.opRst) (by simp [unlatched]))).trans
    (emit _ fun _ => rfl)

theorem pollReady (s : State) : s.KeepsArray (pollReady s).state := by
  cases hr : s.pollsReady with
  | true =>
    rw [pollReady_ready hr]
    exact readStatus1 s
  | false =>
    rw [pollReady_notReady hr]
    exact (readStatus1 s).trans (emit _ fun _ => rfl)

theorem scanWord (s : State) : s.KeepsArray (scanWord s).state := by
  have poll := pollReady s
  rw [Machine.scanWord]
  split <;> rename_i s1 e <;> rw [e] at poll
  · exact poll
  · have read := poll.trans (readBytes s1.w.addr 4 s1)
    dsimp only
    split
    · exact read.silently rfl rfl rfl
    · exact read.silently rfl rfl rfl

end State.KeepsArray

/-- The tasks that program or erase. -/
def Task.writes : Task → Bool
  | .writeLoop _ | .eraseUnit _ _ | .eraseAll => true
  | .pollWip | .pollSus | .gate | .chipReset | .finishBegin | .read8 _ | .read16 _ | .read32 _ | .readBuffer _ _ | .scan =>
    false

theorem runTask_keepsArray {t : Task} (h : t.writes = false) (s : State) : s.KeepsArray (runTask t s).state := by
  cases t with
  | pollWip =>
    show s.KeepsArray (pollWip s).state
    unfold pollWip
    dsimp only
    split <;> exact .readStatus1 s
  | pollSus =>
    show s.KeepsArray (pollSus s).state
    unfold pollSus
    dsimp only
    split <;> exact .readStatus2 s
  | gate => exact .pollReady s
  | chipReset => exact .chipReset s
  | finishBegin => exact (State.KeepsArray.refl s).silently rfl rfl rfl
  | read8 a => exact (State.KeepsArray.readBytes a 1 s).finish _
  | read16 a => exact (State.KeepsArray.readBytes a 2 s).finish _
  | read32 a => exact (State.KeepsArray.readBytes a 4 s).finish _
  | readBuffer a n => exact (State.KeepsArray.readMemory a n.toNat s).finish _
  | scan => exact .scanWord s
  | writeLoop | eraseUnit | eraseAll => cases h

theorem runTasks_keepsArray {ts : List Task} (h : ∀ t ∈ ts, t.writes = false) (s : State) :
    s.KeepsArray (runTasks ts s) := by
  induction ts generalizing s with
  | nil => exact .refl s
  | cons t ts ih =>
    have first := runTask_keepsArray (h t (by simp)) s
    rw [runTasks]
    split <;> rename_i u e <;> rw [e] at first
    · exact first.trans (ih (fun t ht => h t (by simp [ht])) u)
    · exact first.silently rfl rfl rfl

/-! ### Operations -/

/-- `configureLines` leaves a deselected chip deselected, with the clock low (R163). -/
theorem configureLines_faces {s : State} {c : Chip} (h : s.Faces c) : (configureLines s).Faces c := by
  obtain ⟨⟨r, sel, clk, env⟩, commands, width, distinct⟩ := h
  refine ⟨⟨{ r with din := false }, sel, clk, ?_⟩, commands, width, distinct⟩
  have deselected : (c.withReceiver r).deselect = c.withReceiver r := if_neg (by simp [Chip.withReceiver, sel])
  show (s.bus.emitAll configEvents).env = _
  simp only [Bus.emitAll, configEvents, List.foldl_cons, List.foldl_nil, Bus.emit, env, Env.observe, Chip.observe, deselected]
  simp [Chip.clock, Chip.withReceiver, sel, clk]

theorem bringUp_keepsArray (hp : U32) (s : State) : s.KeepsArray (bringUp hp s) := fun c faces => by
  have start : State.Faces { s with h := { s.h with clockHalfPeriod := hp } } c := faces.congr rfl rfl rfl
  have read := State.KeepsArray.readCommand (s := configureLines { s with h := { s.h with clockHalfPeriod := hp } })
    (op := s.cfg.opRdid) (by simp [unlatched]) 3
  obtain ⟨c', after, mem⟩ := read c (configureLines_faces start)
  exact ⟨c', after.congr rfl rfl rfl, mem⟩

theorem Started.keepsArray {s s1 : State} {i : Instr} {ts : List Task} (h : Started s i ts s1) : s.KeepsArray s1 := by
  rcases h.begin_or_silent with ⟨hp, rfl, rfl, rfl⟩ | ⟨-, bus, keeps⟩
  · exact bringUp_keepsArray hp s
  · exact (State.KeepsArray.refl s).silently (congrArg Bus.env bus) keeps.cfg keeps.addressWidth

/-- The operations that write the flash are those whose tasks do. -/
theorem Started.leavesFlash {s s1 : State} {i : Instr} {ts : List Task} (h : Started s i ts s1)
    (hi : leavesFlash i = true) : ∀ t ∈ ts, t.writes = false := by
  cases h with
  | beginOp | ident | used => decide
  | wrbuf => cases hi
  | gated h =>
    cases i with
    | rd8 | rd16 | rd32 | rdbuf => cases h; simp [Task.writes]
    | erchip | ersec | erb32 | erb64 => cases hi
    | _ => cases h

theorem exec_keepsArray {i : Instr} {s t : State} (hi : leavesFlash i = true) (other : movesLines i = false)
    (h : exec i s = .next t) : s.KeepsArray t := by
  cases hostOp : isHostOp i with
  | true =>
    rcases exec_hostOp_cases hostOp s with e | ⟨-, -, ts, s1, started, e⟩
    · cases h.symm.trans e
      exact (State.KeepsArray.refl s).silently rfl rfl rfl
    · cases h.symm.trans e
      have start : s.KeepsArray s.accepted := (State.KeepsArray.refl s).silently rfl rfl rfl
      exact (start.trans started.keepsArray).trans (runTasks_keepsArray (started.leavesFlash hi) s1)
  | false =>
    cases i with
    | rdid | readJEDEC => cases h; exact .readCommand (op := s.cfg.opRdid) (by simp [unlatched]) 3
    | rdsr1 | readStatus1 => cases h; exact .readStatus1 s
    | rdsr2 | readStatus2 => cases h; exact .readStatus2 s
    | rsten => cases h; exact .runCommand (op := s.cfg.opRsten) (by simp [unlatched])
    | rst => cases h; exact .runCommand (op := s.cfg.opRst) (by simp [unlatched])
    | wren | writeEnable => cases h; exact .runCommand (op := s.cfg.opWren) (by simp [unlatched])
    | fastrd | readMemory => cases h; exact .readMemory _ _ s
    | waitUntilReady => cases h; exact runTasks_keepsArray (by simp [Task.writes]) s
    | configureLines => cases h; exact fun c faces => ⟨c, configureLines_faces faces, rfl⟩
    | selectAssert | selectDeassert | clockPulse | transferByte | transferBuffer | addressPhase => cases other
    | pp | se | be32 | be64 | ce | runCommand | readCommand | eraseCommand | writeMemory => cases hi
    | _ => cases hostOp

/-- Settles O55: the bit transport alone deselects no selected chip, and everything else keeps the array. -/
theorem readsLeaveTheArray : Obligations.ReadsLeaveTheArray := by
  intro i s t c hi env commands distinct sel clk width h
  cases bare : movesLines i with
  | true =>
    obtain ⟨evs, events, emitted⟩ := exec_bare bare h
    obtain ⟨c', after, mem⟩ := events.replay_mem sel
    exact ⟨c', by rw [emitted.env, env, after], fun x => by rw [mem]⟩
  | false =>
    obtain ⟨c1, faces, mem1⟩ := exec_keepsArray hi bare h c (.ofMock env commands distinct sel clk width)
    obtain ⟨c', after, mem⟩ := faces.env_mock
    exact ⟨c', after, fun x => by rw [mem, mem1]⟩

end Sys2Proof.Machine
end

section
/-! SUPPORT. Operations that take several steps against the mock chip: the scan (R184). -/

namespace Sys2Proof.Machine

/-- A chip that is ready, with the array `m`. -/
structure Chip.ReadyWith (c : Chip) (m : Memory) : Prop where
  wip : c.wip = false
  wel : c.wel = false
  mem : c.mem = m

/-- The host waits for the operation in progress, and no block reset comes: every step goes on with the operation. -/
structure State.Blocked (s : State) : Prop where
  resets : s.resets = []
  host : ∀ r ∈ s.host, ∃ w wb rb, r = .command w wb rb true

theorem step_blocked {s : State} (h : s.Blocked) (busy : s.h.busy = true) : step s = .next (resume s) := by
  have inProgress : s.inProgress = true := by rw [State.inProgress, busy]; rfl
  have undisturbed : s.Undisturbed := by
    refine ⟨State.resetDue_nil h.resets, ?_⟩
    cases host : s.host with
    | nil => exact .inl rfl
    | cons r rest =>
      obtain ⟨w, wb, rb, rfl⟩ := h.host r (by simp [host])
      exact .inr ⟨w, wb, rb, rest, rfl, inProgress⟩
  rw [step_undisturbed undisturbed, State.tick_nil h.resets]

/-- A step that takes a host operation, the block being free. -/
theorem step_present {s : State} {w : CmdWord} {wb rb : Option (List Byte)} {blocking : Bool} {rest : List Request}
    (resets : s.resets = []) (host : s.host = .command w wb rb blocking :: rest) (busy : s.h.busy = false)
    (todo : s.todo = []) : step s = exec (decodeCommand w) (takeBuffers wb rb { s with host := rest }) := by
  have free : s.inProgress = false := by rw [State.inProgress, busy, todo]; rfl
  rw [stepRunsTheDecodedInstruction.1 s w wb rb blocking rest (State.resetDue_nil resets) host (.inr free),
    State.tick_nil resets]

/-! ### The scan -/

theorem loadWord_eq_ones {bytes : List Byte} (h : bytes.length = 4) :
    loadWord bytes = 0xFFFFFFFF ↔ ∀ b ∈ bytes, b = 0xFF := by
  match bytes, h with
  | [x0, x1, x2, x3], _ =>
    have word := loadWord_toNat x0 x1 x2 x3
    have l0 := x0.isLt
    have l1 := x1.isLt
    have l2 := x2.isLt
    have l3 := x3.isLt
    simp only [List.mem_cons, List.not_mem_nil, or_false, forall_eq_or_imp, forall_eq]
    simp only [← BitVec.toNat_inj, word, BitVec.reduceToNat]
    omega

/-- Word `j` of the array is all ones. -/
def Memory.erasedWord (m : Memory) (j : Nat) : Prop := ∀ i < 4, m.read (4 * j + i) = 0xFF

theorem loadWord_readFrom {m : Memory} {j : Nat} (inside : 4 * j + 4 ≤ Config.capacity) :
    loadWord (m.readFrom (4 * j) 4) = 0xFFFFFFFF ↔ m.erasedWord j := by
  rw [loadWord_eq_ones (readFrom_length _ _ _)]
  have place {i : Nat} (hi : i < 4) : (4 * j + i) % Config.capacity = 4 * j + i := Nat.mod_eq_of_lt (by omega)
  simp only [Memory.readFrom, List.mem_map, List.mem_range, forall_exists_index, and_imp]
  constructor
  · intro h i hi
    rw [← place hi]
    exact h _ i hi rfl
  · rintro h _ i hi rfl
    rw [place hi]
    exact h i hi

/-- The scan is about to read word `j`, with nothing delivered yet. -/
structure ScanAt (m : Memory) (rsps : List Rsp) (j : Nat) (s : State) : Prop where
  faces : ∃ c, s.Faces c ∧ c.ReadyWith m
  addr : s.w.addr = BitVec.ofNat 32 (4 * j)
  busy : s.h.busy = true
  todo : s.todo = []
  host : s.host = []
  resets : s.resets = []
  rsps : s.rsps = rsps

/-- A pass of the scan: at an all-ones word it delivers the address, at any other it waits before the next word. -/
theorem ScanAt.pass {m : Memory} {rsps : List Rsp} {j : Nat} {s : State} (h : ScanAt m rsps j s)
    (inside : 4 * j + 4 ≤ Config.capacity) :
    (m.erasedWord j → (runTasks [.scan] s).h.busy = false ∧ (runTasks [.scan] s).rspCode = .done ∧
      (runTasks [.scan] s).rspVal = BitVec.ofNat 32 (4 * j) ∧
      (runTasks [.scan] s).rsps = rsps ++ [⟨.done, BitVec.ofNat 32 (4 * j)⟩]) ∧
    (¬ m.erasedWord j → step (runTasks [.scan] s) = .next (runTasks [.scan] { runTasks [.scan] s with todo := [] }) ∧
      ScanAt m rsps (j + 1) { runTasks [.scan] s with todo := [] }) := by
  obtain ⟨⟨c, faces, ready⟩, addr, busy, todo, host, resets, rsps'⟩ := h
  obtain ⟨polls, polled, wip, wel⟩ := faces.poll_ready ready.wip ready.wel
  obtain ⟨data, after⟩ := polled.readBytes wip s.w.addr 4
  have small : (BitVec.ofNat 32 (4 * j)).toNat = 4 * j := by
    rw [BitVec.toNat_ofNat]
    exact Nat.mod_eq_of_lt (by simp only [Config.capacity] at inside; omega)
  have word : s.wordAt s.w.addr = loadWord (m.readFrom (4 * j) 4) := by
    rw [State.wordAt, readStatus1_afterPoll, data, Chip.countPoll_mem, ready.mem, addr, small]
  have erased : s.wordAt s.w.addr = 0xFFFFFFFF ↔ m.erasedWord j := by rw [word, loadWord_readFrom inside]
  constructor
  · intro ones
    rw [runTasks_last (runTask_scan_erased polls (erased.2 ones)), addr]
    exact ⟨rfl, rfl, rfl, by rw [finish_rsps]; exact congrArg (· ++ _) rsps'⟩
  · intro other
    have waits := runTasks_wait (ts := []) (runTask_scan_used polls (fun h => other (erased.1 h)))
    generalize runTasks [.scan] s = v at waits
    have left : v.todo = [.scan] := by
      rw [waits]
      exact congrArg (Task.scan :: ·) todo
    have blocked : v.Blocked := by
      rw [waits]
      exact ⟨resets, fun r hr => by
        have none : r ∈ s.host := hr
        rw [host] at none
        cases none⟩
    have next : s.w.addr + 4 = BitVec.ofNat 32 (4 * (j + 1)) := by
      rw [addr, Nat.mul_succ, BitVec.ofNat_add]
      rfl
    refine ⟨?_, ⟨⟨c.countPoll.resetDisabled, ?_, wip, wel, (Chip.countPoll_mem c).trans ready.mem⟩,
      ?_, ?_, rfl, ?_, ?_, ?_⟩⟩
    · rw [step_blocked blocked (by rw [waits]; exact busy), resume, left]
    · rw [waits]
      exact after.congr rfl rfl rfl
    · rw [waits]
      exact next
    · rw [waits]
      exact busy
    · rw [waits]
      exact host
    · rw [waits]
      exact resets
    · rw [waits]
      exact rsps'

/-- From word `j` on the scan answers at word `K`, a word a step (entry 1). -/
theorem ScanAt.run {m : Memory} {rsps : List Rsp} {K : Nat} (inside : 4 * K + 4 ≤ Config.capacity)
    (found : m.erasedWord K) (before : ∀ j < K, ¬ m.erasedWord j) (k : Nat) {j : Nat} {s : State} (h : ScanAt m rsps j s)
    (distance : j + k = K) :
    ∃ t, Sys2Proof.core.run k (runTasks [.scan] s) = .next t ∧ t.h.busy = false ∧ t.rspCode = .done ∧
      t.rspVal = BitVec.ofNat 32 (4 * K) ∧ t.rsps = rsps ++ [⟨.done, BitVec.ofNat 32 (4 * K)⟩] := by
  obtain ⟨ends, goesOn⟩ := h.pass (by omega)
  induction k generalizing j s with
  | zero =>
    obtain rfl : j = K := by omega
    exact ⟨_, rfl, ends found⟩
  | succ k ih =>
    obtain ⟨step, next⟩ := goesOn (before j (by omega))
    obtain ⟨ends', goesOn'⟩ := next.pass (by omega)
    rw [core_run_succ step]
    exact ih next (by omega) ends' goesOn'

/-- Settles O60: `USED` starts at word 0, and every pass but the one at word `K` goes on. -/
theorem usedFindsTheFirstErasedWord : Obligations.UsedFindsTheFirstErasedWord := by
  intro K s c attached busy init todo resets host inside found before
  let s0 : State := { s with host := [] }
  have first : step s = .next (runTasks [.scan] { s0.accepted with w := { s.w with addr := 0 } }) := by
    rw [step_present resets host busy todo, takeBuffers_none, decodeCommand, cmdOp_commandWord]
    exact exec_used_accepted (s := s0) busy init
  have start : ScanAt c.mem s.rsps 0 { s0.accepted with w := { s.w with addr := 0 } } :=
    ⟨⟨c, attached.faces.congr rfl rfl rfl, attached.notBusy, attached.latchClear, rfl⟩, rfl, rfl, todo, rfl,
      resets, rfl⟩
  rw [core_run_succ first]
  refine start.run inside found (fun m hm erased => ?_) K (Nat.zero_add K)
  obtain ⟨i, hi, other⟩ := before m hm
  exact other (erased i hi)

end Sys2Proof.Machine
end

section
/-! SUPPORT. Erasing, writing and reading back against a mock chip with any busy times (R84): what each operation leaves in the array, however many steps its waits take. -/

namespace Sys2Proof.Machine

/-! ### A chip that gets ready -/

/-- The chip is ready, or it is busy and polls count it down. -/
def Chip.Settling (c : Chip) : Prop :=
  (c.wip = false ∧ c.wel = false) ∨ (c.wip = true ∧ c.wel = true ∧ 0 < c.cnt)

/-- How many polls still find the chip busy. -/
def Chip.pollsLeft (c : Chip) : Nat := if c.wip then c.cnt else 0

@[simp] theorem countPoll_nProg (c : Chip) : c.countPoll.nProg = c.nProg := by
  unfold Chip.countPoll
  split <;> rfl

@[simp] theorem startBusy_nProg (c : Chip) (n : Nat) : (c.startBusy n).nProg = c.nProg := by
  unfold Chip.startBusy
  split <;> rfl

theorem Chip.Settling.wel {c : Chip} (h : c.Settling) (ready : c.wip = false) : c.wel = false := by
  obtain ⟨-, wel⟩ | ⟨busy, -⟩ := h
  · exact wel
  · rw [ready] at busy; cases busy

theorem startBusy_settling (c : Chip) (n : Nat) :
    (c.startBusy n).Settling ∧ (n = 0 → (c.startBusy n).wip = false) := by
  unfold Chip.startBusy
  split
  · exact ⟨.inl ⟨rfl, rfl⟩, fun _ => rfl⟩
  · exact ⟨.inr ⟨rfl, rfl, Nat.pos_of_ne_zero ‹_›⟩, fun e => absurd e ‹_›⟩

/-- A poll keeps a chip ready, or brings it nearer to it. -/
theorem Chip.Settling.countPoll {c : Chip} (h : c.Settling) :
    c.countPoll.Settling ∧ (c.wip = true → c.countPoll.pollsLeft < c.pollsLeft) := by
  obtain ⟨wip, wel⟩ | ⟨wip, wel, count⟩ := h
  · exact ⟨.inl (countPoll_ready wip wel), fun busy => by rw [wip] at busy; cases busy⟩
  · unfold Chip.countPoll Chip.pollsLeft Chip.Settling
    split <;> rename_i cnt
    · omega
    · simp [wip, cnt]
    · simp [wip, wel, cnt]

/-- A poll of a settling chip finds it as its busy bit says. -/
theorem State.Faces.pollsReady_settling {s : State} {c : Chip} (h : s.Faces c) (settling : c.Settling) :
    s.pollsReady = !c.wip := by
  rw [h.pollsReady]
  obtain ⟨wip, wel⟩ | ⟨wip, wel, -⟩ := settling <;> rw [wip, wel] <;> rfl

/-! ### The readiness wait -/

/-- The operation of `s` needs no wait, or it may wait: it is busy, nothing else is left, and the host is blocked. -/
def State.MayWait (s : State) (ready : Prop) : Prop := ready ∨ (s.Blocked ∧ s.todo = [] ∧ s.h.busy = true)

theorem State.Blocked.congr {s t : State} (h : s.Blocked) (resets : t.resets = s.resets) (host : t.host = s.host) :
    t.Blocked := ⟨resets.trans h.resets, by rw [host]; exact h.host⟩

/-- What a waiting operation does at the next step: it takes its tasks up again. -/
theorem step_waiting {v : State} {ts : List Task} (blocked : v.Blocked) (busy : v.h.busy = true) (todo : v.todo = ts) :
    step v = .next (runTasks ts { v with todo := [] }) := by
  rw [step_blocked blocked busy, resume, todo]

/-- After some steps the readiness wait is over, and the tasks behind it run against a ready chip. -/
theorem gate_run {s : State} {c : Chip} (faces : s.Faces c) (settling : c.Settling) (may : s.MayWait (c.wip = false))
    (ts : List Task) :
    ∃ k u c', Sys2Proof.core.run k (runTasks (.gate :: ts) s) = .next (runTasks ts u) ∧ s.FramesOnly u ∧ u.Faces c' ∧
      c'.wip = false ∧ c'.mem = c.mem ∧ (c.wip = false → k = 0) := by
  obtain ⟨settling', fewer⟩ := settling.countPoll
  have ready := faces.pollsReady_settling settling
  have only : s.FramesOnly (afterPoll s) := readStatus1_afterPoll s ▸ State.FramesOnly.readStatus1 s
  cases wip : c.wip with
  | false =>
    rw [wip] at ready
    rw [runTasks_gate_ready ts ready]
    exact ⟨0, _, _, rfl, only, faces.afterPoll, (countPoll_ready wip (settling.wel wip)).1, c.countPoll_mem,
      fun _ => rfl⟩
  | true =>
    rw [wip] at ready
    obtain ⟨blocked, todo, busy⟩ := may.resolve_left (by rw [wip]; decide)
    let u : State := (afterPoll s).emit .yld
    have polled : u.Faces c.countPoll := faces.afterPoll.emit fun _ => rfl
    have left : u.todo = [] := todo
    have waits : runTasks (.gate :: ts) s = { u with todo := .gate :: ts } := by
      rw [runTasks_gate_notReady ts ready, todo, List.append_nil]
    have again : step { u with todo := .gate :: ts } = .next (runTasks (.gate :: ts) u) := by
      rw [step_waiting (v := { u with todo := .gate :: ts }) (blocked.congr rfl rfl) busy rfl, ← left]
    have := fewer wip
    obtain ⟨k, v, c', run, only', faces', ready', mem', -⟩ :=
      gate_run polled settling' (.inr ⟨blocked.congr rfl rfl, left, busy⟩) ts
    refine ⟨k + 1, v, c', ?_, (only.trans (.emit .yld _)).trans only', faces', ready', mem'.trans c.countPoll_mem,
      fun e => by cases e⟩
    rw [waits, core_run_succ again]
    exact run
termination_by c.pollsLeft

/-! ### Writing (R173) -/

/-- The array `E` with the first `p` bytes of `d` written from address `a` on. -/
def written (E : Nat → Byte) (a : Nat) (d : List Byte) (p y : Nat) : Byte :=
  if a ≤ y ∧ y < a + p then d.getD (y - a) 0 else E y

/-- Inside a page and the device the bytes of a payload go to consecutive addresses. -/
theorem programAddress_inside {a : U32} {i : Nat} (page : a.toNat % 256 + i < 256)
    (inside : a.toNat + i < Config.capacity) : programAddress a i = a.toNat + i := by
  simp only [programAddress, Config.pageSize, Config.capacity] at *
  omega

/-- A payload inside a page and the device is ANDed into consecutive addresses. -/
theorem programBytes_read_range {a : U32} {ds : List Byte} {m : Memory} (page : a.toNat % 256 + ds.length ≤ 256)
    (inside : a.toNat + ds.length ≤ Config.capacity) (y : Nat) :
    (programBytes a 0 ds m).read y =
      if a.toNat ≤ y ∧ y < a.toNat + ds.length then m.read y &&& ds.getD (y - a.toNat) 0 else m.read y := by
  have place {i : Nat} (hi : i < ds.length) : programAddress a i = a.toNat + i :=
    programAddress_inside (by omega) (by omega)
  split
  · rename_i h
    obtain ⟨i, rfl⟩ : ∃ i, y = a.toNat + i := ⟨y - a.toNat, by omega⟩
    have hi : i < ds.length := by omega
    have read := programBytes_read_at a ds 0 m (by omega) (List.getElem?_eq_getElem hi)
    rw [Nat.zero_add, place hi] at read
    rw [read, Nat.add_sub_cancel_left, List.getD_eq_getElem _ _ hi]
  · refine programBytes_read_other a ds 0 m y fun j _ hj => ?_
    rw [place (by omega)]
    omega

/-- A write of `d` at `a` into the array `E` stands before byte `p`. -/
structure WriteAt (E : Nat → Byte) (a : U32) (d : List Byte) (p : Nat) (s : State) (c : Chip) : Prop where
  faces : s.Faces c
  settling : c.Settling
  array : ∀ y, c.mem.read y = written E a.toNat d p y
  addr : s.w.addr.toNat = a.toNat + p
  pos : s.w.pos.toNat = p
  rem : s.w.rem.toNat + p = d.length
  wbuf : s.wbuf = d

/-- The chunk sent, the registers advanced by it, and the chip with its bytes in the array. -/
theorem writePass_faces {s : State} {c : Chip} (faces : s.Faces c) (wip : c.wip = false) (wel : c.wel = false) :
    (writePass s).Faces (c.countPoll.latchSet.program (addressBytes s.h.addressWidth s.w.addr ++ s.passBytes)) := by
  obtain ⟨wip', wel'⟩ := countPoll_ready wip wel
  have distinct : c.countPoll.cfg.Distinct := by rw [countPoll_cfg]; exact faces.chipDistinct
  have polled := (Bus.frame_faces (hp := s.hp) faces.env (responseFrame s.cfg.opRdsr1 1)).2
  rw [← faces.commands, accept_status] at polled
  have enabled := (Bus.frame_faces (hp := s.hp) polled [c.countPoll.cfg.opWren]).2
  rw [accept_writeEnable distinct wip'] at enabled
  have sent := (Bus.frame_faces (hp := s.hp) enabled
    (c.countPoll.latchSet.cfg.opPp :: (addressBytes s.h.addressWidth s.w.addr ++ s.passBytes))).2
  rw [accept_program (c := c.countPoll.latchSet) distinct wip'] at sent
  have commands : c.countPoll.latchSet.cfg = s.cfg := (countPoll_cfg c).trans faces.commands
  rw [commands, countPoll_cfg, faces.commands] at sent
  have outside := writePass_eq s
  refine ⟨?_, ?_, ?_, ?_⟩
  · rw [writePass_bus]
    exact sent
  · rw [program_cfg, commands, outside]
  · rw [outside]
    exact faces.width
  · rw [outside]
    exact faces.distinct

/-- What the chunk adds to the bytes written. -/
theorem written_add {E : Nat → Byte} {a p q : Nat} {d : List Byte}
    (erased : ∀ y, a ≤ y → y < a + d.length → E y = 0xFF) (inside : p + q ≤ d.length) (y : Nat) :
    (if a + p ≤ y ∧ y < a + p + q then written E a d p y &&& ((d.drop p).take q).getD (y - (a + p)) 0
      else written E a d p y) = written E a d (p + q) y := by
  unfold written
  split
  · obtain ⟨i, rfl⟩ : ∃ i, y = a + p + i := ⟨y - (a + p), by omega⟩
    have byte : ((d.drop p).take q).getD i 0 = d.getD (p + i) 0 := by
      rw [List.getD_eq_getElem?_getD, List.getElem?_take_of_lt (by omega), List.getElem?_drop,
        List.getD_eq_getElem?_getD]
    rw [if_neg (by omega), if_pos (by omega), erased _ (by omega) (by omega), Nat.add_sub_cancel_left, byte,
      Nat.add_assoc, Nat.add_sub_cancel_left]
    exact BitVec.allOnes_and
  · split
    · rw [if_pos (by omega)]
    · rw [if_neg (by omega)]

theorem WriteAt.pass {E : Nat → Byte} {a : U32} {d : List Byte} {p : Nat} {s : State} {c : Chip}
    (h : WriteAt E a d p s c) (inside : a.toNat + d.length ≤ Config.capacity)
    (erased : ∀ y, a.toNat ≤ y → y < a.toNat + d.length → E y = 0xFF) (more : s.w.rem ≠ 0) (wip : c.wip = false) :
    ∃ q c', 0 < q ∧ WriteAt E a d (p + q) (writePass s) c' ∧ c'.nProg = c.nProg ∧
      (c.nProg = 0 → c'.wip = false) := by
  obtain ⟨faces, settling, array, addr, pos, rem, wbuf⟩ := h
  let q := (chunkSize s.w.addr s.w.rem).toNat
  have law : q = min s.w.rem.toNat (256 - s.w.addr.toNat % 256) := (chunkSizeFollowsTheLaw _ _).1
  have some : 0 < q ∧ q ≤ s.w.rem.toNat := chunkSize_pos_le more
  have q32 : ((chunkSize s.w.addr s.w.rem).setWidth 32).toNat = q := chunkSize_setWidth_toNat _ _
  have sent : s.passBytes = (d.drop p).take q := by
    rw [passBytes_eq (by rw [pos, wbuf]; show p + q ≤ _; omega), pos, wbuf]
  have length : s.passBytes.length = q := passBytes_length s
  have nonempty : s.passBytes ≠ [] := by
    intro e
    rw [e] at length
    exact absurd length.symm (Nat.pos_iff_ne_zero.1 some.1)
  have after := writePass_faces faces wip (settling.wel wip)
  have width : s.h.addressWidth = c.countPoll.latchSet.cfg.addressWidth := by
    rw [faces.width, ← faces.commands]
    exact congrArg Cfg.addressWidth (countPoll_cfg c).symm
  have fits : c.countPoll.latchSet.cfg.addressWidth.fits s.w.addr = true := by
    rw [AddrWidth.fits, decide_eq_true_iff, addr]
    refine lt_of_lt_of_le ?_ (Nat.le_of_dvd (by positivity) (capacity_dvd_carried _))
    omega
  rw [width, program_eq rfl fits nonempty] at after
  have base : c.countPoll.latchSet.mem = c.mem := c.countPoll_mem
  have count : c.countPoll.latchSet.nProg = c.nProg := countPoll_nProg c
  rw [base, count] at after
  obtain ⟨settles, atOnce⟩ :=
    startBusy_settling (c.countPoll.latchSet.withArray (programBytes s.w.addr 0 s.passBytes c.mem)) c.nProg
  refine ⟨q, _, some.1, ⟨after, settles, fun y => ?_, ?_, ?_, ?_, wbuf⟩, ?_, atOnce⟩
  · rw [Chip.startBusy_mem]
    show (programBytes s.w.addr 0 s.passBytes c.mem).read y = _
    rw [programBytes_read_range (by omega) (by omega), length, addr, array, sent]
    exact written_add erased (by omega) y
  · show (s.w.addr + (chunkSize s.w.addr s.w.rem).setWidth 32).toNat = _
    rw [BitVec.toNat_add, q32, addr]
    simp only [Config.capacity] at inside
    omega
  · show (s.w.pos + (chunkSize s.w.addr s.w.rem).setWidth 32).toNat = _
    rw [BitVec.toNat_add, q32, pos]
    simp only [Config.capacity] at inside
    omega
  · show (s.w.rem - (chunkSize s.w.addr s.w.rem).setWidth 32).toNat + (p + q) = _
    rw [BitVec.toNat_sub_of_le (by rw [BitVec.le_def, q32]; exact some.2), q32]
    omega
  · rw [startBusy_nProg]
    exact count

theorem State.SameOutside.trans {a b c : State} (h : a.SameOutside b) (k : b.SameOutside c) : a.SameOutside c := by
  unfold State.SameOutside at *
  rw [k, h]

theorem State.FramesOnly.sameOutside {s t : State} (h : s.FramesOnly t) : s.SameOutside t := by
  rw [h]
  rfl

theorem writePass_sameOutside (s : State) : s.SameOutside (writePass s) := by
  rw [writePass_eq]
  rfl

/-- The loop writes what is left, in as many steps as its waits take; against a chip that completes at once, in none
more. -/
theorem WriteAt.run {E : Nat → Byte} {a : U32} {d : List Byte} {p : Nat} {s : State} {c : Chip} (len : U32)
    (h : WriteAt E a d p s c) (inside : a.toNat + d.length ≤ Config.capacity)
    (erased : ∀ y, a.toNat ≤ y → y < a.toNat + d.length → E y = 0xFF)
    (may : s.MayWait (c.nProg = 0 ∧ c.wip = false)) :
    ∃ k u c', Sys2Proof.core.run k (runTasks [.writeLoop len] s) = .next (finish len u) ∧ s.SameOutside u ∧
      WriteAt E a d d.length u c' ∧ (c.nProg = 0 ∧ c.wip = false → k = 0 ∧ c'.wip = false) := by
  by_cases more : s.w.rem = 0
  · have done : p = d.length := by
      have rem := h.rem
      rw [more] at rem
      simpa using rem
    subst done
    exact ⟨0, s, c, congrArg Host.Outcome.next (runTasks_writeLoop_done more), rfl, h, fun e => ⟨rfl, e.2⟩⟩
  · have ready := h.faces.pollsReady_settling h.settling
    cases wip : c.wip with
    | false =>
      obtain ⟨q, c1, some, next, count, atOnce⟩ := h.pass inside erased more wip
      have less : (writePass s).w.rem.toNat < s.w.rem.toNat := by
        have rem := h.rem
        have rem' := next.rem
        omega
      have outside := writePass_sameOutside s
      have may' : (writePass s).MayWait (c1.nProg = 0 ∧ c1.wip = false) := by
        rcases may with ⟨none, -⟩ | ⟨blocked, todo, busy⟩
        · exact .inl ⟨count.trans none, atOnce none⟩
        · rw [outside]
          exact .inr ⟨blocked.congr rfl rfl, todo, busy⟩
      obtain ⟨k, u, c', run, outside', final, prompt⟩ := WriteAt.run len next inside erased may'
      rw [wip] at ready
      rw [runTasks_writeLoop_pass more ready]
      exact ⟨k, u, c', run, outside.trans outside', final, fun e => prompt ⟨count.trans e.1, atOnce e.1⟩⟩
    | true =>
      obtain ⟨settling', fewer⟩ := h.settling.countPoll
      have nearer := fewer wip
      obtain ⟨blocked, todo, busy⟩ := may.resolve_left (by rw [wip]; simp)
      have start : (setChunk s).Faces c := h.faces.congr rfl rfl rfl
      have only : (setChunk s).FramesOnly ((afterPoll (setChunk s)).emit .yld) :=
        readStatus1_afterPoll (setChunk s) ▸ (State.FramesOnly.readStatus1 (setChunk s)).trans (.emit .yld _)
      have polled : ((afterPoll (setChunk s)).emit .yld).Faces c.countPoll := start.afterPoll.emit fun _ => rfl
      rw [wip] at ready
      have waits := runTasks_wait (ts := []) (runTask_writeLoop_notReady (len := len) more ready)
      generalize (afterPoll (setChunk s)).emit .yld = v at only polled waits
      have outside : s.SameOutside v := State.SameOutside.trans (b := setChunk s) rfl only.sameOutside
      have left : v.todo = [] := by rw [outside]; exact todo
      have at' : WriteAt E a d p v c.countPoll := by
        refine ⟨polled, settling', fun y => ?_, ?_, ?_, ?_, ?_⟩
        · rw [Chip.countPoll_mem]
          exact h.array y
        · rw [only]; exact h.addr
        · rw [only]; exact h.pos
        · rw [only]; exact h.rem
        · rw [only]; exact h.wbuf
      have blocked' : v.Blocked := by rw [outside]; exact blocked.congr rfl rfl
      have busy' : v.h.busy = true := by rw [outside]; exact busy
      have again : step { v with todo := [.writeLoop len] } = .next (runTasks [.writeLoop len] v) := by
        rw [step_waiting (v := { v with todo := [.writeLoop len] }) (blocked'.congr rfl rfl) busy' rfl, ← left]
      have same : v.w.rem.toNat = s.w.rem.toNat := by rw [only]; rfl
      obtain ⟨k, u, c', run, outside', final, -⟩ :=
        WriteAt.run len at' inside erased (.inr ⟨blocked', left, busy'⟩)
      refine ⟨k + 1, u, c', ?_, outside.trans outside', final, fun e => by cases e.2⟩
      rw [waits, left, List.append_nil, core_run_succ again]
      exact run
termination_by (s.w.rem.toNat, c.pollsLeft)

/-! ### The three operations -/

/-- An operation has answered `v`, and only what operations write has changed; the handle is as before. -/
def State.Answered (v : U32) (s t : State) : Prop :=
  t = { s with
    bus := t.bus, w := t.w, resp := t.resp, rbuf := t.rbuf, rspCode := .done, rspVal := v
    rsps := s.rsps ++ [⟨.done, v⟩] }

namespace State.Answered

variable {v : U32} {s t : State} (h : s.Answered v t)
include h

theorem handle : t.h = s.h := by rw [h]
theorem host : t.host = s.host := by rw [h]
theorem resets : t.resets = s.resets := by rw [h]
theorem todo : t.todo = s.todo := by rw [h]
theorem wbuf : t.wbuf = s.wbuf := by rw [h]
theorem value : t.rspVal = v := by rw [h]
theorem responses : t.rsps = s.rsps ++ [⟨.done, v⟩] := by rw [h]

end State.Answered

theorem State.Answered.of_finish {s u : State} (busy : s.h.busy = false) (h : s.accepted.SameOutside u) (v : U32) :
    s.Answered v (finish v u) := by
  have handle : u.h = s.accepted.h := by rw [h]
  rw [finish_accepted v busy handle]
  unfold State.Answered
  rw [h]
  rfl

theorem State.Answered.of_readMemory {s u : State} (busy : s.h.busy = false) (h : s.accepted.FramesOnly u) (v a : U32)
    (n : Nat) : s.Answered v (finish v (readMemory a n u)) := by
  have only : s.accepted.FramesOnly (readBytes a n u).2 := h.trans (.readBytes a n u)
  have handle : (readMemory a n u).h = s.accepted.h := by
    rw [readMemory_h, h]
  rw [finish_accepted v busy handle, readMemory]
  generalize readBytes a n u = r at only
  unfold State.Answered
  rw [only]
  rfl

/-- The array after sector `k` has been erased. -/
def erasedSector (m : Memory) (k y : Nat) : Byte :=
  if k * Config.sectorSize ≤ y ∧ y < (k + 1) * Config.sectorSize then 0xFF else m.read y

/-- `ERSEC` against a ready chip. -/
theorem exec_ersec_settles {k : U32} {s : State} {c : Chip} (attached : c.Attached s) (busy : s.h.busy = false)
    (init : s.h.initialized = true) (sector : k.toNat < Config.nSectors) :
    ∃ t c', exec (.ersec k) s = .next t ∧ s.Answered 1 t ∧ t.Faces c' ∧ c'.Settling ∧
      (∀ y, c'.mem.read y = erasedSector c.mem k.toNat y) ∧ c'.nProg = c.nProg ∧ (c.nErase = 0 → c'.wip = false) := by
  obtain ⟨ready, polled, wip, -⟩ := attached.faces.poll_ready attached.notBusy attached.latchClear
  have base : c.countPoll.latchSet.mem = c.mem := c.countPoll_mem
  have count : c.countPoll.latchSet.nProg = c.nProg := countPoll_nProg c
  have times : c.countPoll.latchSet.nErase = c.nErase := by
    show c.countPoll.nErase = c.nErase
    unfold Chip.countPoll
    split <;> rfl
  let a := eraseAddress Config.sectorSize k
  have after := (polled.writeEnable wip).eraseCommand wip (op := s.cfg.opSe) (unit := Config.sectorSize)
    (List.mem_cons_self ..) a
  have width : s.h.addressWidth = c.countPoll.latchSet.cfg.addressWidth := by
    rw [attached.width, ← attached.commands]
    exact congrArg Cfg.addressWidth (countPoll_cfg c).symm
  have only : s.FramesOnly (eraseCommand s.cfg.opSe a (writeEnable (afterPoll s))) :=
    ((readStatus1_afterPoll s ▸ State.FramesOnly.readStatus1 s).trans (.runCommand _ _)).trans (.eraseCommand _ a _)
  have read := eraseUnit_read (c := c.countPoll.latchSet) rfl a (unit := Config.sectorSize) (List.mem_cons_self ..)
  have busyTime := eraseUnit_eq (c := c.countPoll.latchSet) rfl a Config.sectorSize
  rw [base, times] at busyTime
  rw [base, busyTime] at read
  have runs := exec_eraseUnit_ready (i := .ersec k) (op := s.cfg.opSe) (a := a) rfl busy init ready
  rw [show (writeEnable (afterPoll s)).h.addressWidth = s.h.addressWidth from rfl, width, busyTime] at after
  obtain ⟨settles, atOnce⟩ := startBusy_settling (c.countPoll.latchSet.withArray
    (c.mem.eraseRange (eraseBase Config.sectorSize (carried c.countPoll.latchSet.cfg.addressWidth a)) Config.sectorSize))
    c.nErase
  generalize eraseCommand s.cfg.opSe a (writeEnable (afterPoll s)) = u at runs after only
  refine ⟨_, _, runs, ?_, after.congr rfl rfl rfl, settles, fun y => ?_, ?_, atOnce⟩
  · unfold State.Answered
    rw [only]
  · have value : a.toNat = k.toNat * 4096 % 2 ^ 32 := by
      rw [show a = _ from eraseAddress_eq Config.sectorSize k, BitVec.toNat_ofNat]
      rfl
    rw [read y, erasedSector, value]
    simp only [Config.capacity, Config.sectorSize, Config.nSectors] at sector ⊢
    refine if_congr ?_ rfl rfl
    omega
  · rw [startBusy_nProg]
    exact count

/-- The length of a range inside the device is a command operand. -/
theorem range_length {a : U32} {d : List Byte} (inside : a.toNat + d.length ≤ Config.capacity) :
    (BitVec.ofNat 32 d.length).toNat = d.length := by
  rw [BitVec.toNat_ofNat]
  exact Nat.mod_eq_of_lt (by simp only [Config.capacity] at inside; omega)

/-- `WRBUF` of the whole write buffer, into erased bytes. -/
theorem exec_wrbuf_settles {E : Nat → Byte} {a : U32} {d : List Byte} {s : State} {c : Chip} (faces : s.Faces c)
    (settling : c.Settling) (array : ∀ y, c.mem.read y = E y) (busy : s.h.busy = false) (init : s.h.initialized = true)
    (wbuf : s.wbuf = d) (inside : a.toNat + d.length ≤ Config.capacity)
    (erased : ∀ y, a.toNat ≤ y → y < a.toNat + d.length → E y = 0xFF)
    (may : (c.nProg = 0 ∧ c.wip = false) ∨ (s.Blocked ∧ s.todo = [])) :
    ∃ k x t c', exec (.wrbuf a (BitVec.ofNat 32 d.length)) s = .next x ∧ Sys2Proof.core.run k x = .next t ∧
      s.Answered (BitVec.ofNat 32 d.length) t ∧ t.Faces c' ∧ c'.Settling ∧
      (∀ y, c'.mem.read y = written E a.toNat d d.length y) ∧
      (c.nProg = 0 ∧ c.wip = false → k = 0 ∧ c'.wip = false) := by
  have small := range_length (d := d) inside
  let start := startWrite a (BitVec.ofNat 32 d.length) s.accepted
  have first : WriteAt E a d 0 start c := by
    refine ⟨faces.congr rfl rfl rfl, settling, fun y => ?_, rfl, rfl, small, wbuf⟩
    rw [array, written, if_neg (by omega)]
  have may' : start.MayWait (c.nProg = 0 ∧ c.wip = false) :=
    may.imp_right fun h => ⟨h.1.congr rfl rfl, h.2, rfl⟩
  obtain ⟨k, u, c', run, outside, final, prompt⟩ := first.run (BitVec.ofNat 32 d.length) inside erased may'
  have same : s.accepted.SameOutside u := State.SameOutside.trans (b := start) rfl outside
  exact ⟨k, _, _, c', exec_wrbuf_accepted a _ busy init, run, .of_finish busy same _, final.faces.congr rfl rfl rfl,
    final.settling, final.array, prompt⟩

/-- `RDBUF`, whatever the chip is busy with. -/
theorem exec_rdbuf_settles (a n : U32) {s : State} {c : Chip} (faces : s.Faces c) (settling : c.Settling)
    (busy : s.h.busy = false) (init : s.h.initialized = true) (may : c.wip = false ∨ (s.Blocked ∧ s.todo = [])) :
    ∃ k x t c', exec (.rdbuf a n) s = .next x ∧ Sys2Proof.core.run k x = .next t ∧ s.Answered n t ∧ t.Faces c' ∧
      c'.mem = c.mem ∧ t.rbuf.take n.toNat = c.mem.readFrom a.toNat n.toNat ∧ (c.wip = false → k = 0) := by
  have may' : s.accepted.MayWait (c.wip = false) := may.imp_right fun h => ⟨h.1.congr rfl rfl, h.2, rfl⟩
  obtain ⟨k, u, c', run, only, faces', wip, mem, prompt⟩ :=
    gate_run (s := s.accepted) (faces.congr rfl rfl rfl) settling may'
    [.readBuffer a n]
  obtain ⟨data, after⟩ := faces'.readBytes wip a n.toNat
  have ends : runTasks [.readBuffer a n] u = finish n (readMemory a n.toNat u) := runTasks_last rfl
  refine ⟨k, _, finish n (readMemory a n.toNat u), c'.resetDisabled,
    exec_gated_accepted (task := .readBuffer a n) rfl busy init, ends ▸ run, .of_readMemory busy only n a n.toNat,
    after.congr rfl rfl rfl, mem, ?_, prompt⟩
  show (storeAtFront (readBytes a n.toNat u).1 u.rbuf).take n.toNat = _
  rw [data, storeAtFront, List.take_left' (readFrom_length _ _ _), mem]

/-! ### The round trip (R84, S5) -/

theorem written_outside (E : Nat → Byte) {a y : Nat} {d : List Byte} (h : y < a ∨ a + d.length ≤ y) :
    written E a d d.length y = E y := if_neg (by omega)

/-- A read of the range written delivers the bytes written. -/
theorem readFrom_written {m : Memory} {E : Nat → Byte} {a : Nat} {d : List Byte}
    (array : ∀ y, m.read y = written E a d d.length y) (inside : a + d.length ≤ Config.capacity) :
    m.readFrom a d.length = d := by
  refine List.ext_getElem (readFrom_length _ _ _) fun i _ hi => ?_
  simp only [Memory.readFrom, List.getElem_map, List.getElem_range]
  rw [Nat.mod_eq_of_lt (by omega), array, written, if_pos (by omega), Nat.add_sub_cancel_left,
    List.getD_eq_getElem _ _ hi]

theorem erasedSector_inside (m : Memory) {k a n y : Nat} (above : k * Config.sectorSize ≤ a)
    (below : a + n ≤ (k + 1) * Config.sectorSize) (low : a ≤ y) (high : y < a + n) : erasedSector m k y = 0xFF :=
  if_pos (by omega)

/-- Runs compose. -/
theorem run_add {M : Host.Core} {s t : M.State} {k : Nat} (h : M.run k s = .next t) (m : Nat) :
    M.run (k + m) s = M.run m t := by
  induction k generalizing s with
  | zero =>
    obtain rfl : s = t := Host.Outcome.next.inj h
    rw [Nat.zero_add]
  | succ k ih =>
    rw [Nat.add_right_comm, Host.Core.run]
    rw [Host.Core.run] at h
    cases first : M.step s with
    | next u =>
      rw [first] at h
      exact ih h
    | fault r =>
      rw [first] at h
      cases h
    | refused r =>
      rw [first] at h
      cases h

/-- A step that starts an operation, and the run that ends it. -/
theorem run_step_add {s x t : State} {k : Nat} (first : step s = .next x) (h : Sys2Proof.core.run k x = .next t)
    (m : Nat) : Sys2Proof.core.run (k + 1 + m) s = Sys2Proof.core.run m t :=
  run_add (M := Sys2Proof.core) ((core_run_succ first k).trans h) m

theorem takeBuffers_wbuf {s : State} (busy : s.h.busy = false) (d : List Byte) :
    takeBuffers (some d) none s = { s with wbuf := d } := by
  rw [takeBuffers, busy]
  rfl

section RoundTrip

variable {k a : U32} {d : List Byte} {s : State} {c : Chip} (attached : c.Attached s) (busy : s.h.busy = false)
  (init : s.h.initialized = true) (sector : k.toNat < Config.nSectors) (above : k.toNat * Config.sectorSize ≤ a.toNat)
  (below : a.toNat + d.length ≤ (k.toNat + 1) * Config.sectorSize)

include sector below in
/-- A range inside a sector is inside the device. -/
theorem range_inside : a.toNat + d.length ≤ Config.capacity := by
  simp only [Config.sectorSize, Config.nSectors, Config.capacity] at *
  omega

include attached busy init sector above below

/-- Against a chip that completes at once no operation waits. -/
theorem roundTrip_atOnce (noProg : c.nProg = 0) (noErase : c.nErase = 0) :
    ∃ s1 s2 s3 c', exec (.ersec k) s = .next s1 ∧
      exec (.wrbuf a (BitVec.ofNat 32 d.length)) { s1 with wbuf := d } = .next s2 ∧
      exec (.rdbuf a (BitVec.ofNat 32 d.length)) s2 = .next s3 ∧ s2.rspVal.toNat = d.length ∧
      s3.rspVal.toNat = d.length ∧ s3.rbuf.take d.length = d ∧ s3.wbuf = d ∧ s3.bus.env = .mock c' ∧
      ∀ y, (y < a.toNat ∨ a.toNat + d.length ≤ y) → c'.mem.read y = erasedSector c.mem k.toNat y := by
  have inside := range_inside sector below
  have small := range_length (d := d) inside
  have erased : ∀ y, a.toNat ≤ y → y < a.toNat + d.length → erasedSector c.mem k.toNat y = 0xFF := fun y =>
    erasedSector_inside c.mem above below
  obtain ⟨s1, c1, erases, answer1, faces1, settling1, mem1, count1, prompt1⟩ :=
    exec_ersec_settles attached busy init sector
  have atOnce : c1.nProg = 0 ∧ c1.wip = false := ⟨count1.trans noProg, prompt1 noErase⟩
  obtain ⟨k2, x2, s2, c2, writes, run2, answer2, faces2, settling2, mem2, prompt2⟩ :=
    exec_wrbuf_settles (s := { s1 with wbuf := d }) (faces1.congr rfl rfl rfl) settling1 mem1
      (by rw [← busy, ← answer1.handle]) (by rw [← init, ← answer1.handle]) rfl inside erased (.inl atOnce)
  obtain ⟨rfl, wip2⟩ := prompt2 atOnce
  obtain rfl : x2 = s2 := Host.Outcome.next.inj run2
  have handle2 : x2.h = s.h := answer2.handle.trans answer1.handle
  obtain ⟨k3, x3, s3, c3, reads, run3, answer3, faces3, mem3, data, prompt3⟩ :=
    exec_rdbuf_settles a (BitVec.ofNat 32 d.length) faces2 settling2 (by rw [handle2, busy])
      (by rw [handle2, init]) (.inl wip2)
  obtain rfl := prompt3 wip2
  obtain rfl : x3 = s3 := Host.Outcome.next.inj run3
  obtain ⟨c', env, mem'⟩ := faces3.env_mock
  refine ⟨s1, x2, x3, c', erases, writes, reads, ?_, ?_, ?_, ?_, env, fun y hy => ?_⟩
  · rw [answer2.value, small]
  · rw [answer3.value, small]
  · rw [small] at data
    rw [data, readFrom_written mem2 inside]
  · rw [answer3.wbuf, answer2.wbuf]
  · rw [mem', mem3, mem2, written_outside _ hy]

/-- When the host presents the three operations, each begins once the one before it has answered, and its wait ends
because the chip settles. -/
theorem roundTrip_presented (todo : s.todo = []) (resets : s.resets = [])
    (host : s.host = [.command (commandWord 8 0 k) none none true,
      .command (commandWord 6 (BitVec.ofNat 32 d.length) a) (some d) none true,
      .command (commandWord 5 (BitVec.ofNat 32 d.length) a) none none true]) :
    ∃ n t c', Sys2Proof.core.run n s = .next t ∧ t.h.busy = false ∧ t.host = [] ∧
      t.rsps = s.rsps ++ [⟨.done, 1⟩, ⟨.done, BitVec.ofNat 32 d.length⟩, ⟨.done, BitVec.ofNat 32 d.length⟩] ∧
      t.rbuf.take d.length = d ∧ t.wbuf = d ∧ t.bus.env = .mock c' ∧
      ∀ y, (y < a.toNat ∨ a.toNat + d.length ≤ y) → c'.mem.read y = erasedSector c.mem k.toNat y := by
  have inside := range_inside sector below
  have small := range_length (d := d) inside
  have erased : ∀ y, a.toNat ≤ y → y < a.toNat + d.length → erasedSector c.mem k.toNat y = 0xFF := fun y =>
    erasedSector_inside c.mem above below
  let len : U32 := BitVec.ofNat 32 d.length
  let read : Request := .command (commandWord 5 len a) none none true
  let write : Request := .command (commandWord 6 len a) (some d) none true
  let s0 : State := { s with host := [write, read] }
  have attached0 : c.Attached s0 := { attached with }
  obtain ⟨s1, c1, erases, answer1, faces1, settling1, mem1, -⟩ := exec_ersec_settles attached0 busy init sector
  have busy1 : s1.h.busy = false := (congrArg Handle.busy answer1.handle).trans busy
  have init1 : s1.h.initialized = true := (congrArg Handle.initialized answer1.handle).trans init
  have first : step s = .next s1 := by
    rw [step_present resets host busy todo, takeBuffers_none, decodeCommand, cmdOp_commandWord, cmdArg_commandWord]
    exact erases
  let s1' : State := { s1 with host := [read], wbuf := d }
  have blocked1 : s1'.Blocked := ⟨answer1.resets.trans resets, by simp [s1', read]⟩
  obtain ⟨k2, x2, s2, c2, writes, run2, answer2, faces2, settling2, mem2, -⟩ :=
    exec_wrbuf_settles (d := d) (s := s1') (faces1.congr rfl rfl rfl) settling1 mem1 busy1 init1 rfl inside erased
      (.inr ⟨blocked1, answer1.todo.trans todo⟩)
  have busy2 : s2.h.busy = false := (congrArg Handle.busy answer2.handle).trans busy1
  have init2 : s2.h.initialized = true := (congrArg Handle.initialized answer2.handle).trans init1
  have todo2 : s2.todo = [] := answer2.todo.trans (answer1.todo.trans todo)
  have resets2 : s2.resets = [] := answer2.resets.trans blocked1.resets
  have second : step s1 = .next x2 := by
    rw [step_present (answer1.resets.trans resets) answer1.host busy1 (answer1.todo.trans todo),
      takeBuffers_wbuf (s := { s1 with host := [read] }) busy1 d, decodeCommand, cmdOp_commandWord,
      cmdArg_commandWord, cmdLen_commandWord]
    exact writes
  let s2' : State := { s2 with host := [] }
  have blocked2 : s2'.Blocked := ⟨resets2, by simp [s2']⟩
  obtain ⟨k3, x3, s3, c3, reads, run3, answer3, faces3, mem3, data, -⟩ :=
    exec_rdbuf_settles a len (s := s2') (faces2.congr rfl rfl rfl) settling2 busy2 init2 (.inr ⟨blocked2, todo2⟩)
  have third : step s2 = .next x3 := by
    rw [step_present resets2 answer2.host busy2 todo2, takeBuffers_none, decodeCommand, cmdOp_commandWord,
      cmdArg_commandWord, cmdLen_commandWord]
    exact reads
  obtain ⟨c', env, mem'⟩ := faces3.env_mock
  refine ⟨1 + (k2 + 1 + (k3 + 1)), s3, c', ?_, ?_, answer3.host, ?_, ?_, ?_, env, fun y hy => ?_⟩
  · rw [Nat.add_comm 1, core_run_succ first, run_step_add second run2, core_run_succ third]
    exact run3
  · rw [answer3.handle]
    exact busy2
  · have responses : s2.rsps = s1.rsps ++ [⟨.done, len⟩] := answer2.responses
    rw [answer3.responses, show s2'.rsps = s2.rsps from rfl, responses, answer1.responses, List.append_assoc,
      List.append_assoc]
    rfl
  · rw [small] at data
    rw [data, readFrom_written mem2 inside]
  · rw [answer3.wbuf]
    exact answer2.wbuf
  · rw [mem', mem3, mem2, written_outside _ hy]

end RoundTrip

/-- Settles O59: the sector is erased, so the write leaves exactly its bytes there, and the read finds them. -/
theorem eraseWriteReadRoundTrip : Obligations.EraseWriteReadRoundTrip := by
  intro k a d s c attached busy init sector above below
  exact ⟨roundTrip_atOnce attached busy init sector above below,
    roundTrip_presented attached busy init sector above below⟩

end Sys2Proof.Machine
end
